-- ==== Sys2Proof/Word.lean ====
section
/-! DEFINITION. Bytes, 32-bit words and the 7-byte clock value (spec 00_scope.md R7, R11, R13; 30_encoding.md R78). -/

namespace Sys2Proof

/-- A byte is 8 bits (R11). -/
abbrev Byte := BitVec 8

/-- A word of the running digest, the schedule and the time counter is 32 bits (R7). -/
abbrev Word := BitVec 32

/-- The 7 packed-BCD bytes `B[0]` to `B[6]` of a clock value, in the order of R78. -/
structure ClockBytes where
  /-- `B[0]` -/
  seconds : Byte
  /-- `B[1]` -/
  minutes : Byte
  /-- `B[2]` -/
  hours : Byte
  /-- `B[3]`, read and never used -/
  weekday : Byte
  /-- `B[4]`, day of the month -/
  day : Byte
  /-- `B[5]` -/
  month : Byte
  /-- `B[6]`, 00 to 99 meaning 2000 to 2099 -/
  year : Byte
deriving DecidableEq, Repr, Inhabited

end Sys2Proof
end

