-- ==== Sys2Proof/Machine/Bytes.lean ====
section
/-! DEFINITION. Byte order and word helpers: `BE32`, `ReadBE32` and `rotl_n` of 00_scope.md R12, R13. Every multi-byte
number of the CORE is big-endian (20_memory.md R54). -/

namespace Sys2Proof.Machine

/-- `ReadBE32`: four bytes, the first the most significant (R13). -/
def readBE32 (b0 b1 b2 b3 : Byte) : Word := b0 ++ b1 ++ b2 ++ b3

/-- `BE32(v)`: `v[31:24]` first (R13). -/
def be32 (v : Word) : List Byte :=
  [v.extractLsb' 24 8, v.extractLsb' 16 8, v.extractLsb' 8 8, v.extractLsb' 0 8]

/-- `rotl_n(x) = ((x << n) | (x >> (32-n)))[31:0]` (R12). -/
def rotl (n : Nat) (x : Word) : Word := (x <<< n) ||| (x >>> (32 - n))

end Sys2Proof.Machine
end

