-- ==== Sys2Proof/Syntax.lean ====
section
/-! DEFINITION. The 13 command frames (30_encoding.md R72), one constructor per row of spec/opcode_table.json, and the
pseudo-instructions of R84. -/

namespace Sys2Proof

/-- A command frame with its operands as its format gives them (R66 to R70). -/
inductive Instr where
  /-- SHA_RESET, format N (40_sha1.md R95) -/
  | shaReset
  /-- SHA_UPDATE, format L: `DATA` is message bytes (R96) -/
  | shaUpdate (data : List Byte)
  /-- SHA_DIGEST, format N (R97) -/
  | shaDigest
  /-- MAC_INIT, format L: `DATA` is the key (41_hmac.md R103) -/
  | macInit (key : List Byte)
  /-- MAC_UPDATE, format L: `DATA` is message bytes (R104) -/
  | macUpdate (data : List Byte)
  /-- MAC_FINAL, format L: `DATA` is the key again (R105) -/
  | macFinal (key : List Byte)
  /-- OTP_TRUNC, format N (42_otp.md R111) -/
  | otpTrunc
  /-- TC_BCD, format B7 (43_timecounter.md R123) -/
  | tcBcd (b : ClockBytes)
  /-- TC_MONO, format N (R124) -/
  | tcMono
  /-- CTL_POLL, format P: the whole `IN` byte, reserved bits included (44_controller.md R129, 30_encoding.md R74) -/
  | ctlPoll (inByte : Byte)
  /-- HOST_PROVISION, format L: `DATA` is the secret (44_controller.md R139) -/
  | hostProvision (secret : List Byte)
  /-- HOST_SET_TIME, format B7 (R140) -/
  | hostSetTime (b : ClockBytes)
  /-- HOST_SET_COUNTER, format B4 (R141) -/
  | hostSetCounter (cval : Word)
deriving DecidableEq, Repr

/-- The five frame formats (30_encoding.md R65 to R70). -/
inductive Format where
  /-- `[OPC]` (R66) -/
  | n
  /-- `[OPC][LEN][DATA ...]` (R67) -/
  | l
  /-- `[OPC][B[0] .. B[6]]` (R68) -/
  | b7
  /-- `[OPC][C[0] .. C[3]]` (R69) -/
  | b4
  /-- `[OPC][IN]` (R70) -/
  | p
deriving DecidableEq, Repr

/-- What a byte stream splits into (R75): a frame of the opcode map, or the 1-byte frame of an illegal opcode (R73). -/
inductive StreamFrame where
  | instr (i : Instr)
  | illegal (opc : Byte)
deriving DecidableEq, Repr

/-- The pseudo-instructions of R84: text only, the CORE sees the frames of their expansion. -/
inductive Pseudo where
  | sha1 (m : List Byte)
  | hmac (k m : List Byte)
  | hotp (k : List Byte) (c : Word)
  | tick (n : Nat)
  | press
  | hold (n : Nat)
deriving DecidableEq, Repr

end Sys2Proof
end

