-- ==== Sys2Proof/WellFormed.lean ====
section
/-! DEFINITION. Which instructions have an encoding. The one check is format L's: `LEN` is one byte, so a frame carries
at most 255 data bytes (30_encoding.md R67, R83). Every other operand fits its field by its type; the reserved bits of a
CTL_POLL are no encoding check, since the frame exists and raises RESERVED_BITS (R74). -/

namespace Sys2Proof

/-- Format L: `LEN` "must be at most 255" (R83). -/
def dataFits (data : List Byte) : Bool := data.length ≤ 255

/-- The instruction has an encoding. -/
def Instr.wellFormed : Instr → Bool
  | .shaReset => true
  | .shaUpdate data => dataFits data
  | .shaDigest => true
  | .macInit key => dataFits key
  | .macUpdate data => dataFits data
  | .macFinal key => dataFits key
  | .otpTrunc => true
  | .tcBcd _ => true
  | .tcMono => true
  | .ctlPoll _ => true
  | .hostProvision secret => dataFits secret
  | .hostSetTime _ => true
  | .hostSetCounter _ => true

end Sys2Proof
end

