-- ==== Sys2Proof/Decode.lean ====
section
/-! DEFINITION. The decoder of the frame stream, total on any bytes, and after it the encoder, the unique split of a byte
sequence into frames, the expansion of the pseudo-instructions and the textual form (30_encoding.md sections 1 to 4, 6). -/

namespace Sys2Proof

/-! ## Opcode map (R72) -/

namespace Opcode
def shaReset : Byte := 0x01
def shaUpdate : Byte := 0x02
def shaDigest : Byte := 0x03
def macInit : Byte := 0x11
def macUpdate : Byte := 0x12
def macFinal : Byte := 0x13
def otpTrunc : Byte := 0x21
def tcBcd : Byte := 0x31
def tcMono : Byte := 0x32
def ctlPoll : Byte := 0x41
def hostProvision : Byte := 0x51
def hostSetTime : Byte := 0x52
def hostSetCounter : Byte := 0x53
end Opcode

/-- The opcode map with each opcode's format; every other value of `OPC` is illegal (R72, R73). -/
def opcodeMap : List (Byte × Format) :=
  [(Opcode.shaReset, .n), (Opcode.shaUpdate, .l), (Opcode.shaDigest, .n), (Opcode.macInit, .l), (Opcode.macUpdate, .l),
   (Opcode.macFinal, .l), (Opcode.otpTrunc, .n), (Opcode.tcBcd, .b7), (Opcode.tcMono, .n), (Opcode.ctlPoll, .p),
   (Opcode.hostProvision, .l), (Opcode.hostSetTime, .b7), (Opcode.hostSetCounter, .b4)]

/-- The format of an opcode byte; `none` for an illegal one. -/
def formatOf (opc : Byte) : Option Format := opcodeMap.lookup opc

/-- The length of a frame "from its first one or two bytes alone" (R75); `none` while they have not arrived. -/
def frameLength : List Byte → Option Nat
  | [] => none
  | opc :: bs =>
    match formatOf opc with
    | none => some 1
    | some .n => some 1
    | some .p => some 2
    | some .b4 => some 5
    | some .b7 => some 8
    | some .l =>
      match bs with
      | [] => none
      | len :: _ => some (2 + len.toNat)

/-! ## Decoder -/

/-- What the decoder reads at the head of a byte sequence. -/
inductive Decoded where
  /-- a frame of the opcode map, and the bytes after it -/
  | frame (i : Instr) (rest : List Byte)
  /-- an opcode byte outside the map: a 1-byte frame (R73) -/
  | illegalOpcode (opc : Byte) (rest : List Byte)
  /-- the frame has not been delivered in full (R76) -/
  | incomplete
deriving DecidableEq, Repr

/-- Operands of format L: `LEN`, then exactly `LEN` data bytes (R67). -/
def decodeData (mk : List Byte → Instr) : List Byte → Decoded
  | [] => .incomplete
  | len :: bs => if len.toNat ≤ bs.length then .frame (mk (bs.take len.toNat)) (bs.drop len.toNat) else .incomplete

/-- Operands of format B7: `B[0]` to `B[6]` (R68). -/
def decodeClock (mk : ClockBytes → Instr) : List Byte → Decoded
  | b0 :: b1 :: b2 :: b3 :: b4 :: b5 :: b6 :: rest => .frame (mk ⟨b0, b1, b2, b3, b4, b5, b6⟩) rest
  | _ => .incomplete

/-- Operands of format B4: `CVAL = ReadBE32(C[0..4))` (R69). -/
def decodeWord (mk : Word → Instr) : List Byte → Decoded
  | c0 :: c1 :: c2 :: c3 :: rest => .frame (mk (Machine.readBE32 c0 c1 c2 c3)) rest
  | _ => .incomplete

/-- Operand of format P: the `IN` byte as it stands (R70). -/
def decodePins (mk : Byte → Instr) : List Byte → Decoded
  | b :: rest => .frame (mk b) rest
  | [] => .incomplete

/-- The decoder: total on any bytes (R75). -/
def decode : List Byte → Decoded
  | [] => .incomplete
  | opc :: bs =>
    if opc = Opcode.shaReset then .frame .shaReset bs
    else if opc = Opcode.shaUpdate then decodeData .shaUpdate bs
    else if opc = Opcode.shaDigest then .frame .shaDigest bs
    else if opc = Opcode.macInit then decodeData .macInit bs
    else if opc = Opcode.macUpdate then decodeData .macUpdate bs
    else if opc = Opcode.macFinal then decodeData .macFinal bs
    else if opc = Opcode.otpTrunc then .frame .otpTrunc bs
    else if opc = Opcode.tcBcd then decodeClock .tcBcd bs
    else if opc = Opcode.tcMono then .frame .tcMono bs
    else if opc = Opcode.ctlPoll then decodePins .ctlPoll bs
    else if opc = Opcode.hostProvision then decodeData .hostProvision bs
    else if opc = Opcode.hostSetTime then decodeClock .hostSetTime bs
    else if opc = Opcode.hostSetCounter then decodeWord .hostSetCounter bs
    else .illegalOpcode opc bs

/-! ## Encoder -/

/-- The opcode byte of an instruction (R72). -/
def Instr.opcode : Instr → Byte
  | .shaReset => Opcode.shaReset
  | .shaUpdate _ => Opcode.shaUpdate
  | .shaDigest => Opcode.shaDigest
  | .macInit _ => Opcode.macInit
  | .macUpdate _ => Opcode.macUpdate
  | .macFinal _ => Opcode.macFinal
  | .otpTrunc => Opcode.otpTrunc
  | .tcBcd _ => Opcode.tcBcd
  | .tcMono => Opcode.tcMono
  | .ctlPoll _ => Opcode.ctlPoll
  | .hostProvision _ => Opcode.hostProvision
  | .hostSetTime _ => Opcode.hostSetTime
  | .hostSetCounter _ => Opcode.hostSetCounter

/-- `[LEN][DATA[0]] ... [DATA[LEN-1]]` (R67). -/
def encodeData (data : List Byte) : List Byte := BitVec.ofNat 8 data.length :: data

/-- `[B[0]] ... [B[6]]` (R68). -/
def encodeClock (b : ClockBytes) : List Byte := [b.seconds, b.minutes, b.hours, b.weekday, b.day, b.month, b.year]

/-- The bytes after the opcode. -/
def Instr.operandBytes : Instr → List Byte
  | .shaReset => []
  | .shaUpdate data => encodeData data
  | .shaDigest => []
  | .macInit key => encodeData key
  | .macUpdate data => encodeData data
  | .macFinal key => encodeData key
  | .otpTrunc => []
  | .tcBcd b => encodeClock b
  | .tcMono => []
  | .ctlPoll inByte => [inByte]
  | .hostProvision secret => encodeData secret
  | .hostSetTime b => encodeClock b
  | .hostSetCounter cval => Machine.be32 cval

/-- The encoder: the bytes of a well-formed instruction, the first to be sent first. -/
def encode (i : Instr) : List Byte := i.opcode :: i.operandBytes

/-- The bytes of a frame of the stream. -/
def encodeFrame : StreamFrame → List Byte
  | .instr i => encode i
  | .illegal opc => [opc]

/-! ## Splitting a byte sequence into frames (R75) -/

/-- A frame of the stream that has an encoding: a well-formed instruction, or an opcode byte outside the map. -/
def StreamFrame.wellFormed : StreamFrame → Bool
  | .instr i => i.wellFormed
  | .illegal opc => formatOf opc == none

/-- The frames of the first `fuel` frames' worth of bytes, and what is left. -/
def splitFuel : Nat → List Byte → List StreamFrame × List Byte
  | 0, bs => ([], bs)
  | fuel + 1, bs =>
    match decode bs with
    | .incomplete => ([], bs)
    | .frame i rest => (.instr i :: (splitFuel fuel rest).1, (splitFuel fuel rest).2)
    | .illegalOpcode opc rest => (.illegal opc :: (splitFuel fuel rest).1, (splitFuel fuel rest).2)

/-- "every byte sequence splits uniquely into frames, the last of which may be incomplete" (R75): the complete frames,
and the bytes of the incomplete one. A frame has at least one byte, so the length is fuel enough. -/
def splitFrames (bs : List Byte) : List StreamFrame × List Byte := splitFuel bs.length bs

/-! ## Opcode-table words -/

/-- The bytes of a table word, byte 0 its bits 7:0, followed by the zero bytes of the longest frame (257 bytes). -/
def tableBytes (nbits w : Nat) : List Byte :=
  (List.range ((nbits + 7) / 8)).map (fun k => BitVec.ofNat 8 (w >>> (8 * k))) ++ List.replicate 257 0

/-- The instruction the decoder reads from a word numbered as spec/opcode_table.json numbers it. -/
def decodeTableWord (nbits w : Nat) : Option Instr :=
  match decode (tableBytes nbits w) with
  | .frame i _ => some i
  | .illegalOpcode _ _ => none
  | .incomplete => none

/-! ## Pseudo-instructions (R84) -/

/-- Consecutive chunks of 255 bytes, the last one shorter, none of an empty message. -/
def chunksFuel : Nat → List Byte → List (List Byte)
  | 0, _ => []
  | _ + 1, [] => []
  | fuel + 1, b :: bs => (b :: bs).take 255 :: chunksFuel fuel ((b :: bs).drop 255)

/-- The 255-byte chunks of a message; every chunk has a byte, so the length is fuel enough. -/
def chunks255 (m : List Byte) : List (List Byte) := chunksFuel m.length m

/-- The frames a pseudo-instruction stands for (R84). -/
def Pseudo.expand : Pseudo → List Instr
  | .sha1 m => .shaReset :: ((chunks255 m).map .shaUpdate ++ [.shaDigest])
  | .hmac k m => .macInit k :: ((chunks255 m).map .macUpdate ++ [.macFinal k])
  | .hotp k c =>
    .macInit k :: ((chunks255 ([0, 0, 0, 0] ++ Machine.be32 c)).map .macUpdate ++ [.macFinal k, .otpTrunc])
  | .tick n => List.replicate n (.ctlPoll 0x07)
  | .press => [.ctlPoll 0x06]
  | .hold n => List.replicate n (.ctlPoll 0x06)

/-! ## Textual form (R83) -/

/-- A hexadecimal digit. -/
def hexDigit (n : Nat) : Char := "0123456789abcdef".toList.getD n '0'

/-- Two hexadecimal digits. -/
def hexByte (b : Byte) : List Char := [hexDigit (b.toNat / 16), hexDigit (b.toNat % 16)]

/-- A byte string in the form `x'hex digits'` (R83). -/
def hexString (bs : List Byte) : String := "x'" ++ String.ofList (bs.flatMap hexByte) ++ "'"

/-- One frame of assembler text (R83). Of R83's three ways to write a byte string the model writes `x'hex digits'`, of its
two ways to write `IN` the number (DESIGN CHOICE, safe, log 20). -/
def Instr.text : Instr → String
  | .shaReset => "sha.reset"
  | .shaUpdate data => "sha.update " ++ hexString data
  | .shaDigest => "sha.digest"
  | .macInit key => "mac.init " ++ hexString key
  | .macUpdate data => "mac.update " ++ hexString data
  | .macFinal key => "mac.final " ++ hexString key
  | .otpTrunc => "otp.trunc"
  | .tcBcd b => "tc.bcd " ++ hexString (encodeClock b)
  | .tcMono => "tc.mono"
  | .ctlPoll inByte => "ctl.poll 0x" ++ String.ofList (hexByte inByte)
  | .hostProvision secret => "host.provision " ++ hexString secret
  | .hostSetTime b => "host.settime " ++ hexString (encodeClock b)
  | .hostSetCounter cval => "host.setctr " ++ toString cval.toNat

end Sys2Proof
end

