-- ==== Sys2Proof/Config.lean ====
section
/-! DEFINITION. The configuration parameters of 00_scope.md R8, and the values the spec leaves open, each an opaque
constant with no body. Which configurations are legal: Sys2Proof/Machine/Layout.lean. -/

namespace Sys2Proof

/-- `TIME_SRC` (R8): "Two interchangeable strategies, selected by device configuration". -/
inductive TimeSrc where
  /-- `EXT`, the external clock -/
  | ext
  /-- `MONO`, the persisted monotonic counter -/
  | mono
deriving DecidableEq, Repr

/-- The configuration parameters of R8, but for `NV_INIT`, which is the first content of the store
(`Sys2Proof.Machine.State.initial`). They never change while the CORE runs. -/
structure Config where
  /-- `TIME_SRC` -/
  timeSrc : TimeSrc
  /-- `TRUNC_MASK` -/
  truncMask : Bool
  /-- `HOLD_ARM`, 1 to 255 in a legal configuration -/
  holdArm : Byte
  /-- `HAS_SET_TIME` -/
  hasSetTime : Bool
  /-- `NV_SIZE` -/
  nvSize : Nat
  /-- `NV_LEN_OFS` -/
  nvLenOfs : Nat
  /-- `NV_SECRET_OFS` -/
  nvSecretOfs : Nat
  /-- `NV_TIME_OFS` -/
  nvTimeOfs : Nat
  /-- `NV_PW_OFS` -/
  nvPwOfs : Nat
deriving DecidableEq, Repr

namespace Config

/-- The configuration of `State.reset`. `TRUNC_MASK`, `HOLD_ARM`, `HAS_SET_TIME` and the offsets are R8's defaults;
`TIME_SRC` and `NV_SIZE` have no default in R8 (DESIGN CHOICE, unsafe, log 2: the values of 95_test_vectors.md). -/
def standard : Config where
  timeSrc := .ext
  truncMask := true
  holdArm := 255
  hasSetTime := false
  nvSize := 128
  nvLenOfs := 0
  nvSecretOfs := 1
  nvTimeOfs := 65
  nvPwOfs := 73

/-- FREE VALUE (log 4): the counter `TC_BCD` writes when the month is not 1 to 12, "a value the model draws freely
from the 32-bit values" (43_timecounter.md R121). The argument is the state's draw counter. -/
opaque freeCounter : Nat → Word

/-- FREE VALUE (log 5): the clock's answer to `ClockRead()` where the state lists no answer of the environment,
"under no law except their width" (10_state.md R43). The argument is the state's draw counter. -/
opaque freeClock : Nat → ClockBytes

/-- FREE VALUE (log 12): what the store byte being written when power is lost holds afterwards
(70_reset_and_hazards.md R165). The argument is the state's draw counter. -/
opaque freeStoreByte : Nat → Byte

/-- FREE VALUE (log 6): `USAGE(ch)` of a byte that is no digit, for which 30_encoding.md R82 states no value. -/
opaque freeUsage : Byte → Byte

end Config
end Sys2Proof
end

