-- ==== Sys2Proof/Machine/State.lean ====
section
/-! DEFINITION. The state of the CORE and of its environment as plain data (10_state.md), the reasons a step of the MODEL
can stop, and the state after reset (R46). INVENTORY.md lists every field with its rule. -/

namespace Sys2Proof.Machine

/-- Why the model stops with a fault. These are NOT the faults of 60_exceptions.md R147: those are next states, with the
register `FAULT` written (R149). Both are raised only in states no run under a legal configuration reaches. -/
inductive Fault where
  /-- A store access beyond `NV_SIZE - 1`, an address that does not exist (20_memory.md R47). Raised by the store accesses
  of TC_MONO, CTL_POLL, HOST_PROVISION and HOST_SET_COUNTER; no legal configuration makes one (R50). Safe (log 8). -/
  | storeOutOfRange
  /-- A key-down of `PW[IDX]` with `IDX` above 5: `PW` has no such element. Raised by CTL_POLL in `Sending`, where `IDX` is
  0 to 5 (44_controller.md R136). Safe (log 7). -/
  | digitIndexOutOfRange
deriving DecidableEq, Repr

/-- Why the model has no step. -/
inductive Refusal where
  /-- No meaning for the instruction yet: raised by the refused arms of `exec`, of which there are none. Safe. -/
  | notModelled (mnemonic : String)
  /-- The stream does not hold a frame in full: "A frame the stream has not yet delivered in full has no step"
  (30_encoding.md R76). Raised by `step`. Safe (log 10). -/
  | incompleteFrame
  /-- "A configuration outside the legal values is refused by the model (it describes no instance)" (00_scope.md R8).
  Raised by `step`. Safe (log 8). -/
  | illegalConfiguration
deriving DecidableEq, Repr

/-- `HPHASE`, the HashState lifecycle (R23); the encoding is `HPhase.bits` of Flags.lean. -/
inductive HPhase where
  | uninit
  | active
  | final
deriving DecidableEq, Repr

/-- `MPHASE`, the MacState lifecycle (R24). -/
inductive MPhase where
  | idle
  | inner
  | done
deriving DecidableEq, Repr

/-- `CSTATE`, the ControllerState (R31). -/
inductive CState where
  | idle
  | waiting
  | sending
  | releasing
  | settingTime
deriving DecidableEq, Repr

/-- `HOST_RESULT` (R35). -/
inductive HostResult where
  | none
  | accepted
  | rejected
deriving DecidableEq, Repr

/-- The faults of the CORE (60_exceptions.md R147); the numbers are `FaultCode.byte` of Flags.lean. -/
inductive FaultCode where
  | hashNotActive
  | lenOverflow
  | keyTooLong
  | macNotActive
  | digestNotValid
  | illegalOpcode
  | reservedBits
  | counterExhausted
  | engineBusy
deriving DecidableEq, Repr

/-- Where power is lost over the next step (70_reset_and_hazards.md R165), an input of the environment. -/
inductive PowerLoss where
  /-- before the next frame starts -/
  | between
  /-- inside the next frame, after `done` of its effects on the environment (single-byte store writes, a report, a clock
  write) have completed, and, if `torn`, during the single-byte store write that follows them -/
  | within (done : Nat) (torn : Bool)
deriving DecidableEq, Repr

/-- A digest or MAC, 20 bytes (R7). -/
abbrev Digest := Vector Byte 20

/-- An 8-byte keystroke report (30_encoding.md R81). -/
abbrev Report := Vector Byte 8

/-- The content of the persistent store: (address, byte) pairs, addresses strictly rising, no pair equal to what an
unlisted address reads as (Sys2Proof/Machine/Memory.lean). -/
abbrev Memory := List Host.Cell

/-- The HashEngine (R19 to R23), the source's "HashState". -/
structure HashEngine where
  /-- `H[0..4]` (R19) -/
  h : Vector Word 5
  /-- `BLK[0..63]` (R20) -/
  blk : Vector Byte 64
  /-- `OFS` (R21) -/
  ofs : BitVec 6
  /-- `BITS` (R22) -/
  bits : BitVec 16
  /-- `HPHASE` (R23) -/
  phase : HPhase
deriving DecidableEq, Repr

structure State where
  /-- the configuration straps that `CONFIG` shows (R38), and the store layout of 00_scope.md R8 -/
  cfg : Config
  /-- `H`, `BLK`, `OFS`, `BITS`, `HPHASE` (R19 to R23) -/
  hash : HashEngine
  /-- `MPHASE` (R24) -/
  mphase : MPhase
  /-- `DOUT[0..19]` (R26) -/
  dout : Digest
  /-- `DOUT_VALID` (R26) -/
  doutValid : Bool
  /-- `TRUNC_P` (R27) -/
  truncP : Word
  /-- `CODE` (R28) -/
  code : Word
  /-- `PW[0..5]` (R29) -/
  pw : Vector Byte 6
  /-- `PW_VALID` (R29) -/
  pwValid : Bool
  /-- `TBUF[0..7]` (R30) -/
  tbuf : Vector Byte 8
  /-- `TCOUNT` (R30) -/
  tcount : Word
  /-- `TBUF_VALID` (R30) -/
  tbufValid : Bool
  /-- `CSTATE` (R31) -/
  cstate : CState
  /-- `IDX` (R32) -/
  idx : BitVec 3
  /-- `HOLD` (R33) -/
  hold : BitVec 8
  /-- `TSET[0..6]` (R34) -/
  tset : ClockBytes
  /-- `TSET_PEND` (R34) -/
  tsetPend : Bool
  /-- `HOST_RESULT` (R35) -/
  hostResult : HostResult
  /-- `FAULT`: `FCODE` in bits 7:0, `FOPC` in bits 15:8 (R36) -/
  fault : BitVec 16
  /-- `NV[0..NV_SIZE)` (R42) -/
  nv : Memory
  /-- environment: the bytes of the command stream not yet executed (00_scope.md R4, R9) -/
  stream : List Byte
  /-- environment: the answers `ClockRead()` will give (R43) -/
  clockAnswers : List ClockBytes
  /-- environment: the `writeTime` calls made, oldest first (00_scope.md R10) -/
  clockWrites : List ClockBytes
  /-- environment: the reports sent to the keystroke sink, oldest first (R45) -/
  reports : List Report
  /-- environment: where power is lost over the next step, if it is (70_reset_and_hazards.md R165) -/
  power : Option PowerLoss
  /-- the MODEL's own: how many free values have been drawn (log 4) -/
  draws : Nat
  /-- the MODEL's own: the single-byte store writes of the frame in progress, oldest first (20_memory.md R57, log 13) -/
  storeLog : List Host.Cell
deriving DecidableEq, Repr

/-- The state after the first power-on of a device with configuration `cfg` and store image `image` (`NV_INIT`): R46's
table. The registers R46 gives "no value" (`H`, `BLK`, `OFS`, `BITS`, `DOUT`, `TRUNC_P`, `CODE`, `PW`, `TBUF`, `TCOUNT`,
`TSET`) hold 0 (DESIGN CHOICE, unsafe, log 1). -/
def State.initial (cfg : Config) (image : Memory) : State where
  cfg := cfg
  hash :=
    { h := Vector.replicate 5 0, blk := Vector.replicate 64 0, ofs := 0, bits := 0, phase := .uninit }
  mphase := .idle
  dout := Vector.replicate 20 0
  doutValid := false
  truncP := 0
  code := 0
  pw := Vector.replicate 6 0
  pwValid := false
  tbuf := Vector.replicate 8 0
  tcount := 0
  tbufValid := false
  cstate := .idle
  idx := 0
  hold := 0
  tset := ⟨0, 0, 0, 0, 0, 0, 0⟩
  tsetPend := false
  hostResult := .none
  fault := 0
  nv := image
  stream := []
  clockAnswers := []
  clockWrites := []
  reports := []
  power := Option.none
  draws := 0
  storeLog := []

/-- The machine right after reset (R46, 70_reset_and_hazards.md R162), in the configuration `Config.standard` (log 2), with
a store in which nothing is listed (log 3). -/
def State.reset : State := State.initial Config.standard []

end Sys2Proof.Machine
end

