-- ==== Sys2Proof/Machine/Compress.lean ====
section
/-! DEFINITION. The SHA-1 constants and the block compression (40_sha1.md R85 to R90). -/

namespace Sys2Proof.Machine

/-- The SHA-1 initial value (R85). -/
def shaIV : Vector Word 5 := #v[0x67452301, 0xEFCDAB89, 0x98BADCFE, 0x10325476, 0xC3D2E1F0]

/-- `K_t` (R86). -/
def roundConstant (t : Nat) : Word :=
  if t < 20 then 0x5A827999 else if t < 40 then 0x6ED9EBA1 else if t < 60 then 0x8F1BBCDC else 0xCA62C1D6

/-- `Ch` (R87). -/
def ch (b c d : Word) : Word := (b &&& c) ||| (~~~b &&& d)

/-- `Parity` (R87). -/
def parity (b c d : Word) : Word := b ^^^ c ^^^ d

/-- `Maj` (R87). -/
def maj (b c d : Word) : Word := (b &&& c) ||| (b &&& d) ||| (c &&& d)

/-- `f_t` (R87). -/
def roundFunction (t : Nat) (b c d : Word) : Word :=
  if t < 20 then ch b c d else if t < 40 then parity b c d else if t < 60 then maj b c d else parity b c d

/-- `W[t] = ReadBE32(BLK[4t..4t+4))` for `t` below 16 (R88). -/
def loadWord (blk : Vector Byte 64) (t : Fin 16) : Word :=
  readBE32 blk[4 * t.val] blk[4 * t.val + 1] blk[4 * t.val + 2] blk[4 * t.val + 3]

/-- The next schedule word from the words so far, the newest first: `rotl_1(W[t-3] ^ W[t-8] ^ W[t-14] ^ W[t-16])` (R88). -/
def nextWord (w : List Word) : Word := rotl 1 (w.getD 2 0 ^^^ w.getD 7 0 ^^^ w.getD 13 0 ^^^ w.getD 15 0)

/-- `n` more schedule words, the newest first. -/
def extendSchedule : Nat → List Word → List Word
  | 0, w => w
  | n + 1, w => extendSchedule n (nextWord w :: w)

/-- The message schedule `W[0..80)` (R88). -/
def schedule (blk : Vector Byte 64) : List Word := (extendSchedule 64 (List.ofFn (loadWord blk)).reverse).reverse

/-- The five working variables of the rounds (R89). -/
structure Working where
  a : Word
  b : Word
  c : Word
  d : Word
  e : Word
deriving DecidableEq, Repr

/-- One round (R89). -/
def shaRound (t : Nat) (w : Word) (x : Working) : Working where
  a := rotl 5 x.a + roundFunction t x.b x.c x.d + x.e + roundConstant t + w
  b := x.a
  c := rotl 30 x.b
  d := x.c
  e := x.d

/-- The rounds from round `t` on, one per schedule word. -/
def rounds : Nat → List Word → Working → Working
  | _, [], x => x
  | t, w :: ws, x => rounds (t + 1) ws (shaRound t w x)

/-- The five working variables are set to `H[0..4]` at the start (R89). -/
def startWorking (h : Vector Word 5) : Working := ⟨h[0], h[1], h[2], h[3], h[4]⟩

/-- The new `H` of one block compression (R90). -/
def compressWords (h : Vector Word 5) (blk : Vector Byte 64) : Vector Word 5 :=
  let x := rounds 0 (schedule blk) (startWorking h)
  #v[h[0] + x.a, h[1] + x.b, h[2] + x.c, h[3] + x.d, h[4] + x.e]

/-- The cleared block buffer (R20). -/
def zeroBlock : Vector Byte 64 := Vector.replicate 64 0

/-- `COMPRESS()` (R90): compress `BLK` into `H`, clear `BLK`, set `OFS` to 0. -/
def compress (e : HashEngine) : HashEngine :=
  { e with h := compressWords e.h e.blk, blk := zeroBlock, ofs := 0 }

end Sys2Proof.Machine
end

