-- ==== Sys2Proof/Machine/Flags.lean ====
section
/-! DEFINITION. The encodings of the phase and state fields (10_state.md R23, R24, R31, R35), the fault numbers
(60_exceptions.md R147), and the read-only registers `STATUS`, `CONFIG` and `FAULT` as views (R36 to R39). The CORE has no
condition codes and no arithmetic flags (R40). -/

namespace Sys2Proof.Machine

/-- `HPHASE`: 0 UNINIT, 1 ACTIVE, 2 FINAL (R23). -/
def HPhase.bits : HPhase → BitVec 2
  | .uninit => 0
  | .active => 1
  | .final => 2

/-- `MPHASE`: 0 IDLE, 1 INNER, 2 DONE (R24). -/
def MPhase.bits : MPhase → BitVec 2
  | .idle => 0
  | .inner => 1
  | .done => 2

/-- `CSTATE`: 0 Idle, 1 Waiting, 2 Sending, 3 Releasing, 4 SettingTime (R31). -/
def CState.bits : CState → BitVec 3
  | .idle => 0
  | .waiting => 1
  | .sending => 2
  | .releasing => 3
  | .settingTime => 4

/-- `HOST_RESULT`: 0 NONE, 1 ACCEPTED, 2 REJECTED (R35). -/
def HostResult.bits : HostResult → BitVec 2
  | .none => 0
  | .accepted => 1
  | .rejected => 2

/-- `FCODE` of a fault (R147). -/
def FaultCode.byte : FaultCode → Byte
  | .hashNotActive => 0x01
  | .lenOverflow => 0x02
  | .keyTooLong => 0x03
  | .macNotActive => 0x04
  | .digestNotValid => 0x05
  | .illegalOpcode => 0x06
  | .reservedBits => 0x07
  | .counterExhausted => 0x08
  | .engineBusy => 0x09

/-- `FCODE = FAULT[7:0]` (R36). -/
def State.fcode (s : State) : Byte := s.fault.extractLsb' 0 8

/-- `FOPC = FAULT[15:8]` (R36). -/
def State.fopc (s : State) : Byte := s.fault.extractLsb' 8 8

/-- `FAULTED`: "While `FCODE != 0` the CORE is halted" (60_exceptions.md R151). -/
def State.halted (s : State) : Bool := s.fcode != 0

/-- An emission cycle runs: `CSTATE` is `Sending` or `Releasing` (44_controller.md R128). -/
def State.emitting (s : State) : Bool :=
  match s.cstate with
  | .sending => true
  | .releasing => true
  | .idle => false
  | .waiting => false
  | .settingTime => false

/-- The register `STATUS` (R37), bits 31 down to 0. -/
def State.status (s : State) : BitVec 32 :=
  s.hold ++ (0 : BitVec 6) ++ s.hostResult.bits ++ BitVec.ofBool s.tsetPend ++ s.idx ++ (0 : BitVec 1) ++ s.cstate.bits ++
    BitVec.ofBool s.halted ++ BitVec.ofBool s.tbufValid ++ BitVec.ofBool s.pwValid ++ BitVec.ofBool s.doutValid ++
    s.mphase.bits ++ s.hash.phase.bits

/-- `TIME_SRC` as `CONFIG[0]` shows it: 0 `EXT`, 1 `MONO` (R38). -/
def timeSrcBit : TimeSrc → BitVec 1
  | .ext => 0
  | .mono => 1

/-- The register `CONFIG` (R38), bits 31 down to 0. -/
def State.configReg (s : State) : BitVec 32 :=
  (0 : BitVec 16) ++ s.cfg.holdArm ++ (0 : BitVec 5) ++ BitVec.ofBool s.cfg.hasSetTime ++ BitVec.ofBool s.cfg.truncMask ++
    timeSrcBit s.cfg.timeSrc

end Sys2Proof.Machine
end

