-- ==== Sys2Proof/Machine/Memory.lean ====
section
/-! DEFINITION. The persistent store as canonical plain data: reading and writing one byte (20_memory.md R47, R55). -/

namespace Sys2Proof.Machine

/-- What an unlisted address reads as. The content of an unprovisioned store is not in the source (`NV_INIT` is a parameter,
00_scope.md R8). DESIGN CHOICE, unsafe (log 3): 0xFF, the byte the test vectors of 95_test_vectors.md choose. A store of any
content is written by listing its bytes. -/
def Memory.unlisted : Byte := 0xFF

/-- The byte at an address. -/
def Memory.read (a : Nat) : Memory → Byte
  | [] => Memory.unlisted
  | (b, v) :: m => if a = b then v else Memory.read a m

/-- Put a listed byte in front, unless it is what an unlisted address reads as. -/
def Memory.cons (a : Nat) (v : Byte) (m : Memory) : Memory := if v = Memory.unlisted then m else (a, v) :: m

/-- Write the byte at an address, keeping the canonical form. -/
def Memory.write (a : Nat) (v : Byte) : Memory → Memory
  | [] => Memory.cons a v []
  | (b, w) :: m =>
    if a < b then Memory.cons a v ((b, w) :: m)
    else if a = b then Memory.cons a v m
    else (b, w) :: Memory.write a v m

/-- Every listed address is above `a`. -/
def Memory.above (a : Nat) (m : Memory) : Bool := m.all (fun c => decide (a < c.1))

/-- The canonical form: addresses strictly rising, no listed byte equal to what an unlisted address reads as. -/
def Memory.wf : Memory → Bool
  | [] => true
  | (a, v) :: m => v != Memory.unlisted && Memory.above a m && Memory.wf m

/-- Every listed address is an address of a store of `size` bytes (20_memory.md R47). -/
def Memory.inside (size : Nat) (m : Memory) : Bool := m.all (fun c => decide (c.1 < size))

/-- Single-byte writes in list order. -/
def Memory.writeAll (cells : List Host.Cell) (m : Memory) : Memory :=
  cells.foldl (fun m c => Memory.write c.1 c.2 m) m

/-- The single-byte writes of `NVWrite(a, n, v)`: `NV[a] <- v[0]`, then `NV[a+1] <- v[1]`, "and so on, in increasing address
order" (20_memory.md R57). -/
def cellsAt (a : Nat) : List Byte → List Host.Cell
  | [] => []
  | v :: vs => (a, v) :: cellsAt (a + 1) vs

end Sys2Proof.Machine
end

