-- ==== Sys2Proof/Machine/Operands.lean ====
section
/-! DEFINITION. Operand forms and data encodings: the pins of a poll (30_encoding.md R70), packed BCD and the calendar
(43_timecounter.md R116 to R120), the key block (41_hmac.md R102), decimal rendering (42_otp.md R112), the time buffer (R79),
the digest bytes (R77) and the keystroke reports (R81, R82). -/

namespace Sys2Proof.Machine

/-! ## The `IN` byte of CTL_POLL -/

/-- The sampled pins of one poll, as CTL_POLL reads them (44_controller.md R129). -/
structure Pins where
  /-- `BTN_N = 0`, "active-low, pulled up" -/
  pressed : Bool
  /-- `SLOT_READY = 1` -/
  slot : Bool
  /-- `LINK_UP = 1` -/
  link : Bool
deriving DecidableEq, Repr

/-- `IN[7:3]` is not 0 (R74). -/
def reservedBitsSet (inByte : Byte) : Bool := inByte.extractLsb' 3 5 != 0

/-- `IN[0]`, `IN[1]`, `IN[2]` (R70). -/
def pinsOf (inByte : Byte) : Pins :=
  { pressed := !inByte.getLsbD 0, slot := inByte.getLsbD 1, link := inByte.getLsbD 2 }

/-! ## Packed BCD and the calendar -/

/-- `BCD(b) = 10 * b[7:4] + b[3:0]`, "computed for every byte as it stands" (R116). -/
def bcd (b : Byte) : Nat := 10 * (b.extractLsb' 4 4).toNat + (b.extractLsb' 0 4).toNat

/-- `CUM[M]` (R117); no entry outside 1 to 12 (R121). -/
def cumDays : Nat → Option Nat
  | 1 => some 0
  | 2 => some 31
  | 3 => some 59
  | 4 => some 90
  | 5 => some 120
  | 6 => some 151
  | 7 => some 181
  | 8 => some 212
  | 9 => some 243
  | 10 => some 273
  | 11 => some 304
  | 12 => some 334
  | _ => none

/-- `LEAP` of R118. -/
def leapDay (year month : Nat) : Nat := if year % 4 = 0 ∧ 2 < month then 1 else 0

/-- `days` of R118, from the fields and the table entry of the month. The subtraction comes last, so it is exact. -/
def dayCount (year month day cum : Nat) : Nat :=
  10957 + 365 * year + (year + 3) / 4 + cum + leapDay year month + day - 1

/-- `S` of R119. -/
def secondsCount (days hours minutes seconds : Nat) : Nat := ((days * 24 + hours) * 60 + minutes) * 60 + seconds

/-- The counter of R120, `(S div 30) mod 2^32`; `none` when the month is not 1 to 12 (R121). -/
def bcdCounter (b : ClockBytes) : Option Word :=
  match cumDays (bcd b.month) with
  | some cum =>
    some (BitVec.ofNat 32
      (secondsCount (dayCount (bcd b.year) (bcd b.month) (bcd b.day) cum) (bcd b.hours) (bcd b.minutes) (bcd b.seconds) / 30))
  | none => none

/-- The time buffer `0x00 0x00 0x00 0x00 ‖ BE32(counter)` (R79). -/
def timeBuffer (c : Word) : Vector Byte 8 :=
  #v[0, 0, 0, 0, c.extractLsb' 24 8, c.extractLsb' 16 8, c.extractLsb' 8 8, c.extractLsb' 0 8]

/-! ## The HMAC key block -/

/-- The inner pad of 41_hmac.md R102. -/
def ipad : Byte := 0x36

/-- The outer pad of R102. -/
def opad : Byte := 0x5C

/-- `KEYBLOCK(K, k, pad)` (R102): the key xor the pad, then the pad, 64 bytes in all for a key of at most 64. -/
def keyBlock (key : List Byte) (pad : Byte) : List Byte :=
  key.map (fun b => b ^^^ pad) ++ List.replicate (64 - key.length) pad

/-! ## Digest, truncation and password -/

/-- The 20-byte digest `BE32(H[0]) ‖ ... ‖ BE32(H[4])`: byte `4*i + j` is `H[i][31 - 8*j : 24 - 8*j]` (30_encoding.md R77). -/
def digestBytes (h : Vector Word 5) : Digest :=
  Vector.ofFn fun k : Fin 20 => (h[k.val / 4]'(by omega)).extractLsb' (24 - 8 * (k.val % 4)) 8

/-- `off = DOUT[19] & 0x0F` (42_otp.md R111). -/
def truncOffset (d : Digest) : Nat := (d[19].extractLsb' 0 4).toNat

/-- The offset is 0 to 15. -/
theorem truncOffset_lt (d : Digest) : truncOffset d < 16 := (d[19].extractLsb' 0 4).isLt

/-- `p` of R111: the window of four bytes at `off`, big-endian, bit 7 of its first byte cleared if `TRUNC_MASK = 1` (R113). -/
def truncWindow (mask : Bool) (d : Digest) : Word :=
  have h := truncOffset_lt d
  let b0 := d[truncOffset d]
  readBE32 (if mask then b0 &&& 0x7F else b0) d[truncOffset d + 1] d[truncOffset d + 2] d[truncOffset d + 3]

/-- `ASCII('0') + d` (30_encoding.md R80). -/
def asciiDigit (d : Nat) : Byte := BitVec.ofNat 8 (0x30 + d)

/-- The 6 characters of `code`: repeated division by 10 filling `PW[5]` first and `PW[0]` last (R112). -/
def renderPassword (code : Nat) : Vector Byte 6 :=
  let q5 := code
  let q4 := q5 / 10
  let q3 := q4 / 10
  let q2 := q3 / 10
  let q1 := q2 / 10
  let q0 := q1 / 10
  #v[asciiDigit (q0 % 10), asciiDigit (q1 % 10), asciiDigit (q2 % 10), asciiDigit (q3 % 10), asciiDigit (q4 % 10),
     asciiDigit (q5 % 10)]

/-! ## Keystroke reports -/

/-- `USAGE(ch)` (R82): `'1'` to `'9'` are `ch - 0x13`, `'0'` is `0x27`; for a byte that is no digit R82 states no value
(free value, log 6). -/
def usage (ch : Byte) : Byte :=
  if 0x31 ≤ ch ∧ ch ≤ 0x39 then ch - 0x13 else if ch = 0x30 then 0x27 else Config.freeUsage ch

/-- The key-down report of a digit character (R81). -/
def keyDown (ch : Byte) : Report := #v[0, 0, usage ch, 0, 0, 0, 0, 0]

/-- The all-zero key-up report (R81). -/
def keyUp : Report := Vector.replicate 8 0

end Sys2Proof.Machine
end

