-- ==== Sys2Proof/Machine/Ops.lean ====
section
/-! DEFINITION. The named operations over registers and the store: fault entry and the common checks (60_exceptions.md R148
to R151) and, beside them, power-on reset, the only way out of a fault (R151, R162); the HashEngine primitives (40_sha1.md
R91 to R94, 41_hmac.md R101); `NVRead`, `NVWrite`, `ClockRead`, `ClockWrite`, `Emit` (00_scope.md R14). -/

namespace Sys2Proof.Machine

/-! ## Ending a frame -/

/-- How a frame's pseudocode ends when it does not end in a state. -/
inductive Stop where
  /-- `raise Fault(code)`: "records a fault and ends the frame with no other effect" (R14) -/
  | raise (code : FaultCode)
  /-- a stop of the model, for a state no run reaches -/
  | stop (f : Fault)
deriving DecidableEq, Repr

/-- TAKING A FAULT, the one shared operation: `FAULT[7:0] <- code`, `FAULT[15:8] <- OPC`, and "Nothing else is saved"
(R149). -/
def takeFault (code : FaultCode) (opc : Byte) (s : State) : State := { s with fault := opc ++ code.byte }

/-- THE WAY OUT OF A FAULT. "There is no return from a fault" (R152); power-on reset alone clears `FAULT` (R151). It sets
every register to the value of R46, keeps the configuration, and "changes nothing outside the CORE": the store, the reports,
the clock writes and what the environment has yet to deliver stay (R162). -/
def powerOnReset (s : State) : State :=
  { State.initial s.cfg s.nv with
    stream := s.stream
    clockAnswers := s.clockAnswers
    clockWrites := s.clockWrites
    reports := s.reports
    draws := s.draws }

/-- One frame: the common checks of R148 in their order, then the frame's own pseudocode. (0) a halted CORE does nothing;
(1) and (2), the illegal opcode and the reserved bits, stand where the opcode is decoded and in CTL_POLL; (3) an engine frame
during an emission cycle raises ENGINE_BUSY; (4) the pseudocode, whose `raise` leaves every register but `FAULT` as the frame
found it (R150). -/
def runFrame (opc : Byte) (engine : Bool) (body : State → Except Stop State) (s : State) :
    Host.Outcome State Fault Refusal :=
  if s.halted then .next s
  else if engine && s.emitting then .next (takeFault .engineBusy opc s)
  else
    match body s with
    | .ok t => .next t
    | .error (.raise code) => .next (takeFault code opc s)
    | .error (.stop f) => .fault f

/-! ## HashEngine primitives -/

/-- `HRESET()` (41_hmac.md R101): the HashEngine after its reset, whatever it held. -/
def hashReset : HashEngine := { h := shaIV, blk := zeroBlock, ofs := 0, bits := 0, phase := .active }

/-- One byte of ABSORB's loop: `BLK[OFS] <- D[i]`; compress when the block is full, else advance `OFS` (40_sha1.md R93). -/
def absorbByte (e : HashEngine) (b : Byte) : HashEngine :=
  let e' := { e with blk := e.blk.set e.ofs.toNat b e.ofs.isLt }
  if e.ofs = 63 then compress e' else { e' with ofs := e.ofs + 1 }

/-- ABSORB's loop over `D[0..n)`. -/
def absorbBytes (data : List Byte) (e : HashEngine) : HashEngine := data.foldl absorbByte e

/-- `ABSORB(D, n)` (R93): both checks before any write (R91, R92), then the loop, then the bit count. -/
def absorb (data : List Byte) (e : HashEngine) : Except Stop HashEngine :=
  if e.phase ≠ .active then .error (.raise .hashNotActive)
  else if 0xFFFF < e.bits.toNat + 8 * data.length then .error (.raise .lenOverflow)
  else .ok { absorbBytes data e with bits := BitVec.ofNat 16 (e.bits.toNat + 8 * data.length) }

/-- `for i in [lo, hi): BLK[i] <- 0x00`. -/
def zeroFill (lo hi : Nat) (blk : Vector Byte 64) : Vector Byte 64 :=
  Vector.ofFn fun i : Fin 64 => if lo ≤ i.val ∧ i.val < hi then 0 else blk[i]

/-- FINALIZE's first part (40_sha1.md R94): `0x80` at `BLK[OFS]`, zeros after it, and the extra compression when the `0x80` and
the length field do not both fit. -/
def padBlock (e : HashEngine) : HashEngine :=
  let blk := e.blk.set e.ofs.toNat 0x80 e.ofs.isLt
  if 56 ≤ e.ofs.toNat then compress { e with blk := zeroFill (e.ofs.toNat + 1) 64 blk }
  else { e with blk := zeroFill (e.ofs.toNat + 1) 56 blk }

/-- FINALIZE's length field (R94): six zero bytes, then the 16-bit `L`, big-endian. -/
def lengthField (len : BitVec 16) (e : HashEngine) : HashEngine :=
  { e with blk := ((zeroFill 56 62 e.blk).set 62 (len.extractLsb' 8 8)).set 63 (len.extractLsb' 0 8) }

/-- The HashEngine after FINALIZE (R94): padded, compressed, consumed. -/
def finish (e : HashEngine) : HashEngine := { compress (lengthField e.bits (padBlock e)) with phase := .final }

/-- `FINALIZE()` (R94): the digest it returns, and the HashEngine after it. -/
def finalize (e : HashEngine) : Except Stop (Digest × HashEngine) :=
  if e.phase ≠ .active then .error (.raise .hashNotActive) else .ok (digestBytes (finish e).h, finish e)

/-! ## The persistent store -/

/-- `NVRead(a, n)`: the bytes `a` to `a+n-1` in increasing address order (20_memory.md R56). -/
def nvRead (a n : Nat) (s : State) : Except Stop (List Byte) :=
  if a + n ≤ s.cfg.nvSize then .ok ((List.range n).map fun i => Memory.read (a + i) s.nv)
  else .error (.stop .storeOutOfRange)

/-- Single-byte writes, each after the other (R57); the frame's log of them grows in the same order. -/
def storeCells (cells : List Host.Cell) (s : State) : State :=
  { s with nv := Memory.writeAll cells s.nv, storeLog := s.storeLog ++ cells }

/-- `NVWrite(a, n, v)` (R57). -/
def nvWrite (a : Nat) (v : List Byte) (s : State) : Except Stop State :=
  if a + v.length ≤ s.cfg.nvSize then .ok (storeCells (cellsAt a v) s) else .error (.stop .storeOutOfRange)

/-- `ReadBE32(NVRead(a, 4))`. -/
def nvReadWord (a : Nat) (s : State) : Except Stop Word := do
  let bs ← nvRead a 4 s
  pure (readBE32 (bs.getD 0 0) (bs.getD 1 0) (bs.getD 2 0) (bs.getD 3 0))

/-! ## Clock and sink -/

/-- `ClockRead()` (R14, 10_state.md R43): the environment's next answer where the state lists one, else a free value (log 5). -/
def clockRead (s : State) : ClockBytes × State :=
  match s.clockAnswers with
  | b :: bs => (b, { s with clockAnswers := bs })
  | [] => (Config.freeClock s.draws, { s with draws := s.draws + 1 })

/-- `ClockWrite(b)`: the call is recorded, nothing is returned (R43). -/
def clockWrite (b : ClockBytes) (s : State) : State := { s with clockWrites := s.clockWrites ++ [b] }

/-- `Emit(r)`: "appends the 8-byte report `r` to the sink's report sequence" (10_state.md R45). -/
def emit (r : Report) (s : State) : State := { s with reports := s.reports ++ [r] }

end Sys2Proof.Machine
end

