-- ==== Sys2Proof/Machine/Sha.lean ====
section
/-! DEFINITION. The HashEngine frames SHA_RESET, SHA_UPDATE, SHA_DIGEST (40_sha1.md R95, R96, R97). -/

namespace Sys2Proof.Machine

/-- SHA_RESET's pseudocode (R95). -/
def shaResetBody (s : State) : State := { s with hash := hashReset, mphase := .idle }

/-- SHA_RESET (R95). -/
def execShaReset (s : State) : Host.Outcome State Fault Refusal :=
  runFrame Opcode.shaReset true (fun s => .ok (shaResetBody s)) s

/-- ABSORB on the CORE's HashEngine (R93). -/
def absorbState (data : List Byte) (s : State) : Except Stop State := do
  let e ← absorb data s.hash
  pure { s with hash := e }

/-- SHA_UPDATE (R96): during a MAC its bytes become MAC message bytes (41_hmac.md R108). -/
def execShaUpdate (data : List Byte) (s : State) : Host.Outcome State Fault Refusal :=
  runFrame Opcode.shaUpdate true (absorbState data) s

/-- SHA_DIGEST's pseudocode (R97). -/
def shaDigestBody (s : State) : Except Stop State := do
  let d ← finalize s.hash
  pure { s with hash := d.2, dout := d.1, doutValid := true, mphase := .idle }

/-- SHA_DIGEST (R97). -/
def execShaDigest (s : State) : Host.Outcome State Fault Refusal :=
  runFrame Opcode.shaDigest true shaDigestBody s

end Sys2Proof.Machine
end

