-- ==== Sys2Proof/Machine/Mac.lean ====
section
/-! DEFINITION. The MacEngine frames MAC_INIT, MAC_UPDATE, MAC_FINAL (41_hmac.md R103, R104, R105). -/

namespace Sys2Proof.Machine

/-- MAC_INIT's pseudocode (R103). -/
def macInitBody (key : List Byte) (s : State) : Except Stop State :=
  if 64 < key.length then .error (.raise .keyTooLong)
  else do
    let e ← absorb (keyBlock key ipad) hashReset
    pure { s with hash := e, mphase := .inner }

/-- MAC_INIT (R103). -/
def execMacInit (key : List Byte) (s : State) : Host.Outcome State Fault Refusal :=
  runFrame Opcode.macInit true (macInitBody key) s

/-- MAC_UPDATE's pseudocode (R104). -/
def macUpdateBody (data : List Byte) (s : State) : Except Stop State :=
  if s.mphase ≠ .inner then .error (.raise .macNotActive) else absorbState data s

/-- MAC_UPDATE (R104). -/
def execMacUpdate (data : List Byte) (s : State) : Host.Outcome State Fault Refusal :=
  runFrame Opcode.macUpdate true (macUpdateBody data) s

/-- MAC_FINAL's pseudocode (R105): the inner digest, the reset, the outer key block, the inner digest as message, the MAC. -/
def macFinalBody (key : List Byte) (s : State) : Except Stop State :=
  if 64 < key.length then .error (.raise .keyTooLong)
  else if s.mphase ≠ .inner then .error (.raise .macNotActive)
  else do
    let inner ← finalize s.hash
    let e ← absorb (keyBlock key opad) hashReset
    let e ← absorb inner.1.toList e
    let m ← finalize e
    pure { s with hash := m.2, dout := m.1, doutValid := true, mphase := .done }

/-- MAC_FINAL (R105). -/
def execMacFinal (key : List Byte) (s : State) : Host.Outcome State Fault Refusal :=
  runFrame Opcode.macFinal true (macFinalBody key) s

end Sys2Proof.Machine
end

