-- ==== Sys2Proof/Machine/Otp.lean ====
section
/-! DEFINITION. The OtpCodec frame OTP_TRUNC (42_otp.md R111). -/

namespace Sys2Proof.Machine

/-- OTP_TRUNC's pseudocode (R111): `p`, `code = p mod 1000000`, and the 6 digits; `DOUT` is not changed (R113). -/
def otpTruncBody (s : State) : Except Stop State :=
  if s.doutValid = false then .error (.raise .digestNotValid)
  else
    let p := truncWindow s.cfg.truncMask s.dout
    let code := p.toNat % 1000000
    .ok { s with pw := renderPassword code, truncP := p, code := BitVec.ofNat 32 code, pwValid := true }

/-- OTP_TRUNC (R111). -/
def execOtpTrunc (s : State) : Host.Outcome State Fault Refusal :=
  runFrame Opcode.otpTrunc true otpTruncBody s

end Sys2Proof.Machine
end

