-- ==== Sys2Proof/Machine/Time.lean ====
section
/-! DEFINITION. The TimeCounter frames TC_BCD and TC_MONO (43_timecounter.md R123, R124). -/

namespace Sys2Proof.Machine

/-- `TCOUNT <- c`, `TBUF <- 0 ‖ BE32(c)`, `TBUF_VALID <- 1`: the writes TC_BCD and TC_MONO share. -/
def setTime (c : Word) (s : State) : State := { s with tcount := c, tbuf := timeBuffer c, tbufValid := true }

/-- TC_BCD's pseudocode (R123): the decoded counter, or a free value when the month is not 1 to 12 (R121, log 4). -/
def tcBcdBody (b : ClockBytes) (s : State) : State :=
  match bcdCounter b with
  | some c => setTime c s
  | none => setTime (Config.freeCounter s.draws) { s with draws := s.draws + 1 }

/-- TC_BCD (R123). -/
def execTcBcd (b : ClockBytes) (s : State) : Host.Outcome State Fault Refusal :=
  runFrame Opcode.tcBcd true (fun s => .ok (tcBcdBody b s)) s

/-- The address of the persisted counter, bytes 4 to 7 of the time region (20_memory.md R48). -/
def counterAddr (s : State) : Nat := s.cfg.nvTimeOfs + 4

/-- TC_MONO's pseudocode (R124): the persisted counter as it is, and `c + 1` persisted. -/
def tcMonoBody (s : State) : Except Stop State := do
  let c ← nvReadWord (counterAddr s) s
  if c = 0xFFFFFFFF then .error (.raise .counterExhausted)
  else nvWrite (counterAddr s) (be32 (c + 1)) (setTime c s)

/-- TC_MONO (R124): legal in both `TIME_SRC` modes. -/
def execTcMono (s : State) : Host.Outcome State Fault Refusal :=
  runFrame Opcode.tcMono true tcMonoBody s

end Sys2Proof.Machine
end

