-- ==== Sys2Proof/Machine/Controller.lean ====
section
/-! DEFINITION. The TokenController frame CTL_POLL (44_controller.md R129 to R138): one poll cycle. -/

namespace Sys2Proof.Machine

/-- Step (1) of GENERATE (R134): the time by the configured strategy. -/
def generateTime (s : State) : Except Stop State :=
  match s.cfg.timeSrc with
  | .ext => .ok (tcBcdBody (clockRead s).1 (clockRead s).2)
  | .mono => tcMonoBody s

/-- The length of the secret, "clamped to 64" (R135). -/
def secretLength (s : State) : Except Stop Nat := do
  let l ← nvRead s.cfg.nvLenOfs 1 s
  pure (min (l.getD 0 0).toNat 64)

/-- `GENERATE()` (R134): time, secret, MAC over the time buffer with the key read twice, password, last password persisted.
The engine steps are the controller's own use of the engines: no common checks. -/
def generate (s : State) : Except Stop State := do
  let s ← generateTime s
  let n ← secretLength s
  let key ← nvRead s.cfg.nvSecretOfs n s
  let s ← macInitBody key s
  let s ← macUpdateBody s.tbuf.toList s
  let key' ← nvRead s.cfg.nvSecretOfs n s
  let s ← macFinalBody key' s
  let s ← otpTruncBody s
  nvWrite s.cfg.nvPwOfs s.pw.toList s

/-- `Idle` (R132): the first poll with the link up moves to `Waiting`. -/
def pollIdle (p : Pins) (s : State) : State := if p.link then { s with cstate := .waiting } else s

/-- `Waiting` (R133): a pending time-set first, then a press with `hold0 = 0`, else nothing. The Bool is `armed`. -/
def pollWaiting (p : Pins) (s : State) : Except Stop (Bool × State) :=
  if s.tsetPend then .ok (false, { s with cstate := .settingTime })
  else if p.pressed ∧ s.hold = 0 then do
    let t ← generate s
    pure (true, { t with idx := 0, cstate := .sending })
  else .ok (false, s)

/-- `SettingTime` (R138): the pending time goes to the clock, whatever `IN` holds. -/
def pollSettingTime (s : State) : State := { clockWrite s.tset s with tsetPend := false, cstate := .waiting }

/-- `Sending` (R136): with a slot, the key-down of `PW[IDX]`, and `IDX` advances. -/
def pollSending (p : Pins) (s : State) : Except Stop State :=
  if p.slot then
    if h : s.idx.toNat < 6 then .ok { emit (keyDown s.pw[s.idx.toNat]) s with idx := s.idx + 1, cstate := .releasing }
    else .error (.stop .digitIndexOutOfRange)
  else .ok s

/-- `Releasing` (R137): with a slot, the key-up; digits remain while `IDX < 6`. -/
def pollReleasing (p : Pins) (s : State) : State :=
  if p.slot then { emit keyUp s with cstate := if s.idx < 6 then .sending else .waiting } else s

/-- The case statement of R129: whether the poll armed the hold-counter, and the state before the hold update. -/
def pollCase (p : Pins) (s : State) : Except Stop (Bool × State) :=
  match s.cstate with
  | .idle => .ok (false, pollIdle p s)
  | .waiting => pollWaiting p s
  | .settingTime => .ok (false, pollSettingTime s)
  | .sending => do
    let t ← pollSending p s
    pure (false, t)
  | .releasing => .ok (false, pollReleasing p s)

/-- The hold-counter at the end of a poll (R131), from its value `hold0` at the start. -/
def updateHold (hold0 : Byte) (armed : Bool) (s : State) : State :=
  { s with hold := if armed then s.cfg.holdArm else if 0 < hold0 then hold0 - 1 else 0 }

/-- CTL_POLL's pseudocode (R129); the reserved bits come first (R74, R148 (2)). -/
def ctlPollBody (inByte : Byte) (s : State) : Except Stop State :=
  if reservedBitsSet inByte then .error (.raise .reservedBits)
  else do
    let r ← pollCase (pinsOf inByte) s
    pure (updateHold s.hold r.1 r.2)

/-- CTL_POLL (R129). It is no engine frame: never refused for an emission cycle (R128). -/
def execCtlPoll (inByte : Byte) (s : State) : Host.Outcome State Fault Refusal :=
  runFrame Opcode.ctlPoll false (ctlPollBody inByte) s

end Sys2Proof.Machine
end

