-- ==== Sys2Proof/Machine/HostChannel.lean ====
section
/-! DEFINITION. The host-channel frames HOST_PROVISION, HOST_SET_TIME, HOST_SET_COUNTER (44_controller.md R139, R140, R141).
None of them faults; a request the CORE turns down is `HOST_RESULT = REJECTED`. -/

namespace Sys2Proof.Machine

/-- HOST_PROVISION's pseudocode (R139): lengths 1 to 64 write the length byte, then the secret. -/
def hostProvisionBody (secret : List Byte) (s : State) : Except Stop State :=
  if 1 ≤ secret.length ∧ secret.length ≤ 64 then do
    let s ← nvWrite s.cfg.nvLenOfs [BitVec.ofNat 8 secret.length] s
    let s ← nvWrite s.cfg.nvSecretOfs secret s
    pure { s with hostResult := .accepted }
  else .ok { s with hostResult := .rejected }

/-- HOST_PROVISION (R139). -/
def execHostProvision (secret : List Byte) (s : State) : Host.Outcome State Fault Refusal :=
  runFrame Opcode.hostProvision false (hostProvisionBody secret) s

/-- HOST_SET_TIME's pseudocode (R140). -/
def hostSetTimeBody (b : ClockBytes) (s : State) : State :=
  if s.cfg.hasSetTime then { s with tset := b, tsetPend := true, hostResult := .accepted }
  else { s with hostResult := .rejected }

/-- HOST_SET_TIME (R140). -/
def execHostSetTime (b : ClockBytes) (s : State) : Host.Outcome State Fault Refusal :=
  runFrame Opcode.hostSetTime false (fun s => .ok (hostSetTimeBody b s)) s

/-- HOST_SET_COUNTER's pseudocode (R141): the 8 bytes `0 ‖ BE32(CVAL)` of the time region, in `MONO` only. -/
def hostSetCounterBody (cval : Word) (s : State) : Except Stop State :=
  match s.cfg.timeSrc with
  | .mono => do
    let s ← nvWrite s.cfg.nvTimeOfs ([0, 0, 0, 0] ++ be32 cval) s
    pure { s with hostResult := .accepted }
  | .ext => .ok { s with hostResult := .rejected }

/-- HOST_SET_COUNTER (R141). -/
def execHostSetCounter (cval : Word) (s : State) : Host.Outcome State Fault Refusal :=
  runFrame Opcode.hostSetCounter false (hostSetCounterBody cval) s

end Sys2Proof.Machine
end

