-- ==== Sys2Proof/Machine/Dispatch.lean ====
section
/-! DEFINITION. One arm per frame of the opcode map. -/

namespace Sys2Proof.Machine

def exec (i : Instr) (s : State) : Host.Outcome State Fault Refusal :=
  match i with
  | .shaReset => Sys2Proof.Machine.execShaReset s
  | .shaUpdate data => Sys2Proof.Machine.execShaUpdate data s
  | .shaDigest => Sys2Proof.Machine.execShaDigest s
  | .macInit key => Sys2Proof.Machine.execMacInit key s
  | .macUpdate data => Sys2Proof.Machine.execMacUpdate data s
  | .macFinal key => Sys2Proof.Machine.execMacFinal key s
  | .otpTrunc => Sys2Proof.Machine.execOtpTrunc s
  | .tcBcd b => Sys2Proof.Machine.execTcBcd b s
  | .tcMono => Sys2Proof.Machine.execTcMono s
  | .ctlPoll inByte => Sys2Proof.Machine.execCtlPoll inByte s
  | .hostProvision secret => Sys2Proof.Machine.execHostProvision secret s
  | .hostSetTime b => Sys2Proof.Machine.execHostSetTime b s
  | .hostSetCounter cval => Sys2Proof.Machine.execHostSetCounter cval s

end Sys2Proof.Machine
end

