-- ==== Sys2Proof/Machine/Layout.lean ====
section
/-! DEFINITION. The legal configurations (00_scope.md R8) and the regions of the store (20_memory.md R48, R49). -/

namespace Sys2Proof.Machine

/-- Intervals `[a, a + n)` and `[b, b + k)` share no address. -/
def disjoint (a n b k : Nat) : Bool := a + n ≤ b || b + k ≤ a

/-- "every region lies inside the store and no two regions overlap" (R49), with the sizes of R48. -/
def layoutLegal (c : Config) : Bool :=
  c.nvLenOfs + 1 ≤ c.nvSize && c.nvSecretOfs + 64 ≤ c.nvSize && c.nvTimeOfs + 8 ≤ c.nvSize && c.nvPwOfs + 6 ≤ c.nvSize &&
  disjoint c.nvLenOfs 1 c.nvSecretOfs 64 && disjoint c.nvLenOfs 1 c.nvTimeOfs 8 && disjoint c.nvLenOfs 1 c.nvPwOfs 6 &&
  disjoint c.nvSecretOfs 64 c.nvTimeOfs 8 && disjoint c.nvSecretOfs 64 c.nvPwOfs 6 && disjoint c.nvTimeOfs 8 c.nvPwOfs 6

/-- The legal values of R8: `HOLD_ARM` 1 to 255, `HAS_SET_TIME` 0 under `MONO`, `NV_SIZE` 79 to 65536, and R49. -/
def configLegal (c : Config) : Bool :=
  c.holdArm != 0 && (!c.hasSetTime || c.timeSrc == .ext) && 79 ≤ c.nvSize && c.nvSize ≤ 65536 && layoutLegal c

end Sys2Proof.Machine
end

