-- ==== Sys2Proof/Machine/Fetch.lean ====
section
/-! DEFINITION. Taking the next frame from the stream, and what a power loss leaves (70_reset_and_hazards.md R165). Step.lean
only calls these. -/

namespace Sys2Proof.Machine

/-- The state in which a frame runs: its bytes are off the stream and the frame has made no store write yet. -/
def State.consume (s : State) (rest : List Byte) : State := { s with stream := rest, storeLog := [] }

/-- An opcode byte outside the map raises ILLEGAL_OPCODE (30_encoding.md R73, 60_exceptions.md R148 (1)); a halted CORE does
nothing (R148 (0)). -/
def illegalFrame (opc : Byte) (s : State) : Host.Outcome State Fault Refusal :=
  runFrame opc false (fun _ => .error (.raise .illegalOpcode)) s

/-- The next frame of the stream, with the power on. -/
def frameStep (s : State) : Host.Outcome State Fault Refusal :=
  match decode s.stream with
  | .frame i rest => exec i (s.consume rest)
  | .illegalOpcode opc rest => illegalFrame opc (s.consume rest)
  | .incomplete => .refused .incompleteFrame

/-- The store byte being written when power is lost "holds any value afterwards" (R165): a free value (log 12). -/
def tearByte (torn : Bool) (pending : List Host.Cell) (s : State) : State :=
  match torn, pending with
  | true, c :: _ => { s with nv := Memory.write c.1 (Config.freeStoreByte s.draws) s.nv, draws := s.draws + 1 }
  | true, [] => s
  | false, _ => s

/-- What a frame that ran from `s` to `t` leaves when power is lost after `done` of its effects: "every report already sent and
every `ClockWrite` already made stays made; the store keeps every byte write that completed" (R165), "every CORE register is
lost", and the next power-on is a power-on reset. The frame's bytes are off the stream (log 12). -/
def cutShort (done : Nat) (torn : Bool) (s t : State) : State :=
  powerOnReset (tearByte torn (t.storeLog.drop done)
    { t with
      nv := Memory.writeAll (t.storeLog.take done) s.nv
      reports := s.reports ++ (t.reports.drop s.reports.length).take done
      clockWrites := s.clockWrites ++ (t.clockWrites.drop s.clockWrites.length).take done })

/-- One step when the environment takes the power away. With no complete frame delivered, a loss inside the next frame is a
loss between frames. -/
def powerLossStep (loss : PowerLoss) (s : State) : Host.Outcome State Fault Refusal :=
  match loss with
  | .between => .next (powerOnReset s)
  | .within done torn =>
    match frameStep s with
    | .next t => .next (cutShort done torn s t)
    | .fault f => .fault f
    | .refused _ => .next (powerOnReset s)

/-- A sequence of frames, given as instructions, run by their meanings (a program's frames, 00_scope.md R10). -/
def runFrames : List Instr → State → Host.Outcome State Fault Refusal
  | [], s => .next s
  | i :: is, s =>
    match exec i s with
    | .next t => runFrames is t
    | .fault f => .fault f
    | .refused r => .refused r

/-- The bytes of the frame at the head of a table word's bytes. -/
def tableFrame (nbits w : Nat) : List Byte := (tableBytes nbits w).take ((frameLength (tableBytes nbits w)).getD 0)

end Sys2Proof.Machine
end

