-- ==== Sys2Proof/Machine/Step.lean ====
section
/-! DEFINITION. One step of the machine: one frame of the stream, or a power loss. -/

namespace Sys2Proof.Machine

/-- One step. A configuration that describes no instance is refused (00_scope.md R8); else the environment's power decides
between one frame (R9) and a power loss (70_reset_and_hazards.md R165). -/
def step (s : State) : Host.Outcome State Fault Refusal :=
  if configLegal s.cfg then
    match s.power with
    | none => frameStep s
    | some loss => powerLossStep loss s
  else .refused .illegalConfiguration

/-- `s` with the frame of a table word delivered next: at the head of the stream, with the power on for the next step. -/
def State.withFetchWord (s : State) (nbits w : Nat) : State :=
  { s with stream := tableFrame nbits w ++ s.stream, power := none }

end Sys2Proof.Machine
end

