-- ==== Sys2Proof/Reference.lean ====
section
/-! DEFINITION. The functions the spec compares the CORE with, written from their standards and not from the CORE's rules:
SHA-1's padding and chaining (FIPS 180), HMAC (RFC 2104), HOTP (RFC 4226), the Gregorian calendar and Unix time. The spec names
them and takes them from general knowledge (93_implementation_defined.md G6, G7, G8, G14): PRESUMED, log 15. Only statements
speak of them, no meaning of a frame does. The block function is the one of 40_sha1.md R88 to R90. -/

namespace Sys2Proof.Reference

open Sys2Proof.Machine

/-! ## SHA-1 -/

/-- The 64-bit length of a message in bits, big-endian. -/
def lengthBytes (bits : Nat) : List Byte := (List.range 8).map fun i => BitVec.ofNat 8 (bits / 2 ^ (8 * (7 - i)))

/-- FIPS 180 padding: `0x80`, the fewest zero bytes that complete a block, the 64-bit length. -/
def shaPad (m : List Byte) : List Byte :=
  m ++ 0x80 :: List.replicate ((119 - m.length % 64) % 64) 0 ++ lengthBytes (8 * m.length)

/-- The first 64 bytes of a list as a block. -/
def blockOf (bs : List Byte) : Vector Byte 64 := Vector.ofFn fun i : Fin 64 => bs.getD i.val 0

/-- The chaining value after the first `n` blocks of a byte list. -/
def chain : Nat → List Byte → Vector Word 5 → Vector Word 5
  | 0, _, h => h
  | n + 1, bs, h => chain n (bs.drop 64) (compressWords h (blockOf bs))

/-- SHA-1 of a whole message. -/
def sha1 (m : List Byte) : Digest := digestBytes (chain ((shaPad m).length / 64) (shaPad m) shaIV)

/-! ## HMAC and HOTP -/

/-- RFC 2104: a key of at most 64 bytes, padded with zero bytes to 64. -/
def hmacKey (k : List Byte) : List Byte := k ++ List.replicate (64 - k.length) 0

/-- The hash of the outer pass over the hash of the inner pass, with a key for each (41_hmac.md R109 gives the value for
different keys). -/
def nestedMac (inner outer m : List Byte) : Digest :=
  sha1 ((hmacKey outer).map (· ^^^ 0x5C) ++ (sha1 ((hmacKey inner).map (· ^^^ 0x36) ++ m)).toList)

/-- HMAC-SHA1 of RFC 2104. -/
def hmac (k m : List Byte) : Digest := nestedMac k k m

/-- The 8-byte counter of RFC 4226, big-endian. -/
def counterBytes (c : Nat) : List Byte := lengthBytes c

/-- RFC 4226's dynamic truncation of a 20-byte value, as a number: with the mask, the 31-bit form; without it, all 32 bits. -/
def truncate (mask : Bool) (d : Digest) : Nat :=
  let off := d[19].toNat % 16
  let at' := fun i => (d.toList.getD (off + i) 0).toNat
  (if mask then at' 0 % 128 else at' 0) * 2 ^ 24 + at' 1 * 2 ^ 16 + at' 2 * 2 ^ 8 + at' 3

/-- The 6-digit HOTP value of a secret at a counter. -/
def hotp (mask : Bool) (k : List Byte) (c : Nat) : Nat := truncate mask (hmac k (counterBytes c)) % 1000000

/-- A list of digit characters, the most significant first, read as a decimal number. -/
def decimalValue (cs : List Byte) : Nat := cs.foldl (fun n c => 10 * n + (c.toNat - 0x30)) 0

/-! ## Calendar -/

/-- The Gregorian leap-year rule. -/
def isLeapYear (y : Nat) : Bool := y % 4 == 0 && (y % 100 != 0 || y % 400 == 0)

/-- The days of a month. -/
def daysInMonth (y : Nat) : Nat → Nat
  | 2 => if isLeapYear y then 29 else 28
  | 4 => 30
  | 6 => 30
  | 9 => 30
  | 11 => 30
  | _ => 31

/-- Days from 1970-01-01 to the first of January of year `y`. -/
def daysBeforeYear (y : Nat) : Nat :=
  ((List.range (y - 1970)).map fun k => if isLeapYear (1970 + k) then 366 else 365).sum

/-- Days of year `y` before the first of month `m`. -/
def daysBeforeMonth (y m : Nat) : Nat := ((List.range (m - 1)).map fun k => daysInMonth y (k + 1)).sum

/-- Unix time: seconds since 1970-01-01 00:00:00 UTC, without leap seconds. -/
def unixTime (y m d h mi s : Nat) : Nat :=
  (((daysBeforeYear y + daysBeforeMonth y m + (d - 1)) * 24 + h) * 60 + mi) * 60 + s

/-- Packed BCD of a number below 100: tens in bits 7:4, ones in bits 3:0. -/
def toBcd (n : Nat) : Byte := BitVec.ofNat 8 (16 * (n / 10) + n % 10)

end Sys2Proof.Reference
end

