-- ==== Sys2Proof/Safety.lean ====
section
/-! DEFINITION. What a good state is: the invariant every step keeps, what it means that the HashEngine holds a message, and
which states no frame can tell apart. -/

namespace Sys2Proof.Safety

open Sys2Proof.Machine

/-- The invariant of the machine: what the rules of spec/ say of the registers between frames. -/
structure Inv (s : State) : Prop where
  /-- the store is in canonical form -/
  storeCanonical : Memory.wf s.nv = true
  /-- every listed byte has an address of the store (20_memory.md R47) -/
  storeInside : Memory.inside s.cfg.nvSize s.nv = true
  /-- `IDX` is 0 to 6 (10_state.md R32) -/
  idxRange : s.idx.toNat ≤ 6
  /-- "`IDX` is 0 to 5 whenever a poll enters this state's action" (44_controller.md R136) -/
  idxSending : s.cstate = .sending → s.idx.toNat ≤ 5
  /-- in `Releasing` a digit has been typed (R137) -/
  idxReleasing : s.cstate = .releasing → 1 ≤ s.idx.toNat
  /-- an emission cycle has a password to type (R133, R134) -/
  emittingHasPassword : s.emitting = true → s.pwValid = true
  /-- each element of `PW` is an ASCII digit (10_state.md R29) -/
  passwordDigits : s.pwValid = true → ∀ i : Fin 6, 0x30 ≤ s.pw[i] ∧ s.pw[i] ≤ 0x39
  /-- `CODE = TRUNC_P mod 1000000`, and `PW` read as a number is `CODE` (42_otp.md R114) -/
  passwordValue : s.pwValid = true →
    s.code.toNat = s.truncP.toNat % 1000000 ∧ Reference.decimalValue s.pw.toList = s.code.toNat
  /-- `CODE` is 0 to 999999 (10_state.md R28) -/
  codeRange : s.code.toNat < 1000000
  /-- a password was truncated from a digest (42_otp.md R111) -/
  passwordHasDigest : s.pwValid = true → s.doutValid = true
  /-- `TBUF = 0 ‖ BE32(TCOUNT)` (10_state.md R30) -/
  timeBufferValue : s.tbufValid = true → s.tbuf = timeBuffer s.tcount
  /-- "`MPHASE = INNER` implies `HPHASE = ACTIVE`" (41_hmac.md R106) -/
  innerIsActive : s.mphase = .inner → s.hash.phase = .active
  /-- `BITS` is 8 times the number of bytes absorbed, and `OFS` counts them in the current block (10_state.md R21, R22) -/
  hashCount : s.hash.phase = .active → s.hash.bits.toNat % 8 = 0 ∧ s.hash.ofs.toNat = s.hash.bits.toNat / 8 % 64
  /-- a digest was written when the hash was consumed (10_state.md R23, R26) -/
  finalHasDigest : s.hash.phase = .final → s.doutValid = true
  /-- `SettingTime` is entered for a pending request (44_controller.md R133) -/
  settingHasRequest : s.cstate = .settingTime → s.tsetPend = true
  /-- a request is accepted only with `HAS_SET_TIME = 1` (R140) -/
  requestNeedsSetTime : s.tsetPend = true → s.cfg.hasSetTime = true
  /-- `HOLD` is armed with `HOLD_ARM` and only counts down (10_state.md R33) -/
  holdRange : s.hold ≤ s.cfg.holdArm
  /-- `FCODE` is 0 to 9 (60_exceptions.md R147), and `FOPC` is 0 while `FCODE` is 0 (10_state.md R36) -/
  faultCodes : s.fcode ≤ 9 ∧ (s.fcode = 0 → s.fopc = 0)

/-- The HashEngine, active, that holds the message `m`: `H` has chained its full blocks, `BLK` holds the bytes after them
followed by zeros, `OFS` and `BITS` count it (10_state.md R19 to R23). -/
def hashHolding (m : List Byte) : HashEngine where
  h := Reference.chain (m.length / 64) m shaIV
  blk := Reference.blockOf (m.drop (64 * (m.length / 64)))
  ofs := BitVec.ofNat 6 m.length
  bits := BitVec.ofNat 16 (8 * m.length)
  phase := .active

/-- A HashEngine with nothing in it: its registers as after reset. -/
def blankHash (phase : HPhase) : HashEngine :=
  { h := Vector.replicate 5 0, blk := Vector.replicate 64 0, ofs := 0, bits := 0, phase := phase }

/-- `s` with every register that R46 gives "no value", and that no frame has written since (its guard is still 0), set to 0:
`H`, `BLK`, `OFS`, `BITS` while `HPHASE = UNINIT`; `DOUT` while `DOUT_VALID = 0`; `TRUNC_P`, `CODE`, `PW` while `PW_VALID = 0`;
`TBUF`, `TCOUNT` while `TBUF_VALID = 0`; `TSET` while `TSET_PEND = 0`. -/
def scrub (s : State) : State :=
  { s with
    hash := if s.hash.phase = .uninit then blankHash .uninit else s.hash
    dout := if s.doutValid then s.dout else Vector.replicate 20 0
    truncP := if s.pwValid then s.truncP else 0
    code := if s.pwValid then s.code else 0
    pw := if s.pwValid then s.pw else Vector.replicate 6 0
    tbuf := if s.tbufValid then s.tbuf else Vector.replicate 8 0
    tcount := if s.tbufValid then s.tcount else 0
    tset := if s.tsetPend then s.tset else ⟨0, 0, 0, 0, 0, 0, 0⟩ }

/-- The outcome of a step, seen through `scrub`. -/
def scrubOutcome : Host.Outcome State Fault Refusal → Host.Outcome State Fault Refusal
  | .next t => .next (scrub t)
  | .fault f => .fault f
  | .refused r => .refused r

/-- The engine frames: units 0 to 3 of 30_encoding.md R72, which R128 of 44_controller.md lists. -/
def engineFrame : Instr → Bool
  | .shaReset => true
  | .shaUpdate _ => true
  | .shaDigest => true
  | .macInit _ => true
  | .macUpdate _ => true
  | .macFinal _ => true
  | .otpTrunc => true
  | .tcBcd _ => true
  | .tcMono => true
  | .ctlPoll _ => false
  | .hostProvision _ => false
  | .hostSetTime _ => false
  | .hostSetCounter _ => false

/-- The 32-bit big-endian counter in bytes 4 to 7 of the time region (20_memory.md R48). -/
def storedCounter (c : Config) (nv : Memory) : Nat :=
  (Memory.read (c.nvTimeOfs + 4) nv).toNat * 2 ^ 24 + (Memory.read (c.nvTimeOfs + 5) nv).toNat * 2 ^ 16 +
    (Memory.read (c.nvTimeOfs + 6) nv).toNat * 2 ^ 8 + (Memory.read (c.nvTimeOfs + 7) nv).toNat

/-- The secret a generation uses: the length byte clamped to 64, and that many bytes of the secret region (44_controller.md
R135). -/
def storedSecret (c : Config) (nv : Memory) : List Byte :=
  (List.range (min (Memory.read c.nvLenOfs nv).toNat 64)).map fun i => Memory.read (c.nvSecretOfs + i) nv

/-- The bytes of the last-password region (20_memory.md R48). -/
def storedPassword (c : Config) (nv : Memory) : List Byte :=
  (List.range 6).map fun i => Memory.read (c.nvPwOfs + i) nv

/-- An address of one of the four regions of the store (20_memory.md R48). -/
def inRegion (c : Config) (a : Nat) : Prop :=
  a = c.nvLenOfs ∨ (c.nvSecretOfs ≤ a ∧ a < c.nvSecretOfs + 64) ∨ (c.nvTimeOfs ≤ a ∧ a < c.nvTimeOfs + 8) ∨
    (c.nvPwOfs ≤ a ∧ a < c.nvPwOfs + 6)

/-- A poll that starts a generation (44_controller.md R133 (2)): in `Waiting`, with no time-set request pending, the button
pressed and `HOLD = 0`. -/
def triggers (inByte : Byte) (s : State) : Bool :=
  s.cstate == .waiting && !s.tsetPend && (pinsOf inByte).pressed && s.hold == 0

/-- Step (4) of 60_exceptions.md R148: the fault a frame's own pseudocode raises, its tests in their written order, as R147
lists the causes. -/
def ownFault (i : Instr) (s : State) : Option FaultCode :=
  match i with
  | .shaReset => none
  | .shaUpdate data =>
    if s.hash.phase ≠ .active then some .hashNotActive
    else if 0xFFFF < s.hash.bits.toNat + 8 * data.length then some .lenOverflow
    else none
  | .shaDigest => if s.hash.phase ≠ .active then some .hashNotActive else none
  | .macInit key => if 64 < key.length then some .keyTooLong else none
  | .macUpdate data =>
    if s.mphase ≠ .inner then some .macNotActive
    else if 0xFFFF < s.hash.bits.toNat + 8 * data.length then some .lenOverflow
    else none
  | .macFinal key =>
    if 64 < key.length then some .keyTooLong else if s.mphase ≠ .inner then some .macNotActive else none
  | .otpTrunc => if s.doutValid then none else some .digestNotValid
  | .tcBcd _ => none
  | .tcMono => if storedCounter s.cfg s.nv = 2 ^ 32 - 1 then some .counterExhausted else none
  | .ctlPoll inByte =>
    if triggers inByte s ∧ s.cfg.timeSrc = .mono ∧ storedCounter s.cfg s.nv = 2 ^ 32 - 1 then some .counterExhausted
    else none
  | .hostProvision _ => none
  | .hostSetTime _ => none
  | .hostSetCounter _ => none

/-- The reserved bits of a frame are not 0 (R148 (2)). -/
def reservedBad : Instr → Bool
  | .ctlPoll inByte => inByte.toNat / 8 != 0
  | .shaReset => false
  | .shaUpdate _ => false
  | .shaDigest => false
  | .macInit _ => false
  | .macUpdate _ => false
  | .macFinal _ => false
  | .otpTrunc => false
  | .tcBcd _ => false
  | .tcMono => false
  | .hostProvision _ => false
  | .hostSetTime _ => false
  | .hostSetCounter _ => false

/-- The one fault a frame of the opcode map raises in a CORE that is not halted, if it raises one: the checks (2), (3), (4) of
R148, "the first check that applies decides". -/
def faultOf (i : Instr) (s : State) : Option FaultCode :=
  if reservedBad i then some .reservedBits
  else if engineFrame i ∧ (s.cstate = .sending ∨ s.cstate = .releasing) then some .engineBusy
  else ownFault i s

/-- The CORE runs the pseudocode of the engine frames: it is not halted and no emission cycle runs (R148 (0), (3)). -/
def engineReady (s : State) : Prop := s.halted = false ∧ s.emitting = false

/-- The initial value of SHA-1 (40_sha1.md R85). -/
def initialValue : Vector Word 5 := #v[0x67452301, 0xEFCDAB89, 0x98BADCFE, 0x10325476, 0xC3D2E1F0]

/-- The ASCII digits are `0x30` to `0x39` (30_encoding.md R80). -/
def asciiDigits (pw : Vector Byte 6) : Prop := ∀ i : Fin 6, 0x30 ≤ pw[i] ∧ pw[i] ≤ 0x39

/-- The key-down report of a digit character: `ch - 0x13` for `'1'` to `'9'`, `0x27` for `'0'`, in the first key slot
(30_encoding.md R81, R82). -/
def digitReport (ch : Byte) : Report := #v[0, 0, if ch = 0x30 then 0x27 else ch - 0x13, 0, 0, 0, 0, 0]

/-- The 12 reports of an emission cycle in their order (44_controller.md R142). -/
def cycleReports (pw : Vector Byte 6) : List Report := pw.toList.flatMap fun ch => [digitReport ch, #v[0, 0, 0, 0, 0, 0, 0, 0]]

/-- A poll with `SLOT_READY = 1`. -/
def slotPoll : Instr → Bool
  | .ctlPoll inByte => inByte.getLsbD 1
  | .shaReset => false
  | .shaUpdate _ => false
  | .shaDigest => false
  | .macInit _ => false
  | .macUpdate _ => false
  | .macFinal _ => false
  | .otpTrunc => false
  | .tcBcd _ => false
  | .tcMono => false
  | .hostProvision _ => false
  | .hostSetTime _ => false
  | .hostSetCounter _ => false

/-- A frame that raises no fault while an emission cycle runs: a poll whose reserved bits are 0, or a host-channel frame. -/
def cycleFrame (i : Instr) : Bool := !engineFrame i && !reservedBad i

/-- A frame whose pseudocode runs a generation to its end: a poll of a CORE that is not halted, with reserved bits 0, that
triggers, and whose counter, in `MONO` mode, is not exhausted (44_controller.md R133, R134). -/
def generates (i : Instr) (s : State) : Bool :=
  match i with
  | .ctlPoll inByte =>
    !s.halted && inByte.toNat < 8 && triggers inByte s && (s.cfg.timeSrc == .ext || storedCounter s.cfg s.nv != 2 ^ 32 - 1)
  | .shaReset => false
  | .shaUpdate _ => false
  | .shaDigest => false
  | .macInit _ => false
  | .macUpdate _ => false
  | .macFinal _ => false
  | .otpTrunc => false
  | .tcBcd _ => false
  | .tcMono => false
  | .hostProvision _ => false
  | .hostSetTime _ => false
  | .hostSetCounter _ => false

/-- How many generations a sequence of frames completes from a state. -/
def generations : List Instr → State → Nat
  | [], _ => 0
  | i :: is, s =>
    (if generates i s then 1 else 0) +
      match exec i s with
      | .next t => generations is t
      | .fault _ => 0
      | .refused _ => 0

/-- What a generation that used the counter `c` leaves in every field of the state but the draw counter, the clock's answers,
the store and its log (44_controller.md R134, R133, R131): the time buffer, the MAC of the secret over it, the truncation and
the password, the engine phases, the controller at the start of an emission cycle; the rest as before. -/
structure Generation (s t : State) (c : Word) : Prop where
  tcount : t.tcount = c
  tbuf : t.tbuf.toList = [0, 0, 0, 0] ++ be32 c
  tbufValid : t.tbufValid = true
  dout : t.dout = Reference.hmac (storedSecret s.cfg s.nv) ([0, 0, 0, 0] ++ be32 c)
  doutValid : t.doutValid = true
  mphase : t.mphase = .done
  hash : t.hash.phase = .final ∧ t.hash.blk = Vector.replicate 64 0 ∧ t.hash.ofs = 0 ∧ t.hash.bits = 672 ∧
    t.dout.toList = t.hash.h.toList.flatMap be32
  truncP : t.truncP.toNat = Reference.truncate s.cfg.truncMask t.dout
  code : t.code.toNat = t.truncP.toNat % 1000000
  pw : Reference.decimalValue t.pw.toList = t.code.toNat ∧ asciiDigits t.pw
  pwValid : t.pwValid = true
  cstate : t.cstate = .sending
  idx : t.idx = 0
  hold : t.hold = s.cfg.holdArm
  unchanged : t.cfg = s.cfg ∧ t.tset = s.tset ∧ t.tsetPend = s.tsetPend ∧ t.hostResult = s.hostResult ∧ t.fault = s.fault ∧
    t.reports = s.reports ∧ t.clockWrites = s.clockWrites ∧ t.stream = s.stream ∧ t.power = s.power

end Sys2Proof.Safety
end

