-- ==== Sys2Proof/Certificates/Slice0/Obligations.lean ====
section
/-! DEFINITION. The statements for the provers: OBLIGATIONS.json lists them with their rules. -/

open Sys2Proof Sys2Proof.Machine Sys2Proof.Safety

/-! ## Encoding -/

/-- Decoding an encoded well-formed frame gives it back, whatever follows it, with every operand at every value
(30_encoding.md sections 1 to 3). -/
def Obligations.DecodeOfEncodeIsTheInstruction : Prop :=
  ∀ (i : Instr) (rest : List Byte), i.wellFormed = true → decode (encode i ++ rest) = .frame i rest

/-- What the decoder answers is the only reading: a frame is its encoding, an illegal opcode is its byte, and `incomplete` is
answered exactly when no frame stands at the head (30_encoding.md sections 1 to 4). -/
def Obligations.DecodedBytesAreTheEncoding : Prop :=
  ∀ bs : List Byte,
    (∀ i rest, decode bs = .frame i rest → i.wellFormed = true ∧ bs = encode i ++ rest) ∧
    (∀ opc rest, decode bs = .illegalOpcode opc rest → formatOf opc = none ∧ bs = opc :: rest) ∧
    (decode bs = .incomplete ↔ ∀ f rest, f.wellFormed = true → bs ≠ encodeFrame f ++ rest)

/-- R75: the length of a frame from its first one or two bytes, by format; every byte sequence splits uniquely into frames, the
last of which may be incomplete. -/
def Obligations.StreamSplitsUniquelyIntoFrames : Prop :=
  (∀ bs : List Byte, frameLength bs = frameLength (bs.take 2)) ∧
  (∀ (f : StreamFrame) (rest : List Byte), f.wellFormed = true →
    frameLength (encodeFrame f ++ rest) = some (encodeFrame f).length) ∧
  (∀ (opc : Byte) (bs : List Byte),
    (formatOf opc = none → frameLength (opc :: bs) = some 1) ∧
    (formatOf opc = some .n → frameLength (opc :: bs) = some 1) ∧
    (formatOf opc = some .p → frameLength (opc :: bs) = some 2) ∧
    (formatOf opc = some .b4 → frameLength (opc :: bs) = some 5) ∧
    (formatOf opc = some .b7 → frameLength (opc :: bs) = some 8) ∧
    (∀ len : Byte, formatOf opc = some .l → frameLength (opc :: len :: bs) = some (2 + len.toNat))) ∧
  ∀ bs : List Byte,
    (∀ f ∈ (splitFrames bs).1, f.wellFormed = true) ∧
    bs = (splitFrames bs).1.flatMap encodeFrame ++ (splitFrames bs).2 ∧
    decode (splitFrames bs).2 = .incomplete ∧
    ∀ (fs : List StreamFrame) (left : List Byte), (∀ f ∈ fs, f.wellFormed = true) →
      bs = fs.flatMap encodeFrame ++ left → decode left = .incomplete →
      fs = (splitFrames bs).1 ∧ left = (splitFrames bs).2

/-- R66 to R69, R72: the bytes of every frame, with the opcode of the table and the operands in their order; every other opcode is
illegal; the engine frames are those of the units 0 to 3, the high nibble of the opcode. -/
def Obligations.FramesAreEncodedAsTheTableSays : Prop :=
  encode .shaReset = [0x01] ∧
  (∀ d, encode (.shaUpdate d) = 0x02 :: BitVec.ofNat 8 d.length :: d) ∧
  encode .shaDigest = [0x03] ∧
  (∀ k, encode (.macInit k) = 0x11 :: BitVec.ofNat 8 k.length :: k) ∧
  (∀ d, encode (.macUpdate d) = 0x12 :: BitVec.ofNat 8 d.length :: d) ∧
  (∀ k, encode (.macFinal k) = 0x13 :: BitVec.ofNat 8 k.length :: k) ∧
  encode .otpTrunc = [0x21] ∧
  (∀ ss mi hh ww dd mo yy, encode (.tcBcd ⟨ss, mi, hh, ww, dd, mo, yy⟩) = [0x31, ss, mi, hh, ww, dd, mo, yy]) ∧
  encode .tcMono = [0x32] ∧
  (∀ b, encode (.ctlPoll b) = [0x41, b]) ∧
  (∀ k, encode (.hostProvision k) = 0x51 :: BitVec.ofNat 8 k.length :: k) ∧
  (∀ ss mi hh ww dd mo yy, encode (.hostSetTime ⟨ss, mi, hh, ww, dd, mo, yy⟩) = [0x52, ss, mi, hh, ww, dd, mo, yy]) ∧
  (∀ c : Word, encode (.hostSetCounter c) =
    [0x53, c.extractLsb' 24 8, c.extractLsb' 16 8, c.extractLsb' 8 8, c.extractLsb' 0 8]) ∧
  (∀ opc : Byte, formatOf opc = none ↔
    opc ∉ [0x01, 0x02, 0x03, 0x11, 0x12, 0x13, 0x21, 0x31, 0x32, 0x41, 0x51, 0x52, 0x53]) ∧
  ∀ i : Instr, engineFrame i = true ↔ i.opcode.toNat / 16 < 4

/-- Words written out from the encodings of 30_encoding.md, one for each family, decode to the instruction they stand for. -/
def Obligations.WrittenOutWordsDecode : Prop :=
  decode [0x01, 0x03] = .frame .shaReset [0x03] ∧
  decode [0x02, 0x03, 0x61, 0x62, 0x63] = .frame (.shaUpdate [0x61, 0x62, 0x63]) [] ∧
  decode [0x11, 0x00, 0x12] = .frame (.macInit []) [0x12] ∧
  decode [0x13, 0x02, 0x4A, 0x65] = .frame (.macFinal [0x4A, 0x65]) [] ∧
  decode [0x21] = .frame .otpTrunc [] ∧
  decode [0x31, 0x30, 0x31, 0x23, 0x05, 0x13, 0x02, 0x09] = .frame (.tcBcd ⟨0x30, 0x31, 0x23, 0x05, 0x13, 0x02, 0x09⟩) [] ∧
  decode [0x41, 0x06, 0x41, 0x07] = .frame (.ctlPoll 0x06) [0x41, 0x07] ∧
  decode [0x51, 0x01, 0xAA] = .frame (.hostProvision [0xAA]) [] ∧
  decode [0x53, 0x01, 0x02, 0x03, 0x04] = .frame (.hostSetCounter 0x01020304) [] ∧
  decode [0x02, 0x02, 0x61] = .incomplete ∧
  decode [0x04, 0x01] = .illegalOpcode 0x04 [0x01]

/-- R73: the 243 illegal opcode bytes; an illegal frame is one byte long and raises ILLEGAL_OPCODE, with no other effect. The step also
empties the model's own log of store writes, as at every frame (log 13). -/
def Obligations.IllegalOpcodeIsOneByteAndFaults : Prop :=
  ((List.range 256).filter fun n => (formatOf (BitVec.ofNat 8 n)).isNone).length = 243 ∧
  formatOf 0x00 = none ∧ formatOf 0xFF = none ∧
  ∀ (s : State) (opc : Byte) (rest : List Byte), configLegal s.cfg = true → s.power = none → s.halted = false →
    formatOf opc = none → s.stream = opc :: rest →
    step s = .next { s with stream := rest, storeLog := [], fault := opc ++ (0x06 : Byte) }

/-! ## The machine -/

/-- A step runs the decoded frame: with the power on, in a legal configuration, when the stream begins with the bytes of a
well-formed frame, the step is that frame's meaning in the state whose stream goes on after the frame (the model's own log of
store writes starts empty, log 13). -/
def Obligations.StepRunsTheDecodedFrame : Prop :=
  ∀ (s : State) (i : Instr) (rest : List Byte), configLegal s.cfg = true → s.power = none → i.wellFormed = true →
    s.stream = encode i ++ rest → step s = exec i { s with stream := rest, storeLog := [] }

/-- R76: a frame not yet delivered in full has no step. -/
def Obligations.IncompleteFrameHasNoStep : Prop :=
  ∀ (s : State) (f : StreamFrame) (k : Nat), configLegal s.cfg = true → s.power = none → f.wellFormed = true →
    k < (encodeFrame f).length → s.stream = (encodeFrame f).take k → step s = .refused .incompleteFrame

/-- R49, with the ranges of R8: the model refuses exactly the configurations that are not legal. -/
def Obligations.OnlyLegalConfigurationsStep : Prop :=
  ∀ s : State,
    let c := s.cfg
    let regions : List (Nat × Nat) := [(c.nvLenOfs, 1), (c.nvSecretOfs, 64), (c.nvTimeOfs, 8), (c.nvPwOfs, 6)]
    step s = .refused .illegalConfiguration ↔
      ¬ (1 ≤ c.holdArm.toNat ∧ (c.timeSrc = .mono → c.hasSetTime = false) ∧ 79 ≤ c.nvSize ∧ c.nvSize ≤ 65536 ∧
        (∀ r ∈ regions, r.1 + r.2 ≤ c.nvSize) ∧
        regions.Pairwise fun r q => ∀ a, ¬ (r.1 ≤ a ∧ a < r.1 + r.2 ∧ q.1 ≤ a ∧ a < q.1 + q.2))

/-- R50: no access is out of bounds. From a state of the invariant in a legal configuration every step ends in a next state,
but for a frame the stream has not delivered. -/
def Obligations.LegalMachineNeverStops : Prop :=
  ∀ s : State, Inv s → configLegal s.cfg = true →
    (∀ i, ∃ t, exec i s = .next t) ∧
    ((∃ t, step s = .next t) ∨ (s.power = none ∧ decode s.stream = .incomplete ∧ step s = .refused .incompleteFrame))

/-! ## Faults -/

/-- R151: a halted CORE takes every frame off the stream and does nothing; power-on reset ends the halt. The step also empties the
model's own log of store writes, as at every frame (log 13). -/
def Obligations.HaltedCoreDoesNothing : Prop :=
  ∀ s : State, s.fcode ≠ 0 →
    (∀ i, exec i s = .next s) ∧
    (∀ (f : StreamFrame) (rest : List Byte), configLegal s.cfg = true → s.power = none → f.wellFormed = true →
      s.stream = encodeFrame f ++ rest → step s = .next { s with stream := rest, storeLog := [] }) ∧
    (powerOnReset s).fcode = 0 ∧ (powerOnReset s).fault = 0

/-- R128: engine frames (units 0 to 3, the high nibble of the opcode) raise ENGINE_BUSY in `Sending` and `Releasing` and have no
other effect; no other frame and no other state gives that fault. -/
def Obligations.EngineFramesAreBusyDuringEmission : Prop :=
  ∀ s : State, s.halted = false →
    ((s.cstate = .sending ∨ s.cstate = .releasing) → ∀ i : Instr, i.opcode.toNat / 16 < 4 →
      exec i s = .next { s with fault := i.opcode ++ (0x09 : Byte) }) ∧
    ∀ (i : Instr) (t : State), exec i s = .next t → t.fcode = 0x09 →
      (s.cstate = .sending ∨ s.cstate = .releasing) ∧ i.opcode.toNat / 16 < 4

/-- R149, R150: a frame that faults, an illegal opcode among them, writes `FAULT` and changes nothing else; `STATUS[7]` reads 1
from then on, whatever frames follow. -/
def Obligations.FaultsArePrecise : Prop :=
  (∀ (i : Instr) (s t : State), exec i s = .next t → t.fault ≠ s.fault →
    s.fcode = 0 ∧ t.fopc = i.opcode ∧
    (∃ code : Byte, 1 ≤ code ∧ code ≤ 9 ∧ t.fcode = code ∧ t = { s with fault := i.opcode ++ code }) ∧
    ∀ (is : List Instr) (u : State), runFrames is t = .next u → u.status.getLsbD 7 = true) ∧
  ∀ (opc : Byte) (s t : State), illegalFrame opc s = .next t → t.fault ≠ s.fault →
    s.fcode = 0 ∧ t = { s with fault := opc ++ (0x06 : Byte) } ∧ t.fopc = opc ∧ t.fcode = 0x06 ∧
    ∀ (is : List Instr) (u : State), runFrames is t = .next u → u.status.getLsbD 7 = true

/-- R148, with the causes and numbers of R147: which fault a frame raises, the first check that applies, from the halted CORE that
does nothing and the illegal opcode on; and a frame to which none applies ends in a next state that has not faulted. The invariant
is a premise because in states outside it MAC_UPDATE and MAC_FINAL could meet a hash that is not active, and a key-down an index
above 5. -/
def Obligations.FirstCheckThatAppliesDecides : Prop :=
  (FaultCode.hashNotActive.byte = 0x01 ∧ FaultCode.lenOverflow.byte = 0x02 ∧ FaultCode.keyTooLong.byte = 0x03 ∧
    FaultCode.macNotActive.byte = 0x04 ∧ FaultCode.digestNotValid.byte = 0x05 ∧ FaultCode.illegalOpcode.byte = 0x06 ∧
    FaultCode.reservedBits.byte = 0x07 ∧ FaultCode.counterExhausted.byte = 0x08 ∧ FaultCode.engineBusy.byte = 0x09) ∧
  (∀ (i : Instr) (opc : Byte) (s : State), s.fcode ≠ 0 → exec i s = .next s ∧ illegalFrame opc s = .next s) ∧
  (∀ (opc : Byte) (s : State), s.fcode = 0 → illegalFrame opc s = .next { s with fault := opc ++ (0x06 : Byte) }) ∧
  ∀ (i : Instr) (s : State), Inv s → configLegal s.cfg = true → s.fcode = 0 →
    (∀ c, faultOf i s = some c → exec i s = .next { s with fault := i.opcode ++ c.byte }) ∧
    (faultOf i s = none → ∃ t, exec i s = .next t ∧ t.fault = s.fault)

/-! ## HashEngine -/

/-- R95: SHA_RESET writes every HashEngine register and `MPHASE`, and nothing else. -/
def Obligations.ShaResetStartsAHash : Prop :=
  ∀ s : State, engineReady s → exec .shaReset s = .next { s with
    hash := { h := #v[0x67452301, 0xEFCDAB89, 0x98BADCFE, 0x10325476, 0xC3D2E1F0], blk := Vector.replicate 64 0, ofs := 0,
              bits := 0, phase := .active }
    mphase := .idle }

/-- R93, R96, with the checks of R91 and R92: SHA_UPDATE byte by byte. No byte changes nothing, one byte goes to `BLK[OFS]` and
compresses a full block, more bytes are the bytes one after the other; both checks come before any write. -/
def Obligations.ShaUpdateAbsorbsByteByByte : Prop :=
  ∀ s : State, engineReady s →
    (s.hash.phase ≠ .active → ∀ data, exec (.shaUpdate data) s = .next { s with fault := 0x0201 }) ∧
    (s.hash.phase = .active →
      (∀ data, 0xFFFF < s.hash.bits.toNat + 8 * data.length →
        exec (.shaUpdate data) s = .next { s with fault := 0x0202 }) ∧
      exec (.shaUpdate []) s = .next s ∧
      (∀ b : Byte, s.hash.bits.toNat + 8 ≤ 0xFFFF → exec (.shaUpdate [b]) s = .next { s with
        hash :=
          if s.hash.ofs = 63 then
            { h := compressWords s.hash.h (s.hash.blk.set 63 b), blk := Vector.replicate 64 0, ofs := 0,
              bits := s.hash.bits + 8, phase := .active }
          else
            { h := s.hash.h, blk := s.hash.blk.set s.hash.ofs.toNat b s.hash.ofs.isLt, ofs := s.hash.ofs + 1,
              bits := s.hash.bits + 8, phase := .active } }) ∧
      ∀ (b : Byte) (data : List Byte), s.hash.bits.toNat + 8 * (data.length + 1) ≤ 0xFFFF →
        exec (.shaUpdate (b :: data)) s = runFrames [.shaUpdate [b], .shaUpdate data] s)

/-- R41: how a message is split into SHA_UPDATE frames does not change what they leave (10_state.md section 9). -/
def Obligations.SplitOfAMessageDoesNotMatter : Prop :=
  ∀ (s : State) (parts parts' : List (List Byte)), engineReady s → s.hash.phase = .active →
    parts.flatten = parts'.flatten → s.hash.bits.toNat + 8 * parts.flatten.length ≤ 0xFFFF →
    ∃ t, runFrames (parts.map .shaUpdate) s = .next t ∧ runFrames (parts'.map .shaUpdate) s = .next t ∧
      t = { s with hash := t.hash } ∧ t.hash.bits.toNat = s.hash.bits.toNat + 8 * parts.flatten.length

/-- The HashEngine that holds a message holds the longer message after SHA_UPDATE or MAC_UPDATE of up to 8191 bytes in all, and a
longer one faults with LEN_OVERFLOW (10_state.md section 2, 40_sha1.md section 2, 41_hmac.md section 2). What it means to hold a
message is the model's definition, over the chaining of log 15. -/
def Obligations.UpdatesExtendTheHeldMessage : Prop :=
  ∀ (s : State) (m data : List Byte), engineReady s → s.hash = hashHolding m → m.length ≤ 8191 →
    (m.length + data.length ≤ 8191 →
      exec (.shaUpdate data) s = .next { s with hash := hashHolding (m ++ data) } ∧
      (s.mphase = .inner → exec (.macUpdate data) s = .next { s with hash := hashHolding (m ++ data) })) ∧
    (8191 < m.length + data.length →
      exec (.shaUpdate data) s = .next { s with fault := 0x0202 } ∧
      (s.mphase = .inner → exec (.macUpdate data) s = .next { s with fault := 0x1202 }))

/-- R88: the message schedule, 80 words, the first 16 the block's big-endian words (40_sha1.md section 1). -/
def Obligations.ScheduleFollowsTheRecurrence : Prop :=
  ∀ blk : Vector Byte 64,
    (schedule blk).length = 80 ∧
    (∀ t : Fin 16, (schedule blk).getD t 0 = blk[4 * t.val] ++ blk[4 * t.val + 1] ++ blk[4 * t.val + 2] ++ blk[4 * t.val + 3]) ∧
    ∀ t, 16 ≤ t → t < 80 → (schedule blk).getD t 0 =
      ((schedule blk).getD (t - 3) 0 ^^^ (schedule blk).getD (t - 8) 0 ^^^ (schedule blk).getD (t - 14) 0 ^^^
        (schedule blk).getD (t - 16) 0).rotateLeft 1

/-- R86, R87, R89, R90: one block compression is 80 rounds over the schedule, the additive feedback, and a cleared buffer
(40_sha1.md section 1). -/
def Obligations.CompressionRunsEightyRounds : Prop :=
  ∀ e : HashEngine,
    let w := schedule e.blk
    let round := fun (x : Working) (t : Nat) =>
      let f := if t < 20 then (x.b &&& x.c) ||| (~~~x.b &&& x.d)
        else if t < 40 then x.b ^^^ x.c ^^^ x.d
        else if t < 60 then (x.b &&& x.c) ||| (x.b &&& x.d) ||| (x.c &&& x.d)
        else x.b ^^^ x.c ^^^ x.d
      let k : Word := if t < 20 then 0x5A827999 else if t < 40 then 0x6ED9EBA1 else if t < 60 then 0x8F1BBCDC else 0xCA62C1D6
      (⟨x.a.rotateLeft 5 + f + x.e + k + w.getD t 0, x.a, x.b.rotateLeft 30, x.c, x.d⟩ : Working)
    let x := (List.range 80).foldl round ⟨e.h[0], e.h[1], e.h[2], e.h[3], e.h[4]⟩
    compress e = { h := #v[e.h[0] + x.a, e.h[1] + x.b, e.h[2] + x.c, e.h[3] + x.d, e.h[4] + x.e],
                   blk := Vector.replicate 64 0, ofs := 0, bits := e.bits, phase := e.phase }

/-- R97, R94, R77: SHA_DIGEST pads, compresses one or two blocks, writes the big-endian digest words to `DOUT`, and leaves the
hash consumed; it faults when no hash is active. -/
def Obligations.ShaDigestPadsAndWritesTheDigest : Prop :=
  ∀ s : State, engineReady s →
    (s.hash.phase ≠ .active → exec .shaDigest s = .next { s with fault := 0x0301 }) ∧
    (s.hash.phase = .active →
      let n := s.hash.ofs.toNat
      let len := fun i : Nat => if i = 62 then s.hash.bits.extractLsb' 8 8 else if i = 63 then s.hash.bits.extractLsb' 0 8 else 0
      let pad := fun i : Fin 64 => if i.val < n then s.hash.blk[i] else if i.val = n then (0x80 : Byte) else 0
      let h :=
        if n ≤ 55 then compressWords s.hash.h (Vector.ofFn fun i => if i.val < 56 then pad i else len i.val)
        else compressWords (compressWords s.hash.h (Vector.ofFn pad)) (Vector.ofFn fun i => len i.val)
      ∃ d : Digest, d.toList = h.toList.flatMap be32 ∧
        exec .shaDigest s = .next { s with
          hash := { h := h, blk := Vector.replicate 64 0, ofs := 0, bits := s.hash.bits, phase := .final }
          dout := d, doutValid := true, mphase := .idle })

/-- R98: the pseudo-instruction `sha1 M` writes SHA-1 of `M` to `DOUT` for every message of at most 8191 bytes, and changes only
the HashEngine, `MPHASE`, `DOUT` and `DOUT_VALID`; a longer message faults with LEN_OVERFLOW. SHA-1 itself is FIPS 180's
(log 15). -/
def Obligations.Sha1OfEveryMessage : Prop :=
  ∀ (s : State) (m : List Byte), engineReady s →
    (m.length ≤ 8191 → ∃ t, runFrames (Pseudo.sha1 m).expand s = .next t ∧ t.dout = Reference.sha1 m ∧
      t.hash.phase = .final ∧ t = { s with hash := t.hash, mphase := .idle, dout := t.dout, doutValid := true }) ∧
    (8191 < m.length → ∃ t, runFrames (Pseudo.sha1 m).expand s = .next t ∧
      t = { s with hash := t.hash, mphase := .idle, fault := 0x0202 })

/-- R99: after SHA_RESET the same updates and SHA_DIGEST leave the same digest, whatever state preceded the reset. -/
def Obligations.HashIsDeterministicFromReset : Prop :=
  ∀ (s s' : State) (parts : List (List Byte)), engineReady s → engineReady s' →
    ∃ t t', runFrames (.shaReset :: (parts.map .shaUpdate ++ [.shaDigest])) s = .next t ∧
      runFrames (.shaReset :: (parts.map .shaUpdate ++ [.shaDigest])) s' = .next t' ∧
      t.hash = t'.hash ∧ t.fcode = t'.fcode ∧ t.mphase = t'.mphase ∧
      (t.fcode = 0 → t.dout = t'.dout ∧ t.doutValid = true ∧ t'.doutValid = true)

/-! ## MacEngine -/

/-- R103, with the key block of R102 and the reset of R101: MAC_INIT. -/
def Obligations.MacInitAbsorbsTheKeyBlock : Prop :=
  ∀ (s : State) (key : List Byte), engineReady s →
    (key.length ≤ 64 → exec (.macInit key) s = .next { s with
      hash := { h := compressWords initialValue
                       (Vector.ofFn fun i : Fin 64 => if i.val < key.length then key.getD i.val 0 ^^^ 0x36 else 0x36)
                blk := Vector.replicate 64 0, ofs := 0, bits := 0x0200, phase := .active }
      mphase := .inner }) ∧
    (64 < key.length → exec (.macInit key) s = .next { s with fault := 0x1103 })

/-- R104, R108: MAC_UPDATE, and the HashEngine frames during a MAC. -/
def Obligations.MacUpdateFeedsTheHash : Prop :=
  ∀ (s : State) (data : List Byte), engineReady s →
    (s.mphase ≠ .inner → exec (.macUpdate data) s = .next { s with fault := 0x1204 }) ∧
    (s.mphase = .inner → s.hash.phase = .active →
      (s.hash.bits.toNat + 8 * data.length ≤ 0xFFFF →
        ∃ e, exec (.macUpdate data) s = .next { s with hash := e } ∧ exec (.shaUpdate data) s = .next { s with hash := e }) ∧
      (0xFFFF < s.hash.bits.toNat + 8 * data.length → exec (.macUpdate data) s = .next { s with fault := 0x1202 }) ∧
      (∃ t, exec .shaReset s = .next t ∧ t.mphase = .idle) ∧
      ∃ t, exec .shaDigest s = .next t ∧ t.mphase = .idle ∧ t.doutValid = true ∧ t.dout.toList = t.hash.h.toList.flatMap be32)

/-- R105: MAC_FINAL does what SHA_DIGEST, SHA_RESET, an update with the outer key block, an update with the inner digest and
SHA_DIGEST do to the HashEngine and to `DOUT`; the inner digest is visible nowhere. Its faults are tried in their order. -/
def Obligations.MacFinalRunsTheOuterHash : Prop :=
  ∀ (s : State) (key : List Byte), engineReady s →
    (64 < key.length → exec (.macFinal key) s = .next { s with fault := 0x1303 }) ∧
    (key.length ≤ 64 → s.mphase ≠ .inner → exec (.macFinal key) s = .next { s with fault := 0x1304 }) ∧
    (key.length ≤ 64 → s.mphase = .inner → s.hash.phase = .active →
      ∃ inner outer,
        exec .shaDigest s = .next inner ∧
        runFrames [.shaReset, .shaUpdate ((List.range 64).map fun i => if i < key.length then key.getD i 0 ^^^ 0x5C else 0x5C),
          .shaUpdate inner.dout.toList, .shaDigest] s = .next outer ∧
        exec (.macFinal key) s = .next { s with
          hash := outer.hash, dout := outer.dout, doutValid := true, mphase := .done } ∧
        outer.hash.phase = .final)

/-- R109, R108: the value a MAC computation writes, with any keys, the message split in any way over MAC_UPDATE and SHA_UPDATE
frames; it is HMAC only when the keys are equal. The reference is the model's (log 15). -/
def Obligations.MacOfTwoKeys : Prop :=
  ∀ (s : State) (k k' : List Byte) (parts : List (Bool × List Byte)), engineReady s → k.length ≤ 64 → k'.length ≤ 64 →
    (parts.map Prod.snd).flatten.length ≤ 8127 →
    ∃ t, runFrames (.macInit k :: (parts.map (fun p => if p.1 then .macUpdate p.2 else .shaUpdate p.2) ++ [.macFinal k'])) s =
        .next t ∧
      t.dout = Reference.nestedMac k k' (parts.map Prod.snd).flatten ∧ t.hash.phase = .final ∧
      t = { s with hash := t.hash, mphase := .done, dout := t.dout, doutValid := true }

/-- R110: the pseudo-instruction `hmac K, M` writes HMAC-SHA1 of RFC 2104 for every key of at most 64 bytes and message of at most
8127 bytes. RFC 2104's definition is the model's reference (log 15). -/
def Obligations.HmacOfEveryKeyAndMessage : Prop :=
  ∀ (s : State) (k m : List Byte), engineReady s → k.length ≤ 64 → m.length ≤ 8127 →
    ∃ t, runFrames (Pseudo.hmac k m).expand s = .next t ∧ t.dout = Reference.hmac k m ∧
      t = { s with hash := t.hash, mphase := .done, dout := t.dout, doutValid := true }

/-- R107: without a MAC_INIT no MAC is in progress again, whatever frames run, and MAC_UPDATE and MAC_FINAL fault. -/
def Obligations.OnlyMacInitStartsAMac : Prop :=
  ∀ (is : List Instr) (s t : State), configLegal s.cfg = true → s.mphase ≠ .inner → (∀ key, .macInit key ∉ is) →
    runFrames is s = .next t →
    t.mphase ≠ .inner ∧
    (engineReady t → (∀ data, exec (.macUpdate data) t = .next { t with fault := 0x1204 }) ∧
      ∀ key, key.length ≤ 64 → exec (.macFinal key) t = .next { t with fault := 0x1304 })

/-! ## OtpCodec -/

/-- R111, R112: OTP_TRUNC. -/
def Obligations.OtpTruncRendersThePassword : Prop :=
  ∀ s : State, engineReady s →
    (s.doutValid = false → exec .otpTrunc s = .next { s with fault := 0x2105 }) ∧
    (s.doutValid = true →
      ∃ (p code : Word) (pw : Vector Byte 6),
        exec .otpTrunc s = .next { s with truncP := p, code := code, pw := pw, pwValid := true } ∧
        (let off := s.dout[19].toNat % 16
         let at' := fun i => (s.dout.toList.getD (off + i) 0).toNat
         p.toNat = (if s.cfg.truncMask then at' 0 % 128 else at' 0) * 2 ^ 24 + at' 1 * 2 ^ 16 + at' 2 * 2 ^ 8 + at' 3) ∧
        code.toNat = p.toNat % 1000000 ∧
        ∀ i : Fin 6, pw[i].toNat = 0x30 + code.toNat / 10 ^ (5 - i.val) % 10)

/-- R113: the two firmware variants differ exactly when bit 7 of the first window byte is set, and neither changes `DOUT`
(42_otp.md section 1). -/
def Obligations.TruncMaskClearsOneBit : Prop :=
  ∀ s : State, engineReady s → s.doutValid = true →
    ∃ t u, exec .otpTrunc { s with cfg := { s.cfg with truncMask := true } } = .next t ∧
      exec .otpTrunc { s with cfg := { s.cfg with truncMask := false } } = .next u ∧
      t.truncP.toNat ≤ 0x7FFFFFFF ∧ t.truncP = u.truncP &&& 0x7FFFFFFF ∧
      (t.truncP ≠ u.truncP ↔ 0x80 ≤ s.dout.toList.getD (s.dout[19].toNat % 16) 0) ∧
      t.dout = s.dout ∧ u.dout = s.dout

/-- R115: the pseudo-instruction `hotp K, c` leaves the 6 digits of the HOTP value of RFC 4226 in `PW`. RFC 4226's
definition is the model's reference (log 15). -/
def Obligations.HotpOfEveryKeyAndCounter : Prop :=
  ∀ (s : State) (k : List Byte) (c : Word), engineReady s → k.length ≤ 64 →
    ∃ t, runFrames (Pseudo.hotp k c).expand s = .next t ∧ t.pwValid = true ∧ asciiDigits t.pw ∧
      Reference.decimalValue t.pw.toList = Reference.hotp s.cfg.truncMask k c.toNat ∧
      t = { s with hash := t.hash, mphase := .done, dout := t.dout, doutValid := true, truncP := t.truncP, code := t.code,
                   pw := t.pw, pwValid := true }

/-! ## TimeCounter -/

/-- R116 to R121, R123: TC_BCD. For a month outside 1 to 12 the counter is a free value: nothing is said of it but that it is
written (43_timecounter.md sections 1 and 2; log 4). -/
def Obligations.TcBcdDecodesTheClock : Prop :=
  ∀ (s : State) (b : ClockBytes), engineReady s →
    let bcdOf := fun x : Byte => 10 * (x.toNat / 16) + x.toNat % 16
    let year := bcdOf b.year
    let month := bcdOf b.month
    let days := 10957 + 365 * year + (year + 3) / 4 + [0, 31, 59, 90, 120, 151, 181, 212, 243, 273, 304, 334].getD (month - 1) 0 +
      (if year % 4 = 0 ∧ 2 < month then 1 else 0) + bcdOf b.day - 1
    let seconds := ((days * 24 + bcdOf b.hours) * 60 + bcdOf b.minutes) * 60 + bcdOf b.seconds
    ∃ c : Word,
      exec (.tcBcd b) s = .next { s with
        tcount := c
        tbuf := #v[0, 0, 0, 0, c.extractLsb' 24 8, c.extractLsb' 16 8, c.extractLsb' 8 8, c.extractLsb' 0 8]
        tbufValid := true
        draws := if 1 ≤ month ∧ month ≤ 12 then s.draws else s.draws + 1 } ∧
      (1 ≤ month → month ≤ 12 → c.toNat = seconds / 30 % 2 ^ 32)

/-- R125: for every UTC date and time of the years 2000 to 2099, TC_BCD writes Unix time div 30, whatever the weekday byte. The calendar
is the model's reference (log 15). -/
def Obligations.TcBcdIsUnixTimeOverThirty : Prop :=
  ∀ (s : State) (y m d h mi sec : Nat) (weekday : Byte), engineReady s → y < 100 → 1 ≤ m → m ≤ 12 → 1 ≤ d →
    d ≤ Reference.daysInMonth (2000 + y) m → h < 24 → mi < 60 → sec < 60 →
    ∃ t, exec (.tcBcd ⟨Reference.toBcd sec, Reference.toBcd mi, Reference.toBcd h, weekday, Reference.toBcd d, Reference.toBcd m,
        Reference.toBcd y⟩) s = .next t ∧
      t.tcount.toNat = Reference.unixTime (2000 + y) m d h mi sec / 30 ∧ Reference.unixTime (2000 + y) m d h mi sec < 2 ^ 32

/-- R124: TC_MONO uses the stored counter as it is and persists the next one, in either `TIME_SRC` mode, its four bytes in
increasing address order; an exhausted counter faults with no write. The order is said through the model's own log of store
writes (log 13). -/
def Obligations.TcMonoUsesAndAdvancesTheCounter : Prop :=
  ∀ s : State, engineReady s → configLegal s.cfg = true → Memory.wf s.nv = true →
    (storedCounter s.cfg s.nv = 2 ^ 32 - 1 → exec .tcMono s = .next { s with fault := 0x3208 }) ∧
    (storedCounter s.cfg s.nv ≠ 2 ^ 32 - 1 →
      ∃ (t : State) (c : Word),
        exec .tcMono s = .next t ∧ c.toNat = storedCounter s.cfg s.nv ∧
        t = { s with
          tcount := c
          tbuf := #v[0, 0, 0, 0, c.extractLsb' 24 8, c.extractLsb' 16 8, c.extractLsb' 8 8, c.extractLsb' 0 8]
          tbufValid := true
          nv := t.nv
          storeLog := s.storeLog ++
            List.zip ((List.range 4).map (s.cfg.nvTimeOfs + 4 + ·)) (be32 (BitVec.ofNat 32 (storedCounter s.cfg s.nv + 1))) } ∧
        storedCounter s.cfg t.nv = storedCounter s.cfg s.nv + 1 ∧
        ∀ a, ¬ (s.cfg.nvTimeOfs + 4 ≤ a ∧ a < s.cfg.nvTimeOfs + 8) → Memory.read a t.nv = Memory.read a s.nv)

/-- The monotonic counter (43_timecounter.md section 3): a frame other than HOST_SET_COUNTER leaves the stored counter, or uses it
and leaves the next one; so no sequence of such frames takes it back. -/
def Obligations.MonotonicCounterNeverDecreases : Prop :=
  (∀ (i : Instr) (s t : State), configLegal s.cfg = true → Memory.wf s.nv = true → (∀ v, i ≠ .hostSetCounter v) →
    exec i s = .next t →
    storedCounter t.cfg t.nv = storedCounter s.cfg s.nv ∨
      (storedCounter t.cfg t.nv = storedCounter s.cfg s.nv + 1 ∧ t.tcount.toNat = storedCounter s.cfg s.nv ∧
        (i = .tcMono ∨ ∃ b, i = .ctlPoll b ∧ triggers b s = true ∧ s.cfg.timeSrc = .mono))) ∧
  ∀ (is : List Instr) (s t : State), configLegal s.cfg = true → Memory.wf s.nv = true → (∀ v, .hostSetCounter v ∉ is) →
    runFrames is s = .next t → storedCounter s.cfg s.nv ≤ storedCounter t.cfg t.nv

/-- R126: with the monotonic counter, `N` generations take the stored counter from `c0` to `c0 + N`, and the next one uses
`c0 + N`, whatever frames stand between them, but for HOST_SET_COUNTER and TC_MONO (43_timecounter.md section 3;
70_reset_and_hazards.md section 4 for TC_MONO). -/
def Obligations.CounterCountsGenerations : Prop :=
  ∀ (is : List Instr) (s t : State), configLegal s.cfg = true → Memory.wf s.nv = true → s.cfg.timeSrc = .mono →
    (∀ v, .hostSetCounter v ∉ is) → .tcMono ∉ is → runFrames is s = .next t →
    storedCounter t.cfg t.nv = storedCounter s.cfg s.nv + generations is s ∧
    ∀ i, generates i t = true → ∃ u, exec i t = .next u ∧ u.tcount.toNat = storedCounter s.cfg s.nv + generations is s ∧
      storedCounter u.cfg u.nv = storedCounter s.cfg s.nv + generations is s + 1

/-! ## TokenController -/

/-- R130, with R129, R132, R133, R136, R137, R138: the rows of the transition table. -/
def Obligations.PollTransitions : Prop :=
  ∀ (s : State) (b : Byte), s.halted = false → b.toNat < 8 → configLegal s.cfg = true →
    let pressed := b.getLsbD 0 = false
    let slot := b.getLsbD 1 = true
    let link := b.getLsbD 2 = true
    let hold := if 0 < s.hold.toNat then s.hold - 1 else 0
    (s.cstate = .idle → link → exec (.ctlPoll b) s = .next { s with cstate := .waiting, hold := hold }) ∧
    (s.cstate = .idle → ¬ link → exec (.ctlPoll b) s = .next { s with hold := hold }) ∧
    (s.cstate = .waiting → s.tsetPend = true → exec (.ctlPoll b) s = .next { s with cstate := .settingTime, hold := hold }) ∧
    (s.cstate = .waiting → s.tsetPend = false → pressed → s.hold = 0 →
      ((s.cfg.timeSrc = .mono ∧ storedCounter s.cfg s.nv = 2 ^ 32 - 1 ∧ exec (.ctlPoll b) s = .next { s with fault := 0x4108 }) ∨
       ∃ t, exec (.ctlPoll b) s = .next t ∧ t.cstate = .sending ∧ t.idx = 0 ∧ t.hold = s.cfg.holdArm ∧ t.pwValid = true ∧
         t.fault = s.fault ∧ t.reports = s.reports ∧ t.clockWrites = s.clockWrites)) ∧
    (s.cstate = .waiting → s.tsetPend = false → ¬ (pressed ∧ s.hold = 0) →
      exec (.ctlPoll b) s = .next { s with hold := hold }) ∧
    (s.cstate = .settingTime → exec (.ctlPoll b) s = .next { s with
      clockWrites := s.clockWrites ++ [s.tset], tsetPend := false, cstate := .waiting, hold := hold }) ∧
    (∀ h : s.idx.toNat < 6, s.cstate = .sending → slot → 0x30 ≤ s.pw[s.idx.toNat] → s.pw[s.idx.toNat] ≤ 0x39 →
      exec (.ctlPoll b) s = .next { s with
        reports := s.reports ++ [digitReport s.pw[s.idx.toNat]], idx := s.idx + 1, cstate := .releasing, hold := hold }) ∧
    (s.cstate = .sending → ¬ slot → exec (.ctlPoll b) s = .next { s with hold := hold }) ∧
    (s.cstate = .releasing → slot → s.idx.toNat < 6 → exec (.ctlPoll b) s = .next { s with
      reports := s.reports ++ [#v[0, 0, 0, 0, 0, 0, 0, 0]], cstate := .sending, hold := hold }) ∧
    (s.cstate = .releasing → slot → s.idx.toNat = 6 → exec (.ctlPoll b) s = .next { s with
      reports := s.reports ++ [#v[0, 0, 0, 0, 0, 0, 0, 0]], cstate := .waiting, hold := hold }) ∧
    (s.cstate = .releasing → ¬ slot → exec (.ctlPoll b) s = .next { s with hold := hold })

/-- R131: the hold-counter, over every frame: armed by a poll that generates, counted down by every other poll, changed by no
other frame. -/
def Obligations.HoldCountsPollsOnly : Prop :=
  ∀ (i : Instr) (s t : State), configLegal s.cfg = true → s.halted = false → exec i s = .next t → t.fault = s.fault →
    (∀ b, i = .ctlPoll b → t.hold =
      if s.cstate = .waiting ∧ s.tsetPend = false ∧ b.getLsbD 0 = false ∧ s.hold = 0 then s.cfg.holdArm
      else if 0 < s.hold.toNat then s.hold - 1 else 0) ∧
    ((∀ b, i ≠ .ctlPoll b) → t.hold = s.hold)

/-- R74: the reserved bits of a poll. -/
def Obligations.ReservedBitsFault : Prop :=
  (∀ (s : State) (b : Byte), s.halted = false → b.extractLsb' 3 5 ≠ 0 →
    exec (.ctlPoll b) s = .next { s with fault := 0x4107 }) ∧
  ∀ (i : Instr) (s t : State), s.halted = false → exec i s = .next t → t.fcode = 0x07 → ∃ b, i = .ctlPoll b

/-- R134, R135, R127 with the external clock: the triggering poll generates the password of the clock's time in one frame. The
counter is what TC_BCD decodes from the clock's answer, which is the environment's next answer or, where it lists none, a free
value (44_controller.md section 3, 43_timecounter.md section 3; log 5). HMAC is the model's reference (log 15). -/
def Obligations.GenerationFromTheClock : Prop :=
  ∀ (s : State) (b : Byte), s.halted = false → configLegal s.cfg = true → Memory.wf s.nv = true → b.toNat < 8 →
    triggers b s = true → s.cfg.timeSrc = .ext →
    ∃ (t : State) (answer : ClockBytes) (c : Word),
      exec (.ctlPoll b) s = .next t ∧
      (s.clockAnswers = answer :: t.clockAnswers ∨ (s.clockAnswers = [] ∧ t.clockAnswers = [])) ∧
      (∀ c', bcdCounter answer = some c' → c = c') ∧
      Generation s t c ∧
      storedPassword s.cfg t.nv = t.pw.toList ∧
      ∀ a, ¬ (s.cfg.nvPwOfs ≤ a ∧ a < s.cfg.nvPwOfs + 6) → Memory.read a t.nv = Memory.read a s.nv

/-- R134, R135 with the monotonic counter: the triggering poll generates the password of the stored counter and persists the next
one; an exhausted counter faults with no other effect (44_controller.md section 3). HMAC is the model's reference (log 15). -/
def Obligations.GenerationFromTheCounter : Prop :=
  ∀ (s : State) (b : Byte), s.halted = false → configLegal s.cfg = true → Memory.wf s.nv = true → b.toNat < 8 →
    triggers b s = true → s.cfg.timeSrc = .mono →
    (storedCounter s.cfg s.nv = 2 ^ 32 - 1 → exec (.ctlPoll b) s = .next { s with fault := 0x4108 }) ∧
    (storedCounter s.cfg s.nv ≠ 2 ^ 32 - 1 →
      ∃ (t : State) (c : Word),
        exec (.ctlPoll b) s = .next t ∧ c.toNat = storedCounter s.cfg s.nv ∧ Generation s t c ∧
        t.clockAnswers = s.clockAnswers ∧ t.draws = s.draws ∧
        storedCounter s.cfg t.nv = storedCounter s.cfg s.nv + 1 ∧
        storedPassword s.cfg t.nv = t.pw.toList ∧
        ∀ a, ¬ (s.cfg.nvPwOfs ≤ a ∧ a < s.cfg.nvPwOfs + 6) → ¬ (s.cfg.nvTimeOfs + 4 ≤ a ∧ a < s.cfg.nvTimeOfs + 8) →
          Memory.read a t.nv = Memory.read a s.nv)

/-- R60: in a generation of `MONO` mode the single-byte writes are the 4 bytes of the next counter, then the 6 bytes of the
password, and no report is sent in that frame; a report of either kind, key-down or key-up, is sent only by a frame that found
the controller in `Sending` or `Releasing`. The order of the writes is said through the model's own log of store writes
(log 13). -/
def Obligations.CounterIsPersistedBeforeThePassword : Prop :=
  (∀ (s t : State) (b : Byte), configLegal s.cfg = true → triggers b s = true → s.cfg.timeSrc = .mono → s.halted = false →
    exec (.ctlPoll b) s = .next t → t.fault = s.fault →
    t.reports = s.reports ∧
    t.storeLog = s.storeLog ++
      (List.zip ((List.range 4).map (s.cfg.nvTimeOfs + 4 + ·)) (be32 (BitVec.ofNat 32 (storedCounter s.cfg s.nv + 1))) ++
       List.zip ((List.range 6).map (s.cfg.nvPwOfs + ·)) t.pw.toList) ∧
    t.nv = Memory.writeAll (t.storeLog.drop s.storeLog.length) s.nv) ∧
  ∀ (i : Instr) (s t : State), configLegal s.cfg = true → exec i s = .next t → t.reports ≠ s.reports →
    s.cstate = .sending ∨ s.cstate = .releasing

/-- R143: while `HOLD > 0`, and outside `Waiting`, no poll generates: no result register, no engine register and no byte of the
store changes (44_controller.md section 5). -/
def Obligations.NoGenerationWhileHeldOrEmitting : Prop :=
  ∀ (s t : State) (b : Byte), configLegal s.cfg = true → (s.hold ≠ 0 ∨ s.cstate ≠ .waiting) →
    exec (.ctlPoll b) s = .next t →
    t = { s with cstate := t.cstate, idx := t.idx, hold := t.hold, tsetPend := t.tsetPend, fault := t.fault,
                 reports := t.reports, clockWrites := t.clockWrites } ∧
    (t.cstate = .sending → s.cstate = .sending ∨ s.cstate = .releasing)

/-- R142: an emission cycle. Polls without a slot, polls in any number and host-channel frames may stand between; the `n`-th
poll with a slot sends the `n`-th report of the cycle, the twelfth ends it, and `PW` does not change. -/
def Obligations.EmissionCycleIsTwelveReports : Prop :=
  ∀ (s : State) (is : List Instr), configLegal s.cfg = true → s.halted = false → s.cstate = .sending → s.idx = 0 →
    asciiDigits s.pw → (∀ i ∈ is, cycleFrame i = true) → (is.filter slotPoll).length ≤ 11 →
    ∃ t, runFrames is s = .next t ∧ t.halted = false ∧ t.pw = s.pw ∧ t.emitting = true ∧
      t.reports = s.reports ++ (cycleReports s.pw).take (is.filter slotPoll).length ∧
      ((is.filter slotPoll).length = 11 → ∀ b : Byte, b.toNat < 8 → b.getLsbD 1 = true →
        ∃ u, exec (.ctlPoll b) t = .next u ∧ u.reports = s.reports ++ cycleReports s.pw ∧ u.cstate = .waiting ∧ u.idx = 6 ∧
          u.pw = s.pw)

/-- R144: a button held down re-triggers every `max(HOLD_ARM + 1, 13)` polls (44_controller.md section 5). -/
def Obligations.HeldButtonRetriggers : Prop :=
  ∀ (s : State) (k : Nat), configLegal s.cfg = true → s.halted = false → s.cstate = .waiting → s.tsetPend = false → s.hold = 0 →
    (s.cfg.timeSrc = .mono → storedCounter s.cfg s.nv ≠ 2 ^ 32 - 1) →
    let period := max (s.cfg.holdArm.toNat + 1) 13
    k ≤ period →
    ∃ t, runFrames (List.replicate k (.ctlPoll 0x06)) s = .next t ∧ (triggers 0x06 t = true ↔ k = 0 ∨ k = period)

/-! ## Host channel -/

/-- R139: HOST_PROVISION, its store writes in their order: the length byte, then the secret bytes by increasing address. The
order is said through the model's own log of store writes (log 13). -/
def Obligations.HostProvisionWritesTheSecret : Prop :=
  ∀ (s : State) (secret : List Byte), s.halted = false → configLegal s.cfg = true → Memory.wf s.nv = true →
    (¬ (1 ≤ secret.length ∧ secret.length ≤ 64) → exec (.hostProvision secret) s = .next { s with hostResult := .rejected }) ∧
    (1 ≤ secret.length → secret.length ≤ 64 →
      ∃ t, exec (.hostProvision secret) s = .next t ∧
        t = { s with
          hostResult := .accepted
          nv := t.nv
          storeLog := s.storeLog ++
            (s.cfg.nvLenOfs, BitVec.ofNat 8 secret.length) ::
              List.zip ((List.range secret.length).map (s.cfg.nvSecretOfs + ·)) secret } ∧
        (Memory.read s.cfg.nvLenOfs t.nv).toNat = secret.length ∧
        storedSecret s.cfg t.nv = secret ∧
        ∀ a, a ≠ s.cfg.nvLenOfs → ¬ (s.cfg.nvSecretOfs ≤ a ∧ a < s.cfg.nvSecretOfs + secret.length) →
          Memory.read a t.nv = Memory.read a s.nv)

/-- R140: HOST_SET_TIME. -/
def Obligations.HostSetTimeRequestsTheClock : Prop :=
  ∀ (s : State) (b : ClockBytes), s.halted = false →
    (s.cfg.hasSetTime = true →
      exec (.hostSetTime b) s = .next { s with tset := b, tsetPend := true, hostResult := .accepted }) ∧
    (s.cfg.hasSetTime = false → exec (.hostSetTime b) s = .next { s with hostResult := .rejected })

/-- R141: HOST_SET_COUNTER, its store writes in their order: the eight bytes of the time region by increasing address. The
order is said through the model's own log of store writes (log 13). -/
def Obligations.HostSetCounterWritesTheCounter : Prop :=
  ∀ (s : State) (cval : Word), s.halted = false → configLegal s.cfg = true → Memory.wf s.nv = true →
    (s.cfg.timeSrc = .ext → exec (.hostSetCounter cval) s = .next { s with hostResult := .rejected }) ∧
    (s.cfg.timeSrc = .mono →
      ∃ t, exec (.hostSetCounter cval) s = .next t ∧
        t = { s with
          hostResult := .accepted
          nv := t.nv
          storeLog := s.storeLog ++ List.zip ((List.range 8).map (s.cfg.nvTimeOfs + ·)) ([0, 0, 0, 0] ++ be32 cval) } ∧
        storedCounter s.cfg t.nv = cval.toNat ∧
        (∀ k, k < 4 → Memory.read (s.cfg.nvTimeOfs + k) t.nv = 0) ∧
        ∀ a, ¬ (s.cfg.nvTimeOfs ≤ a ∧ a < s.cfg.nvTimeOfs + 8) → Memory.read a t.nv = Memory.read a s.nv)

/-! ## Registers, store, reset -/

/-- R37, R38: the fields of `STATUS` and `CONFIG`, the reserved ones reading 0; no frame changes `CONFIG`. -/
def Obligations.StatusAndConfigFields : Prop :=
  (∀ s : State,
    s.status.extractLsb' 0 2 = s.hash.phase.bits ∧ s.status.extractLsb' 2 2 = s.mphase.bits ∧
    s.status.getLsbD 4 = s.doutValid ∧ s.status.getLsbD 5 = s.pwValid ∧ s.status.getLsbD 6 = s.tbufValid ∧
    s.status.getLsbD 7 = (s.fcode != 0) ∧ s.status.extractLsb' 8 3 = s.cstate.bits ∧ s.status.getLsbD 11 = false ∧
    s.status.extractLsb' 12 3 = s.idx ∧ s.status.getLsbD 15 = s.tsetPend ∧ s.status.extractLsb' 16 2 = s.hostResult.bits ∧
    s.status.extractLsb' 18 6 = 0 ∧ s.status.extractLsb' 24 8 = s.hold ∧
    (s.configReg.getLsbD 0 = true ↔ s.cfg.timeSrc = .mono) ∧ s.configReg.getLsbD 1 = s.cfg.truncMask ∧
    s.configReg.getLsbD 2 = s.cfg.hasSetTime ∧ s.configReg.extractLsb' 3 5 = 0 ∧
    s.configReg.extractLsb' 8 8 = s.cfg.holdArm ∧ s.configReg.extractLsb' 16 16 = 0) ∧
  (∀ (i : Instr) (s t : State), exec i s = .next t → t.configReg = s.configReg) ∧
  HPhase.uninit.bits = 0 ∧ HPhase.active.bits = 1 ∧ HPhase.final.bits = 2 ∧
  MPhase.idle.bits = 0 ∧ MPhase.inner.bits = 1 ∧ MPhase.done.bits = 2 ∧
  CState.idle.bits = 0 ∧ CState.waiting.bits = 1 ∧ CState.sending.bits = 2 ∧ CState.releasing.bits = 3 ∧
  CState.settingTime.bits = 4 ∧
  HostResult.none.bits = 0 ∧ HostResult.accepted.bits = 1 ∧ HostResult.rejected.bits = 2

/-- Which frames may change which register (10_state.md sections 2 to 8 and 10, 20_memory.md section 1): every other frame leaves
it; the valid flags are never cleared; only HOST_SET_TIME sets `TSET_PEND`, and only a poll that found `SettingTime` clears it; no
frame leads back to `Idle`; no frame changes the configuration, the undelivered stream or the power input. -/
def Obligations.RegistersChangeOnlyByTheirFrames : Prop :=
  ∀ (i : Instr) (s t : State), configLegal s.cfg = true → exec i s = .next t →
    let poll := i.opcode = 0x41
    (t.hash ≠ s.hash → i.opcode ∈ [0x01, 0x02, 0x03, 0x11, 0x12, 0x13] ∨ poll) ∧
    (t.mphase ≠ s.mphase → i.opcode ∈ [0x01, 0x03, 0x11, 0x13] ∨ poll) ∧
    (t.dout ≠ s.dout ∨ t.doutValid ≠ s.doutValid → i.opcode ∈ [0x03, 0x13] ∨ poll) ∧
    (t.truncP ≠ s.truncP ∨ t.code ≠ s.code ∨ t.pw ≠ s.pw ∨ t.pwValid ≠ s.pwValid → i.opcode = 0x21 ∨ poll) ∧
    (t.tbuf ≠ s.tbuf ∨ t.tcount ≠ s.tcount ∨ t.tbufValid ≠ s.tbufValid → i.opcode ∈ [0x31, 0x32] ∨ poll) ∧
    (t.cstate ≠ s.cstate ∨ t.idx ≠ s.idx ∨ t.hold ≠ s.hold → poll) ∧
    (t.tset ≠ s.tset → i.opcode = 0x52) ∧
    (s.tsetPend = false → t.tsetPend = true → i.opcode = 0x52) ∧
    (s.tsetPend = true → t.tsetPend = false → poll ∧ s.cstate = .settingTime) ∧
    (t.hostResult ≠ s.hostResult → i.opcode ∈ [0x51, 0x52, 0x53]) ∧
    (t.nv ≠ s.nv → i.opcode ∈ [0x32, 0x51, 0x53] ∨ poll) ∧
    (t.reports ≠ s.reports ∨ t.clockWrites ≠ s.clockWrites ∨ t.clockAnswers ≠ s.clockAnswers → poll) ∧
    t.cfg = s.cfg ∧ t.stream = s.stream ∧ t.power = s.power ∧
    (s.doutValid = true → t.doutValid = true) ∧ (s.pwValid = true → t.pwValid = true) ∧
    (s.tbufValid = true → t.tbufValid = true) ∧ (t.cstate = .idle → s.cstate = .idle)

/-- The store outside the four regions (20_memory.md section 1): no frame writes a byte there, and what a byte there holds makes no
difference to any frame. -/
def Obligations.StoreOutsideTheRegionsDoesNotMatter : Prop :=
  ∀ (i : Instr) (s t : State) (a : Nat) (v : Byte), configLegal s.cfg = true → Memory.wf s.nv = true → ¬ inRegion s.cfg a →
    exec i s = .next t →
    Memory.read a t.nv = Memory.read a s.nv ∧
    exec i { s with nv := Memory.write a v s.nv } = .next { t with nv := Memory.write a v t.nv }

/-- `NVWrite` and `NVRead` (20_memory.md sections 3 and 4): the single-byte writes in increasing address order, every other byte as
before, and a read that returns the most recent write. The order is said through the model's own log of store writes
(log 13). -/
def Obligations.NvReadReturnsTheMostRecentWrite : Prop :=
  ∀ (s : State) (a : Nat) (v : List Byte), Memory.wf s.nv = true → a + v.length ≤ s.cfg.nvSize →
    ∃ t, nvWrite a v s = .ok t ∧
      t = { s with nv := t.nv, storeLog := s.storeLog ++ List.zip ((List.range v.length).map (a + ·)) v } ∧
      (∀ x, ¬ (a ≤ x ∧ x < a + v.length) → Memory.read x t.nv = Memory.read x s.nv) ∧
      nvRead a v.length t = .ok v ∧ Memory.wf t.nv = true

/-- R162: power-on reset, and the step in which power is lost between two frames. Nothing is said of the registers to which R46
gives no value. That the loss is an input of the step is the model's choice (log 12), and that the straps latched again are the
ones before is its inference (log 16). -/
def Obligations.PowerOnResetClearsTheCore : Prop :=
  ∀ s : State,
    (configLegal s.cfg = true → s.power = some .between → step s = .next (powerOnReset s)) ∧
    (let t := powerOnReset s
     t.hash.phase = .uninit ∧ t.mphase = .idle ∧ t.doutValid = false ∧ t.pwValid = false ∧ t.tbufValid = false ∧
     t.cstate = .idle ∧ t.idx = 0 ∧ t.hold = 0 ∧ t.tsetPend = false ∧ t.hostResult = .none ∧ t.fault = 0 ∧
     t.cfg = s.cfg ∧ t.configReg = s.configReg ∧
     t.nv = s.nv ∧ t.reports = s.reports ∧ t.clockWrites = s.clockWrites ∧ t.clockAnswers = s.clockAnswers ∧
     t.stream = s.stream)

/-- R165: power lost inside a frame. The reports and clock writes made stay made, the store keeps the single-byte writes that
completed, in their order, and the byte being written, if there is one, holds any value; then the power-on reset. That the loss is
an input of the step, which takes the frame's bytes off the stream, is the model's choice (log 12), as is the log of store writes
(log 13); that the configuration stays is its inference (log 16). -/
def Obligations.PowerLossKeepsAPrefix : Prop :=
  ∀ (s t : State) (i : Instr) (rest : List Byte) (done : Nat) (torn : Bool), configLegal s.cfg = true → Memory.wf s.nv = true →
    s.power = some (.within done torn) → i.wellFormed = true → s.stream = encode i ++ rest →
    exec i { s with stream := rest, storeLog := [] } = .next t →
    t.nv = Memory.writeAll t.storeLog s.nv ∧
    ∃ u v, step s = .next u ∧ u = powerOnReset v ∧ u.cfg = s.cfg ∧ u.stream = rest ∧
      (∀ a, (torn = true → ∀ c, t.storeLog[done]? = some c → c.1 ≠ a) →
        Memory.read a u.nv = Memory.read a (Memory.writeAll (t.storeLog.take done) s.nv)) ∧
      (∃ sent, t.reports = s.reports ++ sent ∧ u.reports = s.reports ++ sent.take done) ∧
      ∃ made, t.clockWrites = s.clockWrites ++ made ∧ u.clockWrites = s.clockWrites ++ made.take done

/-- R166: power lost inside a generation of `MONO` mode that uses the counter `c`; no digit has been sent. Once the 4 counter bytes
are written the store holds `c + 1`, and from there on, until a HOST_SET_COUNTER or another power loss, every generation uses a
counter above `c`: after `n` generations the next one uses `c + 1 + n`, if no TC_MONO has taken a counter. Before that the counter
bytes are those of `c` with a prefix of the bytes of `c + 1` over them and any value in the byte being written, and nothing is said
of the counter they make. The power input is log 12, the configuration kept is log 16. -/
def Obligations.PowerLossInAMonoGeneration : Prop :=
  ∀ (s : State) (b : Byte) (rest : List Byte) (done : Nat) (torn : Bool), configLegal s.cfg = true → Memory.wf s.nv = true →
    s.halted = false → b.toNat < 8 → triggers b s = true → s.cfg.timeSrc = .mono → storedCounter s.cfg s.nv ≠ 2 ^ 32 - 1 →
    s.power = some (.within done torn) → s.stream = encode (.ctlPoll b) ++ rest →
    ∃ u, step s = .next u ∧ u.reports = s.reports ∧
      (4 ≤ done →
        storedCounter u.cfg u.nv = storedCounter s.cfg s.nv + 1 ∧
        ∀ (is : List Instr) (t : State) (i : Instr), (∀ v, .hostSetCounter v ∉ is) → runFrames is u = .next t →
          generates i t = true →
          ∃ w, exec i t = .next w ∧ storedCounter s.cfg s.nv < w.tcount.toNat ∧
            (.tcMono ∉ is → w.tcount.toNat = storedCounter s.cfg s.nv + 1 + generations is u)) ∧
      ∀ k, k < 4 →
        (k < done → Memory.read (s.cfg.nvTimeOfs + 4 + k) u.nv =
          (be32 (BitVec.ofNat 32 (storedCounter s.cfg s.nv + 1))).getD k 0) ∧
        (done < k ∨ (k = done ∧ torn = false) →
          Memory.read (s.cfg.nvTimeOfs + 4 + k) u.nv = Memory.read (s.cfg.nvTimeOfs + 4 + k) s.nv)

/-! ## The invariant -/

/-- The state after a first power-on meets the invariant, whatever the configuration and whatever canonical store image inside
the store it starts with; so does State.reset. -/
def Obligations.ResetMeetsTheInvariant : Prop :=
  Inv State.reset ∧
  ∀ (c : Config) (image : Memory), Memory.wf image = true → Memory.inside c.nvSize image = true → Inv (State.initial c image)

/-- Every step keeps the invariant: the canonical store, the index and phase relations, the password and time-buffer values, the
counts of the HashEngine, the fault codes. -/
def Obligations.EveryStepKeepsTheInvariant : Prop :=
  ∀ s t : State, Inv s → step s = .next t → Inv t

/-- R46: no frame reads a register that has no value. Two states that differ only in registers no frame has written since reset
are not told apart by any frame: what the model put into them (log 1) shows nowhere else (10_state.md section 11). -/
def Obligations.NoFrameReadsAValuelessRegister : Prop :=
  ∀ (i : Instr) (s : State), Inv s → configLegal s.cfg = true → scrubOutcome (exec i s) = scrubOutcome (exec i (scrub s))
end

