-- ==== Sys2Proof/Laws/Encoding.lean ====
section
/-! SUPPORT. Lemmas about the decoder, the encoder and the frame length: big-endian words both ways, the operands of each
format both ways. -/

namespace Sys2Proof.Machine

theorem append_byte_toNat {n : Nat} (x : BitVec n) (y : Byte) : (x ++ y).toNat = x.toNat * 256 + y.toNat := by
  rw [BitVec.toNat_append, ← Nat.shiftLeft_add_eq_or_of_lt y.isLt, Nat.shiftLeft_eq]

/-- `ReadBE32` as a number. -/
theorem readBE32_toNat (a b c d : Byte) :
    (readBE32 a b c d).toNat = a.toNat * 2 ^ 24 + b.toNat * 2 ^ 16 + c.toNat * 2 ^ 8 + d.toNat := by
  show (a ++ b ++ c ++ d).toNat = _
  rw [append_byte_toNat, append_byte_toNat, append_byte_toNat]
  omega

/-- A byte of a word as a number. -/
theorem extract_byte_toNat {n : Nat} (v : BitVec n) (k : Nat) : (v.extractLsb' k 8).toNat = v.toNat / 2 ^ k % 256 := by
  rw [BitVec.extractLsb'_toNat, Nat.shiftRight_eq_div_pow]

/-- The four bytes of `BE32` read back as the word. -/
theorem readBE32_be32 (v : Word) :
    readBE32 (v.extractLsb' 24 8) (v.extractLsb' 16 8) (v.extractLsb' 8 8) (v.extractLsb' 0 8) = v := by
  apply BitVec.eq_of_toNat_eq
  rw [readBE32_toNat]
  simp only [extract_byte_toNat]
  have := v.isLt
  omega

/-- Four bytes read as a word are its `BE32`. -/
theorem be32_readBE32 (a b c d : Byte) : be32 (readBE32 a b c d) = [a, b, c, d] := by
  have ha := a.isLt
  have hb := b.isLt
  have hc := c.isLt
  have hd := d.isLt
  unfold be32
  simp only [List.cons.injEq, and_true]
  refine ⟨?_, ?_, ?_, ?_⟩ <;>
  · apply BitVec.eq_of_toNat_eq
    rw [extract_byte_toNat, readBE32_toNat]
    omega

@[simp] theorem be32_length (v : Word) : (be32 v).length = 4 := rfl

end Sys2Proof.Machine

namespace Sys2Proof

open Machine

theorem length_byte {data : List Byte} (h : dataFits data = true) : (BitVec.ofNat 8 data.length).toNat = data.length := by
  have : data.length ≤ 255 := by simpa [dataFits] using h
  simp only [BitVec.toNat_ofNat]
  omega

/-! ## Operands of each format, encoded and decoded -/

theorem decodeData_encodeData (mk : List Byte → Instr) {data : List Byte} (rest : List Byte) (h : dataFits data = true) :
    decodeData mk (encodeData data ++ rest) = .frame (mk data) rest := by
  simp [encodeData, decodeData, -BitVec.toNat_ofNat, length_byte h]

theorem decodeClock_encodeClock (mk : ClockBytes → Instr) (b : ClockBytes) (rest : List Byte) :
    decodeClock mk (encodeClock b ++ rest) = .frame (mk b) rest := rfl

theorem decodeWord_be32 (mk : Word → Instr) (v : Word) (rest : List Byte) :
    decodeWord mk (be32 v ++ rest) = .frame (mk v) rest := by
  simp [be32, decodeWord, readBE32_be32]

/-- A format L operand that decodes was the encoding of data that fits. -/
theorem decodeData_frame {mk : List Byte → Instr} {bs : List Byte} {i : Instr} {rest : List Byte}
    (h : decodeData mk bs = .frame i rest) :
    ∃ data, i = mk data ∧ dataFits data = true ∧ bs = encodeData data ++ rest := by
  cases bs with
  | nil => cases h
  | cons len bs =>
    simp only [decodeData] at h
    split at h
    · next hle =>
      cases h
      have hl := len.isLt
      refine ⟨bs.take len.toNat, rfl, ?_, ?_⟩
      · simp only [dataFits, List.length_take, decide_eq_true_eq]
        omega
      · have : (bs.take len.toNat).length = len.toNat := by simp [hle]
        simp [encodeData, this]
    · cases h

theorem decodeClock_frame {mk : ClockBytes → Instr} {bs : List Byte} {i : Instr} {rest : List Byte}
    (h : decodeClock mk bs = .frame i rest) : ∃ b, i = mk b ∧ bs = encodeClock b ++ rest := by
  unfold decodeClock at h
  split at h
  · cases h
    exact ⟨_, rfl, rfl⟩
  · cases h

theorem decodeWord_frame {mk : Word → Instr} {bs : List Byte} {i : Instr} {rest : List Byte}
    (h : decodeWord mk bs = .frame i rest) : ∃ v, i = mk v ∧ bs = be32 v ++ rest := by
  unfold decodeWord at h
  split at h
  · cases h
    exact ⟨_, rfl, by rw [be32_readBE32]; rfl⟩
  · cases h

theorem decodePins_frame {mk : Byte → Instr} {bs : List Byte} {i : Instr} {rest : List Byte}
    (h : decodePins mk bs = .frame i rest) : ∃ b, i = mk b ∧ bs = b :: rest := by
  unfold decodePins at h
  split at h
  · cases h
    exact ⟨_, rfl, rfl⟩
  · cases h

/-- The operand decoders never answer an illegal opcode. -/
theorem decodeData_not_illegal {mk : List Byte → Instr} {bs : List Byte} {opc : Byte} {rest : List Byte} :
    decodeData mk bs ≠ .illegalOpcode opc rest := by
  unfold decodeData
  split
  · simp
  · split <;> simp

theorem decodeClock_not_illegal {mk : ClockBytes → Instr} {bs : List Byte} {opc : Byte} {rest : List Byte} :
    decodeClock mk bs ≠ .illegalOpcode opc rest := by
  unfold decodeClock
  split <;> simp

theorem decodeWord_not_illegal {mk : Word → Instr} {bs : List Byte} {opc : Byte} {rest : List Byte} :
    decodeWord mk bs ≠ .illegalOpcode opc rest := by
  unfold decodeWord
  split <;> simp

theorem decodePins_not_illegal {mk : Byte → Instr} {bs : List Byte} {opc : Byte} {rest : List Byte} :
    decodePins mk bs ≠ .illegalOpcode opc rest := by
  unfold decodePins
  split <;> simp

/-! ## The opcode map -/

/-- An opcode byte is illegal exactly when it is none of the 13 (R72, R73). -/
theorem formatOf_eq_none {opc : Byte} :
    formatOf opc = none ↔
      opc ≠ Opcode.shaReset ∧ opc ≠ Opcode.shaUpdate ∧ opc ≠ Opcode.shaDigest ∧ opc ≠ Opcode.macInit ∧
      opc ≠ Opcode.macUpdate ∧ opc ≠ Opcode.macFinal ∧ opc ≠ Opcode.otpTrunc ∧ opc ≠ Opcode.tcBcd ∧ opc ≠ Opcode.tcMono ∧
      opc ≠ Opcode.ctlPoll ∧ opc ≠ Opcode.hostProvision ∧ opc ≠ Opcode.hostSetTime ∧ opc ≠ Opcode.hostSetCounter := by
  simp only [formatOf, opcodeMap, List.lookup_eq_none_iff, List.forall_mem_cons, bne_iff_ne, ne_eq]
  simp

/-- The decoder answers an illegal opcode exactly for an opcode byte outside the map. -/
theorem decode_of_illegal {opc : Byte} (bs : List Byte) (h : formatOf opc = none) :
    decode (opc :: bs) = .illegalOpcode opc bs := by
  obtain ⟨h1, h2, h3, h4, h5, h6, h7, h8, h9, h10, h11, h12, h13⟩ := formatOf_eq_none.1 h
  simp only [decode, h1, h2, h3, h4, h5, h6, h7, h8, h9, h10, h11, h12, h13, if_false]

end Sys2Proof
end

