-- ==== Sys2Proof/Laws/State.lean ====
section
/-! SUPPORT. One lemma per field per update of the state: what each named operation leaves in each field, by rfl, so that no
later proof unfolds a record update. -/

namespace Sys2Proof.Machine

/-! ## takeFault -/

@[simp] theorem takeFault_cfg (c : FaultCode) (o : Byte) (s : State) : (takeFault c o s).cfg = s.cfg := rfl
@[simp] theorem takeFault_hash (c : FaultCode) (o : Byte) (s : State) : (takeFault c o s).hash = s.hash := rfl
@[simp] theorem takeFault_mphase (c : FaultCode) (o : Byte) (s : State) : (takeFault c o s).mphase = s.mphase := rfl
@[simp] theorem takeFault_dout (c : FaultCode) (o : Byte) (s : State) : (takeFault c o s).dout = s.dout := rfl
@[simp] theorem takeFault_doutValid (c : FaultCode) (o : Byte) (s : State) : (takeFault c o s).doutValid = s.doutValid := rfl
@[simp] theorem takeFault_truncP (c : FaultCode) (o : Byte) (s : State) : (takeFault c o s).truncP = s.truncP := rfl
@[simp] theorem takeFault_code (c : FaultCode) (o : Byte) (s : State) : (takeFault c o s).code = s.code := rfl
@[simp] theorem takeFault_pw (c : FaultCode) (o : Byte) (s : State) : (takeFault c o s).pw = s.pw := rfl
@[simp] theorem takeFault_pwValid (c : FaultCode) (o : Byte) (s : State) : (takeFault c o s).pwValid = s.pwValid := rfl
@[simp] theorem takeFault_tbuf (c : FaultCode) (o : Byte) (s : State) : (takeFault c o s).tbuf = s.tbuf := rfl
@[simp] theorem takeFault_tcount (c : FaultCode) (o : Byte) (s : State) : (takeFault c o s).tcount = s.tcount := rfl
@[simp] theorem takeFault_tbufValid (c : FaultCode) (o : Byte) (s : State) : (takeFault c o s).tbufValid = s.tbufValid := rfl
@[simp] theorem takeFault_cstate (c : FaultCode) (o : Byte) (s : State) : (takeFault c o s).cstate = s.cstate := rfl
@[simp] theorem takeFault_idx (c : FaultCode) (o : Byte) (s : State) : (takeFault c o s).idx = s.idx := rfl
@[simp] theorem takeFault_hold (c : FaultCode) (o : Byte) (s : State) : (takeFault c o s).hold = s.hold := rfl
@[simp] theorem takeFault_tset (c : FaultCode) (o : Byte) (s : State) : (takeFault c o s).tset = s.tset := rfl
@[simp] theorem takeFault_tsetPend (c : FaultCode) (o : Byte) (s : State) : (takeFault c o s).tsetPend = s.tsetPend := rfl
@[simp] theorem takeFault_hostResult (c : FaultCode) (o : Byte) (s : State) : (takeFault c o s).hostResult = s.hostResult := rfl
@[simp] theorem takeFault_fault (c : FaultCode) (o : Byte) (s : State) : (takeFault c o s).fault = o ++ c.byte := rfl
@[simp] theorem takeFault_nv (c : FaultCode) (o : Byte) (s : State) : (takeFault c o s).nv = s.nv := rfl
@[simp] theorem takeFault_stream (c : FaultCode) (o : Byte) (s : State) : (takeFault c o s).stream = s.stream := rfl
@[simp] theorem takeFault_clockAnswers (c : FaultCode) (o : Byte) (s : State) : (takeFault c o s).clockAnswers = s.clockAnswers := rfl
@[simp] theorem takeFault_clockWrites (c : FaultCode) (o : Byte) (s : State) : (takeFault c o s).clockWrites = s.clockWrites := rfl
@[simp] theorem takeFault_reports (c : FaultCode) (o : Byte) (s : State) : (takeFault c o s).reports = s.reports := rfl
@[simp] theorem takeFault_power (c : FaultCode) (o : Byte) (s : State) : (takeFault c o s).power = s.power := rfl
@[simp] theorem takeFault_draws (c : FaultCode) (o : Byte) (s : State) : (takeFault c o s).draws = s.draws := rfl
@[simp] theorem takeFault_storeLog (c : FaultCode) (o : Byte) (s : State) : (takeFault c o s).storeLog = s.storeLog := rfl

/-! ## storeCells -/

@[simp] theorem storeCells_cfg (cs : List Host.Cell) (s : State) : (storeCells cs s).cfg = s.cfg := rfl
@[simp] theorem storeCells_hash (cs : List Host.Cell) (s : State) : (storeCells cs s).hash = s.hash := rfl
@[simp] theorem storeCells_mphase (cs : List Host.Cell) (s : State) : (storeCells cs s).mphase = s.mphase := rfl
@[simp] theorem storeCells_dout (cs : List Host.Cell) (s : State) : (storeCells cs s).dout = s.dout := rfl
@[simp] theorem storeCells_doutValid (cs : List Host.Cell) (s : State) : (storeCells cs s).doutValid = s.doutValid := rfl
@[simp] theorem storeCells_truncP (cs : List Host.Cell) (s : State) : (storeCells cs s).truncP = s.truncP := rfl
@[simp] theorem storeCells_code (cs : List Host.Cell) (s : State) : (storeCells cs s).code = s.code := rfl
@[simp] theorem storeCells_pw (cs : List Host.Cell) (s : State) : (storeCells cs s).pw = s.pw := rfl
@[simp] theorem storeCells_pwValid (cs : List Host.Cell) (s : State) : (storeCells cs s).pwValid = s.pwValid := rfl
@[simp] theorem storeCells_tbuf (cs : List Host.Cell) (s : State) : (storeCells cs s).tbuf = s.tbuf := rfl
@[simp] theorem storeCells_tcount (cs : List Host.Cell) (s : State) : (storeCells cs s).tcount = s.tcount := rfl
@[simp] theorem storeCells_tbufValid (cs : List Host.Cell) (s : State) : (storeCells cs s).tbufValid = s.tbufValid := rfl
@[simp] theorem storeCells_cstate (cs : List Host.Cell) (s : State) : (storeCells cs s).cstate = s.cstate := rfl
@[simp] theorem storeCells_idx (cs : List Host.Cell) (s : State) : (storeCells cs s).idx = s.idx := rfl
@[simp] theorem storeCells_hold (cs : List Host.Cell) (s : State) : (storeCells cs s).hold = s.hold := rfl
@[simp] theorem storeCells_tset (cs : List Host.Cell) (s : State) : (storeCells cs s).tset = s.tset := rfl
@[simp] theorem storeCells_tsetPend (cs : List Host.Cell) (s : State) : (storeCells cs s).tsetPend = s.tsetPend := rfl
@[simp] theorem storeCells_hostResult (cs : List Host.Cell) (s : State) : (storeCells cs s).hostResult = s.hostResult := rfl
@[simp] theorem storeCells_fault (cs : List Host.Cell) (s : State) : (storeCells cs s).fault = s.fault := rfl
@[simp] theorem storeCells_nv (cs : List Host.Cell) (s : State) : (storeCells cs s).nv = Memory.writeAll cs s.nv := rfl
@[simp] theorem storeCells_stream (cs : List Host.Cell) (s : State) : (storeCells cs s).stream = s.stream := rfl
@[simp] theorem storeCells_clockAnswers (cs : List Host.Cell) (s : State) : (storeCells cs s).clockAnswers = s.clockAnswers := rfl
@[simp] theorem storeCells_clockWrites (cs : List Host.Cell) (s : State) : (storeCells cs s).clockWrites = s.clockWrites := rfl
@[simp] theorem storeCells_reports (cs : List Host.Cell) (s : State) : (storeCells cs s).reports = s.reports := rfl
@[simp] theorem storeCells_power (cs : List Host.Cell) (s : State) : (storeCells cs s).power = s.power := rfl
@[simp] theorem storeCells_draws (cs : List Host.Cell) (s : State) : (storeCells cs s).draws = s.draws := rfl
@[simp] theorem storeCells_storeLog (cs : List Host.Cell) (s : State) : (storeCells cs s).storeLog = s.storeLog ++ cs := rfl

/-! ## clockWrite -/

@[simp] theorem clockWrite_cfg (b : ClockBytes) (s : State) : (clockWrite b s).cfg = s.cfg := rfl
@[simp] theorem clockWrite_hash (b : ClockBytes) (s : State) : (clockWrite b s).hash = s.hash := rfl
@[simp] theorem clockWrite_mphase (b : ClockBytes) (s : State) : (clockWrite b s).mphase = s.mphase := rfl
@[simp] theorem clockWrite_dout (b : ClockBytes) (s : State) : (clockWrite b s).dout = s.dout := rfl
@[simp] theorem clockWrite_doutValid (b : ClockBytes) (s : State) : (clockWrite b s).doutValid = s.doutValid := rfl
@[simp] theorem clockWrite_truncP (b : ClockBytes) (s : State) : (clockWrite b s).truncP = s.truncP := rfl
@[simp] theorem clockWrite_code (b : ClockBytes) (s : State) : (clockWrite b s).code = s.code := rfl
@[simp] theorem clockWrite_pw (b : ClockBytes) (s : State) : (clockWrite b s).pw = s.pw := rfl
@[simp] theorem clockWrite_pwValid (b : ClockBytes) (s : State) : (clockWrite b s).pwValid = s.pwValid := rfl
@[simp] theorem clockWrite_tbuf (b : ClockBytes) (s : State) : (clockWrite b s).tbuf = s.tbuf := rfl
@[simp] theorem clockWrite_tcount (b : ClockBytes) (s : State) : (clockWrite b s).tcount = s.tcount := rfl
@[simp] theorem clockWrite_tbufValid (b : ClockBytes) (s : State) : (clockWrite b s).tbufValid = s.tbufValid := rfl
@[simp] theorem clockWrite_cstate (b : ClockBytes) (s : State) : (clockWrite b s).cstate = s.cstate := rfl
@[simp] theorem clockWrite_idx (b : ClockBytes) (s : State) : (clockWrite b s).idx = s.idx := rfl
@[simp] theorem clockWrite_hold (b : ClockBytes) (s : State) : (clockWrite b s).hold = s.hold := rfl
@[simp] theorem clockWrite_tset (b : ClockBytes) (s : State) : (clockWrite b s).tset = s.tset := rfl
@[simp] theorem clockWrite_tsetPend (b : ClockBytes) (s : State) : (clockWrite b s).tsetPend = s.tsetPend := rfl
@[simp] theorem clockWrite_hostResult (b : ClockBytes) (s : State) : (clockWrite b s).hostResult = s.hostResult := rfl
@[simp] theorem clockWrite_fault (b : ClockBytes) (s : State) : (clockWrite b s).fault = s.fault := rfl
@[simp] theorem clockWrite_nv (b : ClockBytes) (s : State) : (clockWrite b s).nv = s.nv := rfl
@[simp] theorem clockWrite_stream (b : ClockBytes) (s : State) : (clockWrite b s).stream = s.stream := rfl
@[simp] theorem clockWrite_clockAnswers (b : ClockBytes) (s : State) : (clockWrite b s).clockAnswers = s.clockAnswers := rfl
@[simp] theorem clockWrite_clockWrites (b : ClockBytes) (s : State) : (clockWrite b s).clockWrites = s.clockWrites ++ [b] := rfl
@[simp] theorem clockWrite_reports (b : ClockBytes) (s : State) : (clockWrite b s).reports = s.reports := rfl
@[simp] theorem clockWrite_power (b : ClockBytes) (s : State) : (clockWrite b s).power = s.power := rfl
@[simp] theorem clockWrite_draws (b : ClockBytes) (s : State) : (clockWrite b s).draws = s.draws := rfl
@[simp] theorem clockWrite_storeLog (b : ClockBytes) (s : State) : (clockWrite b s).storeLog = s.storeLog := rfl

/-! ## emit -/

@[simp] theorem emit_cfg (r : Report) (s : State) : (emit r s).cfg = s.cfg := rfl
@[simp] theorem emit_hash (r : Report) (s : State) : (emit r s).hash = s.hash := rfl
@[simp] theorem emit_mphase (r : Report) (s : State) : (emit r s).mphase = s.mphase := rfl
@[simp] theorem emit_dout (r : Report) (s : State) : (emit r s).dout = s.dout := rfl
@[simp] theorem emit_doutValid (r : Report) (s : State) : (emit r s).doutValid = s.doutValid := rfl
@[simp] theorem emit_truncP (r : Report) (s : State) : (emit r s).truncP = s.truncP := rfl
@[simp] theorem emit_code (r : Report) (s : State) : (emit r s).code = s.code := rfl
@[simp] theorem emit_pw (r : Report) (s : State) : (emit r s).pw = s.pw := rfl
@[simp] theorem emit_pwValid (r : Report) (s : State) : (emit r s).pwValid = s.pwValid := rfl
@[simp] theorem emit_tbuf (r : Report) (s : State) : (emit r s).tbuf = s.tbuf := rfl
@[simp] theorem emit_tcount (r : Report) (s : State) : (emit r s).tcount = s.tcount := rfl
@[simp] theorem emit_tbufValid (r : Report) (s : State) : (emit r s).tbufValid = s.tbufValid := rfl
@[simp] theorem emit_cstate (r : Report) (s : State) : (emit r s).cstate = s.cstate := rfl
@[simp] theorem emit_idx (r : Report) (s : State) : (emit r s).idx = s.idx := rfl
@[simp] theorem emit_hold (r : Report) (s : State) : (emit r s).hold = s.hold := rfl
@[simp] theorem emit_tset (r : Report) (s : State) : (emit r s).tset = s.tset := rfl
@[simp] theorem emit_tsetPend (r : Report) (s : State) : (emit r s).tsetPend = s.tsetPend := rfl
@[simp] theorem emit_hostResult (r : Report) (s : State) : (emit r s).hostResult = s.hostResult := rfl
@[simp] theorem emit_fault (r : Report) (s : State) : (emit r s).fault = s.fault := rfl
@[simp] theorem emit_nv (r : Report) (s : State) : (emit r s).nv = s.nv := rfl
@[simp] theorem emit_stream (r : Report) (s : State) : (emit r s).stream = s.stream := rfl
@[simp] theorem emit_clockAnswers (r : Report) (s : State) : (emit r s).clockAnswers = s.clockAnswers := rfl
@[simp] theorem emit_clockWrites (r : Report) (s : State) : (emit r s).clockWrites = s.clockWrites := rfl
@[simp] theorem emit_reports (r : Report) (s : State) : (emit r s).reports = s.reports ++ [r] := rfl
@[simp] theorem emit_power (r : Report) (s : State) : (emit r s).power = s.power := rfl
@[simp] theorem emit_draws (r : Report) (s : State) : (emit r s).draws = s.draws := rfl
@[simp] theorem emit_storeLog (r : Report) (s : State) : (emit r s).storeLog = s.storeLog := rfl

/-! ## setTime -/

@[simp] theorem setTime_cfg (c : Word) (s : State) : (setTime c s).cfg = s.cfg := rfl
@[simp] theorem setTime_hash (c : Word) (s : State) : (setTime c s).hash = s.hash := rfl
@[simp] theorem setTime_mphase (c : Word) (s : State) : (setTime c s).mphase = s.mphase := rfl
@[simp] theorem setTime_dout (c : Word) (s : State) : (setTime c s).dout = s.dout := rfl
@[simp] theorem setTime_doutValid (c : Word) (s : State) : (setTime c s).doutValid = s.doutValid := rfl
@[simp] theorem setTime_truncP (c : Word) (s : State) : (setTime c s).truncP = s.truncP := rfl
@[simp] theorem setTime_code (c : Word) (s : State) : (setTime c s).code = s.code := rfl
@[simp] theorem setTime_pw (c : Word) (s : State) : (setTime c s).pw = s.pw := rfl
@[simp] theorem setTime_pwValid (c : Word) (s : State) : (setTime c s).pwValid = s.pwValid := rfl
@[simp] theorem setTime_tbuf (c : Word) (s : State) : (setTime c s).tbuf = timeBuffer c := rfl
@[simp] theorem setTime_tcount (c : Word) (s : State) : (setTime c s).tcount = c := rfl
@[simp] theorem setTime_tbufValid (c : Word) (s : State) : (setTime c s).tbufValid = true := rfl
@[simp] theorem setTime_cstate (c : Word) (s : State) : (setTime c s).cstate = s.cstate := rfl
@[simp] theorem setTime_idx (c : Word) (s : State) : (setTime c s).idx = s.idx := rfl
@[simp] theorem setTime_hold (c : Word) (s : State) : (setTime c s).hold = s.hold := rfl
@[simp] theorem setTime_tset (c : Word) (s : State) : (setTime c s).tset = s.tset := rfl
@[simp] theorem setTime_tsetPend (c : Word) (s : State) : (setTime c s).tsetPend = s.tsetPend := rfl
@[simp] theorem setTime_hostResult (c : Word) (s : State) : (setTime c s).hostResult = s.hostResult := rfl
@[simp] theorem setTime_fault (c : Word) (s : State) : (setTime c s).fault = s.fault := rfl
@[simp] theorem setTime_nv (c : Word) (s : State) : (setTime c s).nv = s.nv := rfl
@[simp] theorem setTime_stream (c : Word) (s : State) : (setTime c s).stream = s.stream := rfl
@[simp] theorem setTime_clockAnswers (c : Word) (s : State) : (setTime c s).clockAnswers = s.clockAnswers := rfl
@[simp] theorem setTime_clockWrites (c : Word) (s : State) : (setTime c s).clockWrites = s.clockWrites := rfl
@[simp] theorem setTime_reports (c : Word) (s : State) : (setTime c s).reports = s.reports := rfl
@[simp] theorem setTime_power (c : Word) (s : State) : (setTime c s).power = s.power := rfl
@[simp] theorem setTime_draws (c : Word) (s : State) : (setTime c s).draws = s.draws := rfl
@[simp] theorem setTime_storeLog (c : Word) (s : State) : (setTime c s).storeLog = s.storeLog := rfl

/-! ## shaResetBody -/

@[simp] theorem shaResetBody_cfg (s : State) : (shaResetBody s).cfg = s.cfg := rfl
@[simp] theorem shaResetBody_hash (s : State) : (shaResetBody s).hash = hashReset := rfl
@[simp] theorem shaResetBody_mphase (s : State) : (shaResetBody s).mphase = .idle := rfl
@[simp] theorem shaResetBody_dout (s : State) : (shaResetBody s).dout = s.dout := rfl
@[simp] theorem shaResetBody_doutValid (s : State) : (shaResetBody s).doutValid = s.doutValid := rfl
@[simp] theorem shaResetBody_truncP (s : State) : (shaResetBody s).truncP = s.truncP := rfl
@[simp] theorem shaResetBody_code (s : State) : (shaResetBody s).code = s.code := rfl
@[simp] theorem shaResetBody_pw (s : State) : (shaResetBody s).pw = s.pw := rfl
@[simp] theorem shaResetBody_pwValid (s : State) : (shaResetBody s).pwValid = s.pwValid := rfl
@[simp] theorem shaResetBody_tbuf (s : State) : (shaResetBody s).tbuf = s.tbuf := rfl
@[simp] theorem shaResetBody_tcount (s : State) : (shaResetBody s).tcount = s.tcount := rfl
@[simp] theorem shaResetBody_tbufValid (s : State) : (shaResetBody s).tbufValid = s.tbufValid := rfl
@[simp] theorem shaResetBody_cstate (s : State) : (shaResetBody s).cstate = s.cstate := rfl
@[simp] theorem shaResetBody_idx (s : State) : (shaResetBody s).idx = s.idx := rfl
@[simp] theorem shaResetBody_hold (s : State) : (shaResetBody s).hold = s.hold := rfl
@[simp] theorem shaResetBody_tset (s : State) : (shaResetBody s).tset = s.tset := rfl
@[simp] theorem shaResetBody_tsetPend (s : State) : (shaResetBody s).tsetPend = s.tsetPend := rfl
@[simp] theorem shaResetBody_hostResult (s : State) : (shaResetBody s).hostResult = s.hostResult := rfl
@[simp] theorem shaResetBody_fault (s : State) : (shaResetBody s).fault = s.fault := rfl
@[simp] theorem shaResetBody_nv (s : State) : (shaResetBody s).nv = s.nv := rfl
@[simp] theorem shaResetBody_stream (s : State) : (shaResetBody s).stream = s.stream := rfl
@[simp] theorem shaResetBody_clockAnswers (s : State) : (shaResetBody s).clockAnswers = s.clockAnswers := rfl
@[simp] theorem shaResetBody_clockWrites (s : State) : (shaResetBody s).clockWrites = s.clockWrites := rfl
@[simp] theorem shaResetBody_reports (s : State) : (shaResetBody s).reports = s.reports := rfl
@[simp] theorem shaResetBody_power (s : State) : (shaResetBody s).power = s.power := rfl
@[simp] theorem shaResetBody_draws (s : State) : (shaResetBody s).draws = s.draws := rfl
@[simp] theorem shaResetBody_storeLog (s : State) : (shaResetBody s).storeLog = s.storeLog := rfl

/-! ## updateHold -/

@[simp] theorem updateHold_cfg (h : Byte) (armed : Bool) (s : State) : (updateHold h armed s).cfg = s.cfg := rfl
@[simp] theorem updateHold_hash (h : Byte) (armed : Bool) (s : State) : (updateHold h armed s).hash = s.hash := rfl
@[simp] theorem updateHold_mphase (h : Byte) (armed : Bool) (s : State) : (updateHold h armed s).mphase = s.mphase := rfl
@[simp] theorem updateHold_dout (h : Byte) (armed : Bool) (s : State) : (updateHold h armed s).dout = s.dout := rfl
@[simp] theorem updateHold_doutValid (h : Byte) (armed : Bool) (s : State) : (updateHold h armed s).doutValid = s.doutValid := rfl
@[simp] theorem updateHold_truncP (h : Byte) (armed : Bool) (s : State) : (updateHold h armed s).truncP = s.truncP := rfl
@[simp] theorem updateHold_code (h : Byte) (armed : Bool) (s : State) : (updateHold h armed s).code = s.code := rfl
@[simp] theorem updateHold_pw (h : Byte) (armed : Bool) (s : State) : (updateHold h armed s).pw = s.pw := rfl
@[simp] theorem updateHold_pwValid (h : Byte) (armed : Bool) (s : State) : (updateHold h armed s).pwValid = s.pwValid := rfl
@[simp] theorem updateHold_tbuf (h : Byte) (armed : Bool) (s : State) : (updateHold h armed s).tbuf = s.tbuf := rfl
@[simp] theorem updateHold_tcount (h : Byte) (armed : Bool) (s : State) : (updateHold h armed s).tcount = s.tcount := rfl
@[simp] theorem updateHold_tbufValid (h : Byte) (armed : Bool) (s : State) : (updateHold h armed s).tbufValid = s.tbufValid := rfl
@[simp] theorem updateHold_cstate (h : Byte) (armed : Bool) (s : State) : (updateHold h armed s).cstate = s.cstate := rfl
@[simp] theorem updateHold_idx (h : Byte) (armed : Bool) (s : State) : (updateHold h armed s).idx = s.idx := rfl
@[simp] theorem updateHold_hold (h : Byte) (armed : Bool) (s : State) : (updateHold h armed s).hold = if armed then s.cfg.holdArm else if 0 < h then h - 1 else 0 := rfl
@[simp] theorem updateHold_tset (h : Byte) (armed : Bool) (s : State) : (updateHold h armed s).tset = s.tset := rfl
@[simp] theorem updateHold_tsetPend (h : Byte) (armed : Bool) (s : State) : (updateHold h armed s).tsetPend = s.tsetPend := rfl
@[simp] theorem updateHold_hostResult (h : Byte) (armed : Bool) (s : State) : (updateHold h armed s).hostResult = s.hostResult := rfl
@[simp] theorem updateHold_fault (h : Byte) (armed : Bool) (s : State) : (updateHold h armed s).fault = s.fault := rfl
@[simp] theorem updateHold_nv (h : Byte) (armed : Bool) (s : State) : (updateHold h armed s).nv = s.nv := rfl
@[simp] theorem updateHold_stream (h : Byte) (armed : Bool) (s : State) : (updateHold h armed s).stream = s.stream := rfl
@[simp] theorem updateHold_clockAnswers (h : Byte) (armed : Bool) (s : State) : (updateHold h armed s).clockAnswers = s.clockAnswers := rfl
@[simp] theorem updateHold_clockWrites (h : Byte) (armed : Bool) (s : State) : (updateHold h armed s).clockWrites = s.clockWrites := rfl
@[simp] theorem updateHold_reports (h : Byte) (armed : Bool) (s : State) : (updateHold h armed s).reports = s.reports := rfl
@[simp] theorem updateHold_power (h : Byte) (armed : Bool) (s : State) : (updateHold h armed s).power = s.power := rfl
@[simp] theorem updateHold_draws (h : Byte) (armed : Bool) (s : State) : (updateHold h armed s).draws = s.draws := rfl
@[simp] theorem updateHold_storeLog (h : Byte) (armed : Bool) (s : State) : (updateHold h armed s).storeLog = s.storeLog := rfl

/-! ## pollSettingTime -/

@[simp] theorem pollSettingTime_cfg (s : State) : (pollSettingTime s).cfg = s.cfg := rfl
@[simp] theorem pollSettingTime_hash (s : State) : (pollSettingTime s).hash = s.hash := rfl
@[simp] theorem pollSettingTime_mphase (s : State) : (pollSettingTime s).mphase = s.mphase := rfl
@[simp] theorem pollSettingTime_dout (s : State) : (pollSettingTime s).dout = s.dout := rfl
@[simp] theorem pollSettingTime_doutValid (s : State) : (pollSettingTime s).doutValid = s.doutValid := rfl
@[simp] theorem pollSettingTime_truncP (s : State) : (pollSettingTime s).truncP = s.truncP := rfl
@[simp] theorem pollSettingTime_code (s : State) : (pollSettingTime s).code = s.code := rfl
@[simp] theorem pollSettingTime_pw (s : State) : (pollSettingTime s).pw = s.pw := rfl
@[simp] theorem pollSettingTime_pwValid (s : State) : (pollSettingTime s).pwValid = s.pwValid := rfl
@[simp] theorem pollSettingTime_tbuf (s : State) : (pollSettingTime s).tbuf = s.tbuf := rfl
@[simp] theorem pollSettingTime_tcount (s : State) : (pollSettingTime s).tcount = s.tcount := rfl
@[simp] theorem pollSettingTime_tbufValid (s : State) : (pollSettingTime s).tbufValid = s.tbufValid := rfl
@[simp] theorem pollSettingTime_cstate (s : State) : (pollSettingTime s).cstate = .waiting := rfl
@[simp] theorem pollSettingTime_idx (s : State) : (pollSettingTime s).idx = s.idx := rfl
@[simp] theorem pollSettingTime_hold (s : State) : (pollSettingTime s).hold = s.hold := rfl
@[simp] theorem pollSettingTime_tset (s : State) : (pollSettingTime s).tset = s.tset := rfl
@[simp] theorem pollSettingTime_tsetPend (s : State) : (pollSettingTime s).tsetPend = false := rfl
@[simp] theorem pollSettingTime_hostResult (s : State) : (pollSettingTime s).hostResult = s.hostResult := rfl
@[simp] theorem pollSettingTime_fault (s : State) : (pollSettingTime s).fault = s.fault := rfl
@[simp] theorem pollSettingTime_nv (s : State) : (pollSettingTime s).nv = s.nv := rfl
@[simp] theorem pollSettingTime_stream (s : State) : (pollSettingTime s).stream = s.stream := rfl
@[simp] theorem pollSettingTime_clockAnswers (s : State) : (pollSettingTime s).clockAnswers = s.clockAnswers := rfl
@[simp] theorem pollSettingTime_clockWrites (s : State) : (pollSettingTime s).clockWrites = s.clockWrites ++ [s.tset] := rfl
@[simp] theorem pollSettingTime_reports (s : State) : (pollSettingTime s).reports = s.reports := rfl
@[simp] theorem pollSettingTime_power (s : State) : (pollSettingTime s).power = s.power := rfl
@[simp] theorem pollSettingTime_draws (s : State) : (pollSettingTime s).draws = s.draws := rfl
@[simp] theorem pollSettingTime_storeLog (s : State) : (pollSettingTime s).storeLog = s.storeLog := rfl

/-! ## powerOnReset -/

@[simp] theorem powerOnReset_cfg (s : State) : (powerOnReset s).cfg = s.cfg := rfl
@[simp] theorem powerOnReset_hash (s : State) : (powerOnReset s).hash = (State.initial s.cfg s.nv).hash := rfl
@[simp] theorem powerOnReset_mphase (s : State) : (powerOnReset s).mphase = .idle := rfl
@[simp] theorem powerOnReset_dout (s : State) : (powerOnReset s).dout = Vector.replicate 20 0 := rfl
@[simp] theorem powerOnReset_doutValid (s : State) : (powerOnReset s).doutValid = false := rfl
@[simp] theorem powerOnReset_truncP (s : State) : (powerOnReset s).truncP = 0 := rfl
@[simp] theorem powerOnReset_code (s : State) : (powerOnReset s).code = 0 := rfl
@[simp] theorem powerOnReset_pw (s : State) : (powerOnReset s).pw = Vector.replicate 6 0 := rfl
@[simp] theorem powerOnReset_pwValid (s : State) : (powerOnReset s).pwValid = false := rfl
@[simp] theorem powerOnReset_tbuf (s : State) : (powerOnReset s).tbuf = Vector.replicate 8 0 := rfl
@[simp] theorem powerOnReset_tcount (s : State) : (powerOnReset s).tcount = 0 := rfl
@[simp] theorem powerOnReset_tbufValid (s : State) : (powerOnReset s).tbufValid = false := rfl
@[simp] theorem powerOnReset_cstate (s : State) : (powerOnReset s).cstate = .idle := rfl
@[simp] theorem powerOnReset_idx (s : State) : (powerOnReset s).idx = 0 := rfl
@[simp] theorem powerOnReset_hold (s : State) : (powerOnReset s).hold = 0 := rfl
@[simp] theorem powerOnReset_tset (s : State) : (powerOnReset s).tset = ⟨0, 0, 0, 0, 0, 0, 0⟩ := rfl
@[simp] theorem powerOnReset_tsetPend (s : State) : (powerOnReset s).tsetPend = false := rfl
@[simp] theorem powerOnReset_hostResult (s : State) : (powerOnReset s).hostResult = .none := rfl
@[simp] theorem powerOnReset_fault (s : State) : (powerOnReset s).fault = 0 := rfl
@[simp] theorem powerOnReset_nv (s : State) : (powerOnReset s).nv = s.nv := rfl
@[simp] theorem powerOnReset_stream (s : State) : (powerOnReset s).stream = s.stream := rfl
@[simp] theorem powerOnReset_clockAnswers (s : State) : (powerOnReset s).clockAnswers = s.clockAnswers := rfl
@[simp] theorem powerOnReset_clockWrites (s : State) : (powerOnReset s).clockWrites = s.clockWrites := rfl
@[simp] theorem powerOnReset_reports (s : State) : (powerOnReset s).reports = s.reports := rfl
@[simp] theorem powerOnReset_power (s : State) : (powerOnReset s).power = Option.none := rfl
@[simp] theorem powerOnReset_draws (s : State) : (powerOnReset s).draws = s.draws := rfl
@[simp] theorem powerOnReset_storeLog (s : State) : (powerOnReset s).storeLog = [] := rfl

/-! ## State.consume -/

@[simp] theorem consume_cfg (s : State) (rest : List Byte) : (s.consume rest).cfg = s.cfg := rfl
@[simp] theorem consume_hash (s : State) (rest : List Byte) : (s.consume rest).hash = s.hash := rfl
@[simp] theorem consume_mphase (s : State) (rest : List Byte) : (s.consume rest).mphase = s.mphase := rfl
@[simp] theorem consume_dout (s : State) (rest : List Byte) : (s.consume rest).dout = s.dout := rfl
@[simp] theorem consume_doutValid (s : State) (rest : List Byte) : (s.consume rest).doutValid = s.doutValid := rfl
@[simp] theorem consume_truncP (s : State) (rest : List Byte) : (s.consume rest).truncP = s.truncP := rfl
@[simp] theorem consume_code (s : State) (rest : List Byte) : (s.consume rest).code = s.code := rfl
@[simp] theorem consume_pw (s : State) (rest : List Byte) : (s.consume rest).pw = s.pw := rfl
@[simp] theorem consume_pwValid (s : State) (rest : List Byte) : (s.consume rest).pwValid = s.pwValid := rfl
@[simp] theorem consume_tbuf (s : State) (rest : List Byte) : (s.consume rest).tbuf = s.tbuf := rfl
@[simp] theorem consume_tcount (s : State) (rest : List Byte) : (s.consume rest).tcount = s.tcount := rfl
@[simp] theorem consume_tbufValid (s : State) (rest : List Byte) : (s.consume rest).tbufValid = s.tbufValid := rfl
@[simp] theorem consume_cstate (s : State) (rest : List Byte) : (s.consume rest).cstate = s.cstate := rfl
@[simp] theorem consume_idx (s : State) (rest : List Byte) : (s.consume rest).idx = s.idx := rfl
@[simp] theorem consume_hold (s : State) (rest : List Byte) : (s.consume rest).hold = s.hold := rfl
@[simp] theorem consume_tset (s : State) (rest : List Byte) : (s.consume rest).tset = s.tset := rfl
@[simp] theorem consume_tsetPend (s : State) (rest : List Byte) : (s.consume rest).tsetPend = s.tsetPend := rfl
@[simp] theorem consume_hostResult (s : State) (rest : List Byte) : (s.consume rest).hostResult = s.hostResult := rfl
@[simp] theorem consume_fault (s : State) (rest : List Byte) : (s.consume rest).fault = s.fault := rfl
@[simp] theorem consume_nv (s : State) (rest : List Byte) : (s.consume rest).nv = s.nv := rfl
@[simp] theorem consume_stream (s : State) (rest : List Byte) : (s.consume rest).stream = rest := rfl
@[simp] theorem consume_clockAnswers (s : State) (rest : List Byte) : (s.consume rest).clockAnswers = s.clockAnswers := rfl
@[simp] theorem consume_clockWrites (s : State) (rest : List Byte) : (s.consume rest).clockWrites = s.clockWrites := rfl
@[simp] theorem consume_reports (s : State) (rest : List Byte) : (s.consume rest).reports = s.reports := rfl
@[simp] theorem consume_power (s : State) (rest : List Byte) : (s.consume rest).power = s.power := rfl
@[simp] theorem consume_draws (s : State) (rest : List Byte) : (s.consume rest).draws = s.draws := rfl
@[simp] theorem consume_storeLog (s : State) (rest : List Byte) : (s.consume rest).storeLog = [] := rfl

/-! ## The views that read one field -/

/-- `FCODE` of a 16-bit fault record. -/
theorem faultRecord_low (c o : Byte) : (o ++ c : BitVec 16).extractLsb' 0 8 = c := by
  ext i hi
  have := BitVec.getLsbD_append (x := o) (y := c) (i := i)
  simp only [hi, if_true] at this
  simpa [BitVec.getLsbD_eq_getElem hi] using this

/-- `FOPC` of a 16-bit fault record. -/
theorem faultRecord_high (c o : Byte) : (o ++ c : BitVec 16).extractLsb' 8 8 = o := by
  ext i hi
  have := BitVec.getLsbD_append (x := o) (y := c) (i := 8 + i)
  simpa [BitVec.getLsbD_eq_getElem hi] using this

@[simp] theorem takeFault_fcode (c : FaultCode) (o : Byte) (s : State) : (takeFault c o s).fcode = c.byte :=
  faultRecord_low _ _

@[simp] theorem takeFault_fopc (c : FaultCode) (o : Byte) (s : State) : (takeFault c o s).fopc = o :=
  faultRecord_high _ _

@[simp] theorem takeFault_halted (c : FaultCode) (o : Byte) (s : State) : (takeFault c o s).halted = true := by
  cases c <;> simp [State.halted, FaultCode.byte]

end Sys2Proof.Machine
end

