-- ==== Sys2Proof/Laws/Hash.lean ====
section
/-! SUPPORT. The HashEngine against SHA-1: absorbing bytes extends the message the HashEngine holds, finalizing it gives the
digest (40_sha1.md R93, R94, R98), and what the primitives do in any state. -/

namespace Sys2Proof.Machine

open Reference Safety

/-! ## Bind of a frame's pseudocode -/

@[simp] theorem ok_bind {α β : Type} (a : α) (f : α → Except Stop β) : (Except.ok a >>= f) = f a := rfl

@[simp] theorem error_bind {α β : Type} (r : Stop) (f : α → Except Stop β) : (Except.error r >>= f) = Except.error r := rfl

/-- From a sequence that ends well, both parts. -/
theorem bind_ok {α β : Type} {x : Except Stop α} {f : α → Except Stop β} {b : β} (h : (x >>= f) = .ok b) :
    ∃ a, x = .ok a ∧ f a = .ok b := by
  cases x with
  | error r => cases h
  | ok a => exact ⟨a, rfl, h⟩

/-! ## Chaining over blocks -/

theorem blockOf_append {m x : List Byte} (h : 64 ≤ m.length) : blockOf (m ++ x) = blockOf m := by
  refine Vector.ext fun i hi => ?_
  simp [blockOf, List.getElem?_append_left (show i < m.length by omega)]

theorem chain_append {n : Nat} {m x : List Byte} {h : Vector Word 5} (hn : 64 * n ≤ m.length) :
    chain n (m ++ x) h = chain n m h := by
  induction n generalizing m h with
  | zero => rfl
  | succ n ih =>
    have h64 : 64 ≤ m.length := by omega
    simp only [chain, blockOf_append h64]
    rw [List.drop_append_of_le_length h64, ih (by rw [List.length_drop]; omega)]

/-- One more block at the end. -/
theorem chain_succ (n : Nat) (m : List Byte) (h : Vector Word 5) :
    chain (n + 1) m h = compressWords (chain n m h) (blockOf (m.drop (64 * n))) := by
  induction n generalizing m h with
  | zero => rfl
  | succ n ih =>
    rw [chain, ih, chain, List.drop_drop]
    congr 3
    omega

/-! ## Absorption -/

/-- `HRESET()` leaves the HashEngine holding the empty message. -/
theorem hashReset_holds : hashReset = hashHolding [] := by
  have : blockOf [] = zeroBlock := by
    refine Vector.ext fun i hi => ?_
    simp [blockOf, zeroBlock]
  simp [hashReset, hashHolding, chain, this]

theorem absorbByte_holding (m : List Byte) (b : Byte) (bits : BitVec 16) :
    absorbByte { hashHolding m with bits := bits } b = { hashHolding (m ++ [b]) with bits := bits } := by
  have hofs : (BitVec.ofNat 6 m.length).toNat = m.length % 64 := by simp
  have hset : (blockOf (m.drop (64 * (m.length / 64)))).set (BitVec.ofNat 6 m.length).toNat b (BitVec.ofNat 6 m.length).isLt =
      blockOf ((m ++ [b]).drop (64 * (m.length / 64))) := by
    refine Vector.ext fun i hi => ?_
    simp only [Vector.getElem_set, blockOf, Vector.getElem_ofFn, hofs]
    rw [List.drop_append_of_le_length (by omega)]
    split
    · next h =>
      rw [List.getD_eq_getElem?_getD, List.getElem?_append_right (by rw [List.length_drop]; omega)]
      simp [List.length_drop, ← h, show m.length % 64 - (m.length - 64 * (m.length / 64)) = 0 by omega]
    · next h =>
      by_cases hlt : i < m.length % 64
      · simp only [List.getD_eq_getElem?_getD]
        rw [List.getElem?_append_left (by rw [List.length_drop]; omega)]
      · simp only [List.getD_eq_getElem?_getD]
        rw [List.getElem?_append_right (by rw [List.length_drop]; omega), List.getElem?_eq_none (by rw [List.length_drop]; omega),
          List.getElem?_eq_none (by simp only [List.length_drop, List.length_singleton]; omega)]
  by_cases h63 : m.length % 64 = 63
  · have hc : BitVec.ofNat 6 m.length = 63 := by
      apply BitVec.eq_of_toNat_eq
      simp [h63]
    have hdiv : (m.length + 1) / 64 = m.length / 64 + 1 := by omega
    have hz : BitVec.ofNat 6 (m.length + 1) = 0 := by
      apply BitVec.eq_of_toNat_eq
      simp
      omega
    have hblk : blockOf ((m ++ [b]).drop (64 * (m.length / 64 + 1))) = zeroBlock := by
      rw [List.drop_eq_nil_of_le (by simp; omega)]
      refine Vector.ext fun i hi => ?_
      simp [blockOf, zeroBlock]
    simp only [absorbByte, hashHolding, hset]
    rw [if_pos hc]
    simp only [compress, List.length_append, List.length_singleton, hdiv, hz, hblk]
    rw [chain_succ, chain_append (by omega)]
  · have hc : ¬ BitVec.ofNat 6 m.length = 63 := by
      intro he
      have := congrArg BitVec.toNat he
      simp [h63] at this
    have hdiv : (m.length + 1) / 64 = m.length / 64 := by omega
    have hz : BitVec.ofNat 6 m.length + 1 = BitVec.ofNat 6 (m.length + 1) := by
      apply BitVec.eq_of_toNat_eq
      simp
    simp only [absorbByte, hashHolding, hset]
    rw [if_neg hc]
    simp only [List.length_append, List.length_singleton, hdiv, hz]
    rw [chain_append (by omega)]

theorem absorbBytes_holding (m data : List Byte) (bits : BitVec 16) :
    absorbBytes data { hashHolding m with bits := bits } = { hashHolding (m ++ data) with bits := bits } := by
  induction data generalizing m with
  | nil => simp [absorbBytes]
  | cons b data ih =>
    have := ih (m ++ [b])
    simp only [absorbBytes, List.foldl_cons, absorbByte_holding] at this ⊢
    rw [this, List.append_assoc, List.singleton_append]

/-- Absorbing extends the message held, while its bit count fits 16 bits (R92, R93). -/
theorem absorb_holding {m data : List Byte} (h : m.length + data.length ≤ 8191) :
    absorb data (hashHolding m) = .ok (hashHolding (m ++ data)) := by
  have hb : (BitVec.ofNat 16 (8 * m.length)).toNat = 8 * m.length := by
    simp only [BitVec.toNat_ofNat]
    omega
  have h1 := absorbBytes_holding m data (hashHolding m).bits
  have h2 : { hashHolding m with bits := (hashHolding m).bits } = hashHolding m := rfl
  rw [h2] at h1
  unfold absorb
  rw [if_neg (by simp [hashHolding]), if_neg (by simp only [hashHolding, hb]; omega), h1]
  simp only [hashHolding, hb, List.length_append, Nat.mul_add]

theorem absorbByte_bits (e : HashEngine) (b : Byte) : (absorbByte e b).bits = e.bits ∧ (absorbByte e b).phase = e.phase := by
  unfold absorbByte
  split <;> simp [compress]

theorem absorbBytes_bits (data : List Byte) (e : HashEngine) :
    (absorbBytes data e).bits = e.bits ∧ (absorbBytes data e).phase = e.phase := by
  induction data generalizing e with
  | nil => exact ⟨rfl, rfl⟩
  | cons b data ih =>
    have h1 := ih (absorbByte e b)
    have h2 := absorbByte_bits e b
    exact ⟨h1.1.trans h2.1, h1.2.trans h2.2⟩

theorem absorbBytes_append (x y : List Byte) (e : HashEngine) : absorbBytes (x ++ y) e = absorbBytes y (absorbBytes x e) := by
  simp [absorbBytes, List.foldl_append]

/-- `OFS` after absorption. -/
theorem absorbByte_ofs (e : HashEngine) (b : Byte) : (absorbByte e b).ofs.toNat = (e.ofs.toNat + 1) % 64 := by
  unfold absorbByte
  split
  · next h => simp [compress, h]
  · simp

theorem absorbBytes_ofs (data : List Byte) (e : HashEngine) :
    (absorbBytes data e).ofs.toNat = (e.ofs.toNat + data.length) % 64 := by
  induction data generalizing e with
  | nil =>
    have := e.ofs.isLt
    simp only [absorbBytes, List.foldl_nil, List.length_nil]
    omega
  | cons b data ih =>
    have h1 := ih (absorbByte e b)
    simp only [absorbBytes, List.foldl_cons] at h1 ⊢
    rw [h1, absorbByte_ofs, List.length_cons]
    omega

/-- ABSORB in any state (R93): the two faults in their order, else the bytes and the bit count. -/
theorem absorb_not_active {data : List Byte} {e : HashEngine} (h : e.phase ≠ .active) :
    absorb data e = .error (.raise .hashNotActive) := by
  simp [absorb, h]

theorem absorb_overflow {data : List Byte} {e : HashEngine} (h : e.phase = .active)
    (hlen : 0xFFFF < e.bits.toNat + 8 * data.length) : absorb data e = .error (.raise .lenOverflow) := by
  simp [absorb, h, hlen]

theorem absorb_ok {data : List Byte} {e : HashEngine} (h : e.phase = .active)
    (hlen : e.bits.toNat + 8 * data.length ≤ 0xFFFF) :
    absorb data e = .ok { absorbBytes data e with bits := BitVec.ofNat 16 (e.bits.toNat + 8 * data.length) } := by
  unfold absorb
  rw [if_neg (by simp [h]), if_neg (by omega)]

/-- Everything a good absorption says. -/
theorem absorb_eq_ok {data : List Byte} {e e' : HashEngine} (h : absorb data e = .ok e') :
    e.phase = .active ∧ e.bits.toNat + 8 * data.length ≤ 0xFFFF ∧
      e' = { absorbBytes data e with bits := BitVec.ofNat 16 (e.bits.toNat + 8 * data.length) } := by
  unfold absorb at h
  split at h
  · cases h
  · next hp =>
    split at h
    · cases h
    · next hl => exact ⟨by simpa using hp, by omega, (Except.ok.inj h).symm⟩

/-- The loop does not read `BITS`. -/
theorem absorbBytes_with_bits (d : List Byte) (e : HashEngine) (b : BitVec 16) :
    absorbBytes d { e with bits := b } =
      ⟨(absorbBytes d e).h, (absorbBytes d e).blk, (absorbBytes d e).ofs, b, (absorbBytes d e).phase⟩ := by
  induction d generalizing e with
  | nil => rfl
  | cons c d ih =>
    have h1 : absorbByte { e with bits := b } c = { absorbByte e c with bits := b } := by
      unfold absorbByte
      split <;> rfl
    have h2 := ih (absorbByte e c)
    simp only [absorbBytes, List.foldl_cons] at h2 ⊢
    rw [h1, h2]

/-- Absorbing in two parts is absorbing at once (10_state.md R41). -/
theorem absorb_append {x y : List Byte} {e : HashEngine} (h : e.bits.toNat + 8 * (x.length + y.length) ≤ 0xFFFF) :
    absorb (x ++ y) e = (absorb x e >>= absorb y) := by
  by_cases hp : e.phase = .active
  · have hb : (BitVec.ofNat 16 (e.bits.toNat + 8 * x.length)).toNat = e.bits.toNat + 8 * x.length := by
      simp only [BitVec.toNat_ofNat]
      omega
    rw [absorb_ok hp (by rw [List.length_append]; omega), absorb_ok hp (by omega), ok_bind,
      absorb_ok (by simpa using (absorbBytes_bits x e).2.trans hp) (by simp only [hb]; omega),
      absorbBytes_with_bits y (absorbBytes x e), absorbBytes_append]
    simp only [hb, List.length_append, Nat.mul_add, Nat.add_assoc]
  · rw [absorb_not_active hp, absorb_not_active hp, error_bind]

/-! ## Finalization -/

@[simp] theorem finish_phase (e : HashEngine) : (finish e).phase = .final := rfl

@[simp] theorem finish_bits (e : HashEngine) : (finish e).bits = e.bits := by
  unfold finish padBlock
  split <;> simp only [compress, lengthField]

theorem finalize_ok {e : HashEngine} (h : e.phase = .active) : finalize e = .ok (digestBytes (finish e).h, finish e) := by
  simp [finalize, h]

theorem finalize_not_active {e : HashEngine} (h : e.phase ≠ .active) : finalize e = .error (.raise .hashNotActive) := by
  simp [finalize, h]

theorem finalize_eq_ok {e : HashEngine} {r : Digest × HashEngine} (h : finalize e = .ok r) :
    e.phase = .active ∧ r = (digestBytes (finish e).h, finish e) := by
  unfold finalize at h
  split at h
  · cases h
  · next hp => exact ⟨by simpa using hp, (Except.ok.inj h).symm⟩

/-- The digest is the big-endian serialization of the five words (30_encoding.md R77). -/
theorem digestBytes_toList (h : Vector Word 5) : (digestBytes h).toList = h.toList.flatMap be32 := by
  have words : h.toList = List.ofFn fun i : Fin 5 => h[i] := by
    rw [← Vector.toList_ofFn]
    exact congrArg Vector.toList (Vector.ext fun i hi => by simp)
  rw [words, digestBytes, Vector.toList_ofFn]
  simp [be32, List.ofFn_succ, Fin.succ]

/-- The block FINALIZE compresses when the padding fits: message bytes, `0x80`, zeros, the length (R94). -/
def lastBlock (ofs : Nat) (blk : Vector Byte 64) (len : BitVec 16) : Vector Byte 64 :=
  Vector.ofFn fun i : Fin 64 =>
    if i.val < ofs then blk[i] else if i.val = ofs then 0x80 else if i.val = 62 then len.extractLsb' 8 8
    else if i.val = 63 then len.extractLsb' 0 8 else 0

/-- The two blocks FINALIZE compresses when it does not: message bytes, `0x80`, zeros; then zeros and the length. -/
def firstOfTwo (ofs : Nat) (blk : Vector Byte 64) : Vector Byte 64 :=
  Vector.ofFn fun i : Fin 64 => if i.val < ofs then blk[i] else if i.val = ofs then 0x80 else 0

def secondOfTwo (len : BitVec 16) : Vector Byte 64 :=
  Vector.ofFn fun i : Fin 64 => if i.val = 62 then len.extractLsb' 8 8 else if i.val = 63 then len.extractLsb' 0 8 else 0

/-- FINALIZE's compressions in any state: one when `OFS <= 55`, else two (R94, R100). -/
theorem finish_eq (e : HashEngine) :
    finish e =
      { h := if e.ofs.toNat < 56 then compressWords e.h (lastBlock e.ofs.toNat e.blk e.bits)
             else compressWords (compressWords e.h (firstOfTwo e.ofs.toNat e.blk)) (secondOfTwo e.bits)
        blk := zeroBlock, ofs := 0, bits := e.bits, phase := .final } := by
  unfold finish padBlock
  by_cases h : 56 ≤ e.ofs.toNat
  · rw [if_pos h]
    simp only [compress, lengthField, if_neg (Nat.not_lt.2 h)]
    have h1 : zeroFill (e.ofs.toNat + 1) 64 (e.blk.set e.ofs.toNat 0x80 e.ofs.isLt) = firstOfTwo e.ofs.toNat e.blk := by
      refine Vector.ext fun i hi => ?_
      simp only [zeroFill, firstOfTwo, Vector.getElem_ofFn, Fin.getElem_fin, Vector.getElem_set]
      split
      · rw [if_neg (by omega), if_neg (by omega)]
      · split
        · next hi' => rw [if_neg (by omega), if_pos hi'.symm]
        · rw [if_pos (by omega)]
    have h2 : ((zeroFill 56 62 zeroBlock).set 62 (e.bits.extractLsb' 8 8)).set 63 (e.bits.extractLsb' 0 8) =
        secondOfTwo e.bits := by
      refine Vector.ext fun i hi => ?_
      simp only [secondOfTwo, Vector.getElem_ofFn, Vector.getElem_set]
      by_cases hi2 : i = 62
      · simp [hi2]
      · by_cases hi3 : i = 63
        · simp [hi3]
        · simp [hi2, hi3, Ne.symm hi2, Ne.symm hi3, zeroFill, zeroBlock]
    rw [h1, h2]
  · rw [if_neg h]
    simp only [compress, lengthField, if_pos (Nat.not_le.1 h)]
    have h1 : ((zeroFill 56 62 (zeroFill (e.ofs.toNat + 1) 56 (e.blk.set e.ofs.toNat 0x80 e.ofs.isLt))).set 62
        (e.bits.extractLsb' 8 8)).set 63 (e.bits.extractLsb' 0 8) = lastBlock e.ofs.toNat e.blk e.bits := by
      refine Vector.ext fun i hi => ?_
      simp only [lastBlock, zeroFill, Vector.getElem_ofFn, Vector.getElem_set, Fin.getElem_fin]
      by_cases hlt : i < e.ofs.toNat
      · simp [hlt, show ¬ 63 = i by omega, show ¬ 62 = i by omega, show ¬ 56 ≤ i by omega, show ¬ e.ofs.toNat + 1 ≤ i by omega,
          show ¬ e.ofs.toNat = i by omega]
      · by_cases heq : i = e.ofs.toNat
        · simp [← heq, show ¬ 63 = i by omega, show ¬ 62 = i by omega, show ¬ 56 ≤ i by omega]
        · by_cases hi2 : i = 62
          · simp [hi2, show ¬ 62 < e.ofs.toNat by omega, show ¬ 62 = e.ofs.toNat by omega]
          · by_cases hi3 : i = 63
            · simp [hi3, show ¬ 63 < e.ofs.toNat by omega, show ¬ 63 = e.ofs.toNat by omega]
            · simp only [hlt, heq, hi2, hi3, Ne.symm hi2, Ne.symm hi3, if_false]
              by_cases h56 : i < 56
              · rw [if_neg (by omega), if_pos (by omega)]
              · rw [if_pos (by omega)]
    rw [h1]

theorem lengthBytes_get (n : Nat) (i : Nat) (hi : i < 8) : (lengthBytes n)[i]? = some (BitVec.ofNat 8 (n / 2 ^ (8 * (7 - i)))) := by
  simp [lengthBytes, hi]

@[simp] theorem lengthBytes_length (n : Nat) : (lengthBytes n).length = 8 := by simp [lengthBytes]

/-- The bytes of a padded message, by index. -/
theorem shaPad_get (m : List Byte) (k : Nat) :
    (shaPad m).getD k 0 =
      if k < m.length then m.getD k 0
      else if k = m.length then 0x80
      else if k < m.length + 1 + (119 - m.length % 64) % 64 then 0
      else if k < m.length + 9 + (119 - m.length % 64) % 64 then
        BitVec.ofNat 8 (8 * m.length / 2 ^ (8 * (7 - (k - (m.length + 1 + (119 - m.length % 64) % 64)))))
      else 0 := by
  simp only [shaPad, List.getD_eq_getElem?_getD]
  by_cases h1 : k < m.length
  · rw [if_pos h1, List.append_assoc, List.getElem?_append_left h1]
  · rw [if_neg h1, List.append_assoc, List.getElem?_append_right (by omega)]
    by_cases h2 : k = m.length
    · simp [h2]
    · rw [if_neg h2, List.cons_append, show k - m.length = (k - m.length - 1) + 1 by omega, List.getElem?_cons_succ]
      by_cases h3 : k < m.length + 1 + (119 - m.length % 64) % 64
      · rw [if_pos h3, List.getElem?_append_left (by simp; omega), List.getElem?_replicate, if_pos (by omega)]
        rfl
      · rw [if_neg h3, List.getElem?_append_right (by simp; omega), List.length_replicate]
        by_cases h4 : k < m.length + 9 + (119 - m.length % 64) % 64
        · rw [if_pos h4, lengthBytes_get _ _ (by omega),
            show k - (m.length + 1 + (119 - m.length % 64) % 64) = k - m.length - 1 - (119 - m.length % 64) % 64 by omega]
          rfl
        · rw [if_neg h4, List.getElem?_eq_none (by simp; omega)]
          rfl

theorem shaPad_length (m : List Byte) : (shaPad m).length = m.length + 9 + (119 - m.length % 64) % 64 := by
  simp only [shaPad, List.length_append, List.length_cons, List.length_replicate, lengthBytes_length]
  omega

theorem blockOf_drop_get (bs : List Byte) (k i : Nat) (hi : i < 64) : (blockOf (bs.drop k))[i] = bs.getD (k + i) 0 := by
  simp [blockOf, List.getD_eq_getElem?_getD, List.getElem?_drop]

/-- A byte of the 64-bit length of a short message: the two low ones are the 16-bit `L`, the others are zero. -/
theorem length_byte_value {n j : Nat} (hn : n ≤ 8191) (hj : j < 8) :
    BitVec.ofNat 8 (8 * n / 2 ^ (8 * (7 - j))) =
      if j = 6 then (BitVec.ofNat 16 (8 * n)).extractLsb' 8 8
      else if j = 7 then (BitVec.ofNat 16 (8 * n)).extractLsb' 0 8 else 0 := by
  apply BitVec.eq_of_toNat_eq
  have : j = 0 ∨ j = 1 ∨ j = 2 ∨ j = 3 ∨ j = 4 ∨ j = 5 ∨ j = 6 ∨ j = 7 := by omega
  rcases this with h | h | h | h | h | h | h | h <;> subst h <;>
    simp only [BitVec.toNat_ofNat, extract_byte_toNat, BitVec.ofNat_eq_ofNat, Nat.reduceEqDiff, if_true, if_false] <;> omega

/-- Finalizing a HashEngine that holds `m` gives SHA-1 of `m` (R98). -/
theorem finish_holding {m : List Byte} (hm : m.length ≤ 8191) : digestBytes (finish (hashHolding m)).h = sha1 m := by
  have hofs : (BitVec.ofNat 6 m.length).toNat = m.length % 64 := by simp
  have hpre : chain (m.length / 64) m shaIV = chain (m.length / 64) (shaPad m) shaIV := by
    rw [shaPad, List.append_assoc, chain_append (by omega)]
  unfold sha1
  refine congrArg digestBytes ?_
  rw [finish_eq]
  simp only [hashHolding, hofs]
  by_cases h : m.length % 64 < 56
  · rw [if_pos h]
    have hlen : (shaPad m).length / 64 = m.length / 64 + 1 := by
      rw [shaPad_length]
      omega
    rw [hlen, chain_succ, ← hpre]
    refine congrArg (compressWords _) ?_
    refine Vector.ext fun i hi => ?_
    rw [blockOf_drop_get _ _ _ hi, shaPad_get]
    simp only [lastBlock, Vector.getElem_ofFn, Fin.getElem_fin]
    have c1 : 64 * (m.length / 64) + i < m.length ↔ i < m.length % 64 := by omega
    have c2 : 64 * (m.length / 64) + i = m.length ↔ i = m.length % 64 := by omega
    have c3 : i ≥ m.length % 64 → i ≠ m.length % 64 →
        (64 * (m.length / 64) + i < m.length + 1 + (119 - m.length % 64) % 64 ↔ i < 56) := by omega
    have c4 : 64 * (m.length / 64) + i < m.length + 9 + (119 - m.length % 64) % 64 := by omega
    have c5 : 64 * (m.length / 64) + i - (m.length + 1 + (119 - m.length % 64) % 64) = i - 56 := by omega
    simp only [c1, c2, c4, c5, if_true]
    by_cases h1 : i < m.length % 64
    · simp only [h1, if_true, blockOf_drop_get _ _ _ hi]
    · by_cases h2 : i = m.length % 64
      · simp only [h1, if_false, if_pos h2]
      · simp only [h1, h2, if_false, c3 (by omega) h2]
        by_cases h3 : i < 56
        · simp only [h3, if_true, show ¬ i = 62 by omega, show ¬ i = 63 by omega, if_false]
        · simp only [h3, if_false, length_byte_value hm (show i - 56 < 8 by omega), show i - 56 = 6 ↔ i = 62 by omega,
            show i - 56 = 7 ↔ i = 63 by omega]
  · rw [if_neg h]
    have hlen : (shaPad m).length / 64 = m.length / 64 + 1 + 1 := by
      rw [shaPad_length]
      omega
    rw [hlen, chain_succ, chain_succ, ← hpre]
    refine congr (congrArg compressWords ?_) ?_
    · refine congrArg (compressWords _) ?_
      refine Vector.ext fun i hi => ?_
      rw [blockOf_drop_get _ _ _ hi, shaPad_get]
      simp only [firstOfTwo, Vector.getElem_ofFn, Fin.getElem_fin]
      have c1 : 64 * (m.length / 64) + i < m.length ↔ i < m.length % 64 := by omega
      have c2 : 64 * (m.length / 64) + i = m.length ↔ i = m.length % 64 := by omega
      have c3 : 64 * (m.length / 64) + i < m.length + 1 + (119 - m.length % 64) % 64 := by omega
      simp only [c1, c2, c3, if_true]
      by_cases h1 : i < m.length % 64
      · simp only [h1, if_true, blockOf_drop_get _ _ _ hi]
      · simp only [h1, if_false]
    · refine Vector.ext fun i hi => ?_
      rw [blockOf_drop_get _ _ _ hi, shaPad_get]
      simp only [secondOfTwo, Vector.getElem_ofFn]
      have c1 : ¬ 64 * (m.length / 64 + 1) + i < m.length := by omega
      have c2 : ¬ 64 * (m.length / 64 + 1) + i = m.length := by omega
      have c3 : 64 * (m.length / 64 + 1) + i < m.length + 1 + (119 - m.length % 64) % 64 ↔ i < 56 := by omega
      have c4 : 64 * (m.length / 64 + 1) + i < m.length + 9 + (119 - m.length % 64) % 64 := by omega
      have c5 : 64 * (m.length / 64 + 1) + i - (m.length + 1 + (119 - m.length % 64) % 64) = i - 56 := by omega
      simp only [c1, c2, c3, c4, c5, if_true, if_false]
      by_cases h3 : i < 56
      · simp only [h3, if_true, show ¬ i = 62 by omega, show ¬ i = 63 by omega, if_false]
      · simp only [h3, if_false, length_byte_value hm (show i - 56 < 8 by omega), show i - 56 = 6 ↔ i = 62 by omega,
          show i - 56 = 7 ↔ i = 63 by omega]

/-- The HashEngine that holds exactly one block: chained once, nothing in the buffer. -/
theorem hashHolding_block {m : List Byte} (h : m.length = 64) :
    hashHolding m =
      { h := compressWords shaIV (blockOf m), blk := zeroBlock, ofs := 0, bits := 512, phase := .active } := by
  have hd : blockOf (m.drop (64 * (64 / 64))) = zeroBlock := by
    rw [List.drop_of_length_le (by omega)]
    refine Vector.ext fun i hi => ?_
    simp [blockOf, zeroBlock]
  unfold hashHolding
  rw [h, hd]
  rfl

/-! ## The HMAC key block -/

/-- `KEYBLOCK` is RFC 2104's padded key xor the pad (41_hmac.md R102). -/
theorem keyBlock_eq (key : List Byte) (pad : Byte) : keyBlock key pad = (hmacKey key).map (· ^^^ pad) := by
  simp [keyBlock, hmacKey]

theorem keyBlock_length {key : List Byte} (pad : Byte) (h : key.length ≤ 64) : (keyBlock key pad).length = 64 := by
  simp [keyBlock]
  omega

/-- Absorbing a key block after `HRESET()`. -/
theorem absorb_keyBlock {key : List Byte} (pad : Byte) (h : key.length ≤ 64) :
    absorb (keyBlock key pad) hashReset = .ok (hashHolding (keyBlock key pad)) := by
  rw [hashReset_holds, absorb_holding (by rw [keyBlock_length pad h]; simp), List.nil_append]

end Sys2Proof.Machine
end

