-- ==== Sys2Proof/Laws/Memory.lean ====
section
/-! SUPPORT. The laws of the store as data: a read after a write, the canonical form kept by every operation, addresses kept
inside the store, and equal contents are equal data. -/

namespace Sys2Proof.Machine.Memory

theorem above_iff {a : Nat} {m : Memory} : above a m = true ↔ ∀ c ∈ m, a < c.1 := by
  simp [above]

theorem above_mono {a b : Nat} {m : Memory} (h : a ≤ b) (hb : above b m = true) : above a m = true := by
  rw [above_iff] at *
  intro c hc
  have := hb c hc
  omega

/-- An address below every listed one reads as unlisted. -/
theorem read_of_above {a : Nat} {m : Memory} (h : above a m = true) : read a m = unlisted := by
  induction m with
  | nil => rfl
  | cons c m ih =>
    simp only [above, List.all_cons, Bool.and_eq_true, decide_eq_true_eq] at h
    simp only [read]
    rw [if_neg (by omega)]
    exact ih h.2

theorem read_cons_same (a : Nat) (v : Byte) {m : Memory} (h : above a m = true) : read a (cons a v m) = v := by
  unfold cons
  split
  · next hv => rw [read_of_above h, hv]
  · simp [read]

theorem read_cons_other {a b : Nat} (v : Byte) (m : Memory) (h : b ≠ a) : read b (cons a v m) = read b m := by
  unfold cons
  split
  · rfl
  · simp [read, h]

theorem wf_cons_cell {a : Nat} {v : Byte} {m : Memory} :
    wf ((a, v) :: m) = true ↔ v ≠ unlisted ∧ above a m = true ∧ wf m = true := by
  simp [wf, and_assoc]

theorem wf_cons {a : Nat} (v : Byte) {m : Memory} (ha : above a m = true) (h : wf m = true) : wf (cons a v m) = true := by
  unfold cons
  split
  · exact h
  · next hv => exact wf_cons_cell.2 ⟨hv, ha, h⟩

theorem above_cons {a b : Nat} (v : Byte) {m : Memory} (hab : a < b) (h : above a m = true) : above a (cons b v m) = true := by
  unfold cons
  split
  · exact h
  · simpa [above, hab] using h

theorem above_write {a b : Nat} (v : Byte) {m : Memory} (hab : a < b) (h : above a m = true) : above a (write b v m) = true := by
  induction m with
  | nil => exact above_cons v hab h
  | cons c m ih =>
    have hc : a < c.1 ∧ above a m = true := by simpa [above] using h
    simp only [write]
    split
    · exact above_cons v hab h
    · split
      · exact above_cons v hab hc.2
      · have := ih hc.2
        simpa [above, hc.1] using this

/-- A write keeps the canonical form. -/
theorem wf_write (a : Nat) (v : Byte) {m : Memory} (h : wf m = true) : wf (write a v m) = true := by
  induction m with
  | nil => exact wf_cons v rfl h
  | cons c m ih =>
    obtain ⟨hv, hab, hm⟩ := wf_cons_cell.1 h
    simp only [write]
    split
    · next hlt => exact wf_cons v (by simpa [above, hlt] using above_mono (Nat.le_of_lt hlt) hab) h
    · split
      · next heq => exact wf_cons v (heq ▸ hab) hm
      · exact wf_cons_cell.2 ⟨hv, above_write v (by omega) hab, ih hm⟩

/-- A read after a write to the same address gives the byte written. -/
theorem read_write_same (a : Nat) (v : Byte) {m : Memory} (h : wf m = true) : read a (write a v m) = v := by
  induction m with
  | nil => exact read_cons_same a v rfl
  | cons c m ih =>
    obtain ⟨_, hab, hm⟩ := wf_cons_cell.1 h
    simp only [write]
    split
    · next hlt => exact read_cons_same a v (by simpa [above, hlt] using above_mono (Nat.le_of_lt hlt) hab)
    · split
      · next heq => exact read_cons_same a v (heq ▸ hab)
      · next hne => simpa [read, hne] using ih hm

/-- A write leaves every other address alone, whatever the form of the store. -/
theorem read_write_other {a b : Nat} (v : Byte) (m : Memory) (hne : b ≠ a) : read b (write a v m) = read b m := by
  induction m with
  | nil => exact read_cons_other v [] hne
  | cons c m ih =>
    simp only [write]
    split
    · exact read_cons_other v _ hne
    · split
      · next heq => subst heq; rw [read_cons_other v m hne]; simp [read, hne]
      · simp only [read, ih]

theorem read_write (a b : Nat) (v : Byte) {m : Memory} (h : wf m = true) :
    read b (write a v m) = if b = a then v else read b m := by
  split
  · next heq => subst heq; exact read_write_same b v h
  · next hne => exact read_write_other v m hne

theorem inside_cons {size a : Nat} (v : Byte) {m : Memory} (ha : a < size) (h : inside size m = true) :
    inside size (cons a v m) = true := by
  unfold cons
  split
  · exact h
  · simpa [inside, ha] using h

/-- A write inside the store lists no address outside it. -/
theorem inside_write {size a : Nat} (v : Byte) {m : Memory} (ha : a < size) (h : inside size m = true) :
    inside size (write a v m) = true := by
  induction m with
  | nil => exact inside_cons v ha h
  | cons c m ih =>
    have hc : c.1 < size ∧ inside size m = true := by simpa [inside] using h
    simp only [write]
    split
    · exact inside_cons v ha h
    · split
      · exact inside_cons v ha hc.2
      · have := ih hc.2
        simpa [inside, hc.1] using this

theorem wf_writeAll (cells : List Host.Cell) {m : Memory} (h : wf m = true) : wf (writeAll cells m) = true := by
  unfold writeAll
  induction cells generalizing m with
  | nil => exact h
  | cons c cs ih => exact ih (wf_write c.1 c.2 h)

theorem inside_writeAll {size : Nat} {cells : List Host.Cell} {m : Memory} (hc : ∀ c ∈ cells, c.1 < size)
    (h : inside size m = true) : inside size (writeAll cells m) = true := by
  unfold writeAll
  induction cells generalizing m with
  | nil => exact h
  | cons c cs ih =>
    exact ih (fun d hd => hc d (List.mem_cons_of_mem _ hd)) (inside_write c.2 (hc c (List.mem_cons_self ..)) h)

@[simp] theorem writeAll_nil (m : Memory) : writeAll [] m = m := rfl

@[simp] theorem writeAll_cons (c : Host.Cell) (cs : List Host.Cell) (m : Memory) :
    writeAll (c :: cs) m = writeAll cs (write c.1 c.2 m) := rfl

theorem writeAll_append (xs ys : List Host.Cell) (m : Memory) : writeAll (xs ++ ys) m = writeAll ys (writeAll xs m) := by
  simp [writeAll, List.foldl_append]

/-- An address no cell names is left alone. -/
theorem read_writeAll_other {b : Nat} {cells : List Host.Cell} (m : Memory) (h : ∀ c ∈ cells, c.1 ≠ b) :
    read b (writeAll cells m) = read b m := by
  induction cells generalizing m with
  | nil => rfl
  | cons c cs ih =>
    rw [writeAll_cons, ih _ fun d hd => h d (List.mem_cons_of_mem _ hd)]
    exact read_write_other c.2 m (h c (List.mem_cons_self ..)).symm

/-- Two canonical stores with the same contents are the same data. -/
theorem ext_of_wf {m m' : Memory} (h : wf m = true) (h' : wf m' = true) (heq : ∀ a, read a m = read a m') : m = m' := by
  induction m generalizing m' with
  | nil =>
    cases m' with
    | nil => rfl
    | cons c m' =>
      obtain ⟨hv, _, _⟩ := wf_cons_cell.1 h'
      have := heq c.1
      simp only [read, if_true] at this
      exact absurd this.symm hv
  | cons c m ih =>
    obtain ⟨hv, hab, hm⟩ := wf_cons_cell.1 h
    cases m' with
    | nil =>
      have := heq c.1
      simp only [read, if_true] at this
      exact absurd this hv
    | cons c' m' =>
      obtain ⟨hv', hab', hm'⟩ := wf_cons_cell.1 h'
      have hkey : c.1 = c'.1 := by
        rcases Nat.lt_trichotomy c.1 c'.1 with hlt | he | hgt
        · have := heq c.1
          have hr : read c.1 m' = unlisted := read_of_above (above_mono (Nat.le_of_lt hlt) hab')
          simp only [read, if_true, if_neg (Nat.ne_of_lt hlt), hr] at this
          exact absurd this hv
        · exact he
        · have := heq c'.1
          have hr : read c'.1 m = unlisted := read_of_above (above_mono (Nat.le_of_lt hgt) hab)
          simp only [read, if_true, if_neg (Nat.ne_of_lt hgt), hr] at this
          exact absurd this.symm hv'
      have hval : c.2 = c'.2 := by
        have := heq c.1
        simpa [read, hkey] using this
      have hrest : m = m' := by
        refine ih hm hm' fun a => ?_
        by_cases ha : a = c.1
        · subst ha
          rw [read_of_above hab, read_of_above (hkey ▸ hab')]
        · have := heq a
          simpa [read, ha, hkey ▸ ha] using this
      rw [hrest, show c = c' from Prod.ext hkey hval]

end Sys2Proof.Machine.Memory
end

