-- ==== Sys2Proof/Laws/Store.lean ====
section
/-! SUPPORT. `NVRead` and `NVWrite`: when they answer, what they read, what a write leaves at every address (20_memory.md R56,
R57, R59), and which accesses a legal configuration allows (R50). -/

namespace Sys2Proof.Machine

open Safety

/-! ## The single-byte writes of one NVWrite -/

@[simp] theorem cellsAt_length (a : Nat) (v : List Byte) : (cellsAt a v).length = v.length := by
  induction v generalizing a with
  | nil => rfl
  | cons b v ih => simp [cellsAt, ih]

theorem mem_cellsAt {a : Nat} {v : List Byte} {c : Host.Cell} (h : c ∈ cellsAt a v) : a ≤ c.1 ∧ c.1 < a + v.length := by
  induction v generalizing a with
  | nil => simp [cellsAt] at h
  | cons b v ih =>
    rcases List.mem_cons.1 h with rfl | h
    · simp
    · have := ih h
      simp only [List.length_cons]
      omega

/-- Every byte after a multi-byte write. -/
theorem read_writeAll_cellsAt {a b : Nat} {v : List Byte} {m : Memory} (h : Memory.wf m = true) :
    Memory.read b (Memory.writeAll (cellsAt a v) m) =
      if a ≤ b ∧ b < a + v.length then v.getD (b - a) 0 else Memory.read b m := by
  induction v generalizing a m with
  | nil =>
    simp only [cellsAt, Memory.writeAll_nil, List.length_nil]
    rw [if_neg (by omega)]
  | cons c v ih =>
    rw [cellsAt, Memory.writeAll_cons, ih (Memory.wf_write a c h), List.length_cons]
    by_cases h1 : a + 1 ≤ b ∧ b < a + 1 + v.length
    · rw [if_pos h1, if_pos (by omega), show b - a = (b - (a + 1)) + 1 by omega, List.getD_cons_succ]
    · rw [if_neg h1, Memory.read_write _ _ _ h]
      by_cases h2 : b = a
      · subst h2
        simp
      · rw [if_neg h2, if_neg (by omega)]

/-- The writes of one NVWrite as pairs of an address and its byte. -/
theorem cellsAt_eq_zip (a : Nat) (v : List Byte) : cellsAt a v = List.zip ((List.range v.length).map (a + ·)) v := by
  induction v generalizing a with
  | nil => rfl
  | cons b v ih =>
    rw [cellsAt, ih, List.length_cons, List.range_succ_eq_map, List.map_cons, List.map_map, List.zip_cons_cons]
    exact congrArg₂ _ rfl (congrArg (List.zip · v) (List.map_congr_left fun k _ => by simp [Nat.add_assoc, Nat.add_comm 1]))

/-- A prefix of the writes leaves a prefix of the bytes. -/
theorem take_cellsAt (n a : Nat) (v : List Byte) : (cellsAt a v).take n = cellsAt a (v.take n) := by
  induction v generalizing n a with
  | nil => simp [cellsAt]
  | cons b v ih =>
    cases n with
    | zero => rfl
    | succ n => simp [cellsAt, ih]

theorem drop_cellsAt (n a : Nat) (v : List Byte) : (cellsAt a v).drop n = cellsAt (a + n) (v.drop n) := by
  induction v generalizing n a with
  | nil => simp [cellsAt]
  | cons b v ih =>
    cases n with
    | zero => rfl
    | succ n =>
      simp only [cellsAt, List.drop_succ_cons, ih]
      congr 1
      omega

/-! ## NVRead and NVWrite -/

theorem nvRead_ok {a n : Nat} {s : State} (h : a + n ≤ s.cfg.nvSize) :
    nvRead a n s = .ok ((List.range n).map fun i => Memory.read (a + i) s.nv) := by
  simp [nvRead, h]

theorem nvRead_eq_ok {a n : Nat} {s : State} {bs : List Byte} (h : nvRead a n s = .ok bs) :
    a + n ≤ s.cfg.nvSize ∧ bs = (List.range n).map fun i => Memory.read (a + i) s.nv := by
  unfold nvRead at h
  split at h
  · next hle => exact ⟨hle, (Except.ok.inj h).symm⟩
  · cases h

theorem nvWrite_ok {a : Nat} {v : List Byte} {s : State} (h : a + v.length ≤ s.cfg.nvSize) :
    nvWrite a v s = .ok (storeCells (cellsAt a v) s) := by
  simp [nvWrite, h]

theorem nvWrite_eq_ok {a : Nat} {v : List Byte} {s t : State} (h : nvWrite a v s = .ok t) :
    a + v.length ≤ s.cfg.nvSize ∧ t = storeCells (cellsAt a v) s := by
  unfold nvWrite at h
  split at h
  · next hle => exact ⟨hle, (Except.ok.inj h).symm⟩
  · cases h

/-- The word at an address, when it is inside the store. -/
def wordAt (a : Nat) (m : Memory) : Word :=
  readBE32 (Memory.read a m) (Memory.read (a + 1) m) (Memory.read (a + 2) m) (Memory.read (a + 3) m)

theorem nvReadWord_ok {a : Nat} {s : State} (h : a + 4 ≤ s.cfg.nvSize) : nvReadWord a s = .ok (wordAt a s.nv) := by
  simp [nvReadWord, nvRead_ok h, wordAt, pure, Except.pure, List.range_succ]

theorem nvReadWord_eq_ok {a : Nat} {s : State} {c : Word} (h : nvReadWord a s = .ok c) :
    a + 4 ≤ s.cfg.nvSize ∧ c = wordAt a s.nv := by
  obtain ⟨bs, h1, h2⟩ := bind_ok h
  have hle := (nvRead_eq_ok h1).1
  have := nvReadWord_ok hle
  rw [h] at this
  exact ⟨hle, Except.ok.inj this⟩

/-- The persisted counter as a number. -/
theorem wordAt_toNat (c : Config) (m : Memory) : (wordAt (c.nvTimeOfs + 4) m).toNat = storedCounter c m := by
  simp [wordAt, readBE32_toNat, storedCounter]

theorem storedCounter_lt (c : Config) (m : Memory) : storedCounter c m < 2 ^ 32 := by
  rw [← wordAt_toNat]
  exact BitVec.isLt _

/-! ## What a legal configuration allows (R49, R50) -/

/-- The store facts of a legal configuration, as arithmetic. -/
structure LegalLayout (c : Config) : Prop where
  lenInside : c.nvLenOfs + 1 ≤ c.nvSize
  secretInside : c.nvSecretOfs + 64 ≤ c.nvSize
  timeInside : c.nvTimeOfs + 8 ≤ c.nvSize
  pwInside : c.nvPwOfs + 6 ≤ c.nvSize
  lenSecret : c.nvLenOfs + 1 ≤ c.nvSecretOfs ∨ c.nvSecretOfs + 64 ≤ c.nvLenOfs
  lenTime : c.nvLenOfs + 1 ≤ c.nvTimeOfs ∨ c.nvTimeOfs + 8 ≤ c.nvLenOfs
  lenPw : c.nvLenOfs + 1 ≤ c.nvPwOfs ∨ c.nvPwOfs + 6 ≤ c.nvLenOfs
  secretTime : c.nvSecretOfs + 64 ≤ c.nvTimeOfs ∨ c.nvTimeOfs + 8 ≤ c.nvSecretOfs
  secretPw : c.nvSecretOfs + 64 ≤ c.nvPwOfs ∨ c.nvPwOfs + 6 ≤ c.nvSecretOfs
  timePw : c.nvTimeOfs + 8 ≤ c.nvPwOfs ∨ c.nvPwOfs + 6 ≤ c.nvTimeOfs

theorem legalLayout {c : Config} (h : configLegal c = true) : LegalLayout c := by
  simp only [configLegal, layoutLegal, disjoint, Bool.and_eq_true, Bool.or_eq_true, decide_eq_true_eq] at h
  obtain ⟨_, ⟨⟨⟨⟨⟨⟨⟨⟨⟨h1, h2⟩, h3⟩, h4⟩, h5⟩, h6⟩, h7⟩, h8⟩, h9⟩, h10⟩⟩ := h
  exact ⟨h1, h2, h3, h4, h5, h6, h7, h8, h9, h10⟩

theorem legal_holdArm {c : Config} (h : configLegal c = true) : c.holdArm ≠ 0 := by
  simp only [configLegal, Bool.and_eq_true] at h
  simpa using h.1.1.1.1

end Sys2Proof.Machine
end

