-- ==== Sys2Proof/Laws/Exec.lean ====
section
/-! SUPPORT. What a frame does, once: the common checks around its pseudocode, the pseudocode of every frame by name, and one
equation per pseudocode that later proofs cite instead of unfolding it (60_exceptions.md R148, R149). -/

namespace Sys2Proof.Machine

open Reference Safety

/-! ## The common checks -/

theorem runFrame_halted {o : Byte} {e : Bool} {b : State → Except Stop State} {s : State} (h : s.halted = true) :
    runFrame o e b s = .next s := by
  simp [runFrame, h]

theorem runFrame_busy {o : Byte} {b : State → Except Stop State} {s : State} (h : s.halted = false)
    (he : s.emitting = true) : runFrame o true b s = .next (takeFault .engineBusy o s) := by
  simp [runFrame, h, he]

theorem runFrame_ok {o : Byte} {e : Bool} {b : State → Except Stop State} {s t : State} (h : s.halted = false)
    (he : (e && s.emitting) = false) (hb : b s = .ok t) : runFrame o e b s = .next t := by
  simp [runFrame, h, he, hb]

theorem runFrame_raise {o : Byte} {e : Bool} {b : State → Except Stop State} {s : State} {c : FaultCode}
    (h : s.halted = false) (he : (e && s.emitting) = false) (hb : b s = .error (.raise c)) :
    runFrame o e b s = .next (takeFault c o s) := by
  simp [runFrame, h, he, hb]

/-- Everything that ends in a next state: a halted CORE that does nothing, a fault, or the pseudocode's own end. -/
theorem runFrame_next {o : Byte} {e : Bool} {b : State → Except Stop State} {s t : State}
    (h : runFrame o e b s = .next t) :
    (s.halted = true ∧ t = s) ∨ (s.halted = false ∧ ∃ c, t = takeFault c o s) ∨
      (s.halted = false ∧ (e && s.emitting) = false ∧ b s = .ok t) := by
  unfold runFrame at h
  split at h
  · next hh => exact .inl ⟨hh, by injection h with h; exact h.symm⟩
  · next hh =>
    have hh : s.halted = false := by simpa using hh
    split at h
    · injection h with h
      exact .inr (.inl ⟨hh, _, h.symm⟩)
    · next he =>
      split at h
      · next t' ht =>
        injection h with h
        exact .inr (.inr ⟨hh, by simpa using he, h ▸ ht⟩)
      · injection h with h
        exact .inr (.inl ⟨hh, _, h.symm⟩)
      · cases h

/-! ## The pseudocode of every frame -/

/-- Step (4) of R148: the frame's own pseudocode. -/
def bodyOf : Instr → State → Except Stop State
  | .shaReset => fun s => .ok (shaResetBody s)
  | .shaUpdate data => absorbState data
  | .shaDigest => shaDigestBody
  | .macInit key => macInitBody key
  | .macUpdate data => macUpdateBody data
  | .macFinal key => macFinalBody key
  | .otpTrunc => otpTruncBody
  | .tcBcd b => fun s => .ok (tcBcdBody b s)
  | .tcMono => tcMonoBody
  | .ctlPoll inByte => ctlPollBody inByte
  | .hostProvision secret => hostProvisionBody secret
  | .hostSetTime b => fun s => .ok (hostSetTimeBody b s)
  | .hostSetCounter cval => hostSetCounterBody cval

theorem exec_eq (i : Instr) (s : State) : exec i s = runFrame i.opcode (engineFrame i) (bodyOf i) s := by
  cases i <;> rfl

theorem exec_halted {i : Instr} {s : State} (h : s.halted = true) : exec i s = .next s := by
  rw [exec_eq, runFrame_halted h]

/-- The conditions under which a frame's pseudocode runs, and ends well. -/
theorem exec_ok {i : Instr} {s t : State} (h : s.halted = false) (he : (engineFrame i && s.emitting) = false)
    (hb : bodyOf i s = .ok t) : exec i s = .next t := by
  rw [exec_eq, runFrame_ok h he hb]

theorem exec_raise {i : Instr} {s : State} {c : FaultCode} (h : s.halted = false)
    (he : (engineFrame i && s.emitting) = false) (hb : bodyOf i s = .error (.raise c)) :
    exec i s = .next (takeFault c i.opcode s) := by
  rw [exec_eq, runFrame_raise h he hb]

/-- Everything a frame that ends in a next state can have done. -/
theorem exec_next {i : Instr} {s t : State} (h : exec i s = .next t) :
    (s.halted = true ∧ t = s) ∨ (s.halted = false ∧ ∃ c, t = takeFault c i.opcode s) ∨
      (s.halted = false ∧ (engineFrame i && s.emitting) = false ∧ bodyOf i s = .ok t) :=
  runFrame_next (exec_eq i s ▸ h)

/-! ## One equation per pseudocode: HashEngine and MacEngine -/

theorem absorbState_eq (data : List Byte) (s : State) :
    absorbState data s = (absorb data s.hash >>= fun e => .ok { s with hash := e }) := rfl

theorem absorbState_eq_ok {data : List Byte} {s t : State} (h : absorbState data s = .ok t) :
    s.hash.phase = .active ∧ s.hash.bits.toNat + 8 * data.length ≤ 0xFFFF ∧
      t = { s with hash :=
        { absorbBytes data s.hash with bits := BitVec.ofNat 16 (s.hash.bits.toNat + 8 * data.length) } } := by
  obtain ⟨e, he, ht⟩ := bind_ok h
  obtain ⟨hp, hl, rfl⟩ := absorb_eq_ok he
  exact ⟨hp, hl, (Except.ok.inj ht).symm⟩

theorem absorbState_ok {data : List Byte} {s : State} (h : s.hash.phase = .active)
    (hl : s.hash.bits.toNat + 8 * data.length ≤ 0xFFFF) :
    absorbState data s = .ok { s with hash :=
      { absorbBytes data s.hash with bits := BitVec.ofNat 16 (s.hash.bits.toNat + 8 * data.length) } } := by
  rw [absorbState_eq, absorb_ok h hl, ok_bind]

theorem absorbState_holding {m data : List Byte} {s : State} (hs : s.hash = hashHolding m)
    (h : m.length + data.length ≤ 8191) :
    absorbState data s = .ok { s with hash := hashHolding (m ++ data) } := by
  rw [absorbState_eq, hs, absorb_holding h, ok_bind]

theorem shaDigestBody_ok {s : State} (h : s.hash.phase = .active) :
    shaDigestBody s = .ok { s with
      hash := finish s.hash, dout := digestBytes (finish s.hash).h, doutValid := true, mphase := .idle } := by
  simp [shaDigestBody, finalize_ok h, pure, Except.pure]

theorem shaDigestBody_eq_ok {s t : State} (h : shaDigestBody s = .ok t) :
    s.hash.phase = .active ∧ t = { s with
      hash := finish s.hash, dout := digestBytes (finish s.hash).h, doutValid := true, mphase := .idle } := by
  obtain ⟨r, hr, -⟩ := bind_ok h
  have hp := (finalize_eq_ok hr).1
  exact ⟨hp, (Except.ok.inj ((shaDigestBody_ok hp).symm.trans h)).symm⟩

theorem macInitBody_ok {key : List Byte} {s : State} (h : key.length ≤ 64) :
    macInitBody key s = .ok { s with hash := hashHolding (keyBlock key ipad), mphase := .inner } := by
  simp [macInitBody, absorb_keyBlock ipad h, pure, Except.pure, show ¬ 64 < key.length by omega]

theorem macInitBody_eq_ok {key : List Byte} {s t : State} (h : macInitBody key s = .ok t) :
    key.length ≤ 64 ∧ t = { s with hash := hashHolding (keyBlock key ipad), mphase := .inner } := by
  by_cases hk : key.length ≤ 64
  · exact ⟨hk, (Except.ok.inj ((macInitBody_ok hk).symm.trans h)).symm⟩
  · simp [macInitBody, show 64 < key.length by omega] at h

theorem macUpdateBody_inner {data : List Byte} {s : State} (h : s.mphase = .inner) :
    macUpdateBody data s = absorbState data s := by
  simp [macUpdateBody, h]

theorem macUpdateBody_eq_ok {data : List Byte} {s t : State} (h : macUpdateBody data s = .ok t) :
    s.mphase = .inner ∧ absorbState data s = .ok t := by
  unfold macUpdateBody at h
  split at h
  · cases h
  · next hm => exact ⟨by simpa using hm, h⟩

/-- The outer message of a MAC: the outer key block, then the inner digest. -/
def outerMessage (key : List Byte) (inner : Digest) : List Byte := keyBlock key opad ++ inner.toList

theorem outerMessage_length {key : List Byte} {inner : Digest} (h : key.length ≤ 64) :
    (outerMessage key inner).length = 84 := by
  simp [outerMessage, keyBlock_length opad h]

theorem macFinalBody_ok {key : List Byte} {s : State} (hk : key.length ≤ 64) (hm : s.mphase = .inner)
    (hp : s.hash.phase = .active) :
    macFinalBody key s = .ok { s with
      hash := finish (hashHolding (outerMessage key (digestBytes (finish s.hash).h)))
      dout := sha1 (outerMessage key (digestBytes (finish s.hash).h)), doutValid := true, mphase := .done } := by
  have h64 : (keyBlock key opad).length = 64 := keyBlock_length opad hk
  rw [← finish_holding (by rw [outerMessage_length hk]; omega)]
  simp only [macFinalBody, show ¬ 64 < key.length by omega, hm, if_false, ne_eq, not_true_eq_false, finalize_ok hp, ok_bind,
    absorb_keyBlock opad hk, absorb_holding (m := keyBlock key opad) (data := (digestBytes (finish s.hash).h).toList)
      (by rw [h64]; simp)]
  rw [finalize_ok rfl]
  rfl

theorem macFinalBody_eq_ok {key : List Byte} {s t : State} (h : macFinalBody key s = .ok t) :
    key.length ≤ 64 ∧ s.mphase = .inner ∧ s.hash.phase = .active ∧ t = { s with
      hash := finish (hashHolding (outerMessage key (digestBytes (finish s.hash).h)))
      dout := sha1 (outerMessage key (digestBytes (finish s.hash).h)), doutValid := true, mphase := .done } := by
  have h0 := h
  unfold macFinalBody at h
  split at h
  · cases h
  · next hk =>
    split at h
    · cases h
    · next hm =>
      have hm : s.mphase = .inner := by simpa using hm
      obtain ⟨r, hr, -⟩ := bind_ok h
      have hp := (finalize_eq_ok hr).1
      have hk : key.length ≤ 64 := by omega
      exact ⟨hk, hm, hp, (Except.ok.inj ((macFinalBody_ok hk hm hp).symm.trans h0)).symm⟩

/-! ## OtpCodec and TimeCounter -/

theorem otpTruncBody_ok {s : State} (h : s.doutValid = true) :
    otpTruncBody s = .ok { s with
      pw := renderPassword ((truncWindow s.cfg.truncMask s.dout).toNat % 1000000)
      truncP := truncWindow s.cfg.truncMask s.dout
      code := BitVec.ofNat 32 ((truncWindow s.cfg.truncMask s.dout).toNat % 1000000), pwValid := true } := by
  simp [otpTruncBody, h]

theorem otpTruncBody_eq_ok {s t : State} (h : otpTruncBody s = .ok t) :
    s.doutValid = true ∧ t = { s with
      pw := renderPassword ((truncWindow s.cfg.truncMask s.dout).toNat % 1000000)
      truncP := truncWindow s.cfg.truncMask s.dout
      code := BitVec.ofNat 32 ((truncWindow s.cfg.truncMask s.dout).toNat % 1000000), pwValid := true } := by
  by_cases hv : s.doutValid = true
  · exact ⟨hv, (Except.ok.inj ((otpTruncBody_ok hv).symm.trans h)).symm⟩
  · simp [otpTruncBody, hv] at h

/-- TC_BCD writes some counter, the decoded one when the month is 1 to 12, and nothing else but the draw counter. -/
theorem tcBcdBody_eq (b : ClockBytes) (s : State) :
    ∃ c, (∀ c', bcdCounter b = some c' → c = c') ∧
      tcBcdBody b s = setTime c { s with draws := if (bcdCounter b).isSome then s.draws else s.draws + 1 } := by
  unfold tcBcdBody
  cases h : bcdCounter b with
  | none => exact ⟨_, by simp, rfl⟩
  | some c => exact ⟨c, by simp, rfl⟩

theorem tcMonoBody_exhausted {s : State} (h : s.cfg.nvTimeOfs + 8 ≤ s.cfg.nvSize)
    (hc : wordAt (counterAddr s) s.nv = 0xFFFFFFFF) : tcMonoBody s = .error (.raise .counterExhausted) := by
  have h4 : counterAddr s + 4 ≤ s.cfg.nvSize := by unfold counterAddr; omega
  simp [tcMonoBody, nvReadWord_ok h4, hc]

theorem tcMonoBody_ok {s : State} (h : s.cfg.nvTimeOfs + 8 ≤ s.cfg.nvSize)
    (hc : wordAt (counterAddr s) s.nv ≠ 0xFFFFFFFF) :
    tcMonoBody s = .ok (storeCells (cellsAt (counterAddr s) (be32 (wordAt (counterAddr s) s.nv + 1)))
      (setTime (wordAt (counterAddr s) s.nv) s)) := by
  have h4 : counterAddr s + 4 ≤ s.cfg.nvSize := by unfold counterAddr; omega
  simp only [tcMonoBody, nvReadWord_ok h4, ok_bind, hc, if_false]
  exact nvWrite_ok h4

theorem tcMonoBody_eq_ok {s t : State} (h : tcMonoBody s = .ok t) :
    wordAt (counterAddr s) s.nv ≠ 0xFFFFFFFF ∧ counterAddr s + 4 ≤ s.cfg.nvSize ∧
      t = storeCells (cellsAt (counterAddr s) (be32 (wordAt (counterAddr s) s.nv + 1)))
        (setTime (wordAt (counterAddr s) s.nv) s) := by
  obtain ⟨c, hc, h⟩ := bind_ok h
  obtain ⟨h4, rfl⟩ := nvReadWord_eq_ok hc
  split at h
  · cases h
  · next hne => exact ⟨hne, h4, (nvWrite_eq_ok h).2⟩

/-! ## The generation -/

theorem secretLength_ok {s : State} (h : s.cfg.nvLenOfs + 1 ≤ s.cfg.nvSize) :
    secretLength s = .ok (storedSecret s.cfg s.nv).length := by
  simp [secretLength, nvRead_ok h, storedSecret, pure, Except.pure]

theorem storedSecret_length (c : Config) (m : Memory) : (storedSecret c m).length ≤ 64 := by
  simp [storedSecret]

/-- The secret read for a generation. -/
theorem nvRead_secret {s : State} (h : s.cfg.nvSecretOfs + 64 ≤ s.cfg.nvSize) :
    nvRead s.cfg.nvSecretOfs (storedSecret s.cfg s.nv).length s = .ok (storedSecret s.cfg s.nv) := by
  have hn := storedSecret_length s.cfg s.nv
  rw [nvRead_ok (by omega)]
  simp [storedSecret]

/-- The inner message of a generation's MAC, with its key block. -/
def innerMessage (key : List Byte) (tbuf : Vector Byte 8) : List Byte := keyBlock key ipad ++ tbuf.toList

/-- The MAC of a generation. -/
def generationMac (key : List Byte) (tbuf : Vector Byte 8) : Digest := hmac key tbuf.toList

theorem generationMac_eq {key : List Byte} {tbuf : Vector Byte 8} (h : key.length ≤ 64) :
    sha1 (outerMessage key (digestBytes (finish (hashHolding (innerMessage key tbuf))).h)) = generationMac key tbuf := by
  have hl : (innerMessage key tbuf).length ≤ 8191 := by simp [innerMessage, keyBlock_length ipad h]
  rw [finish_holding hl]
  simp only [outerMessage, innerMessage, keyBlock_eq, generationMac, hmac, nestedMac]
  rfl

/-- What steps (2) to (5) of GENERATE (R134) leave, from the state `u` after step (1). -/
def generated (u : State) : State :=
  let key := storedSecret u.cfg u.nv
  let d := generationMac key u.tbuf
  let p := truncWindow u.cfg.truncMask d
  let pw := renderPassword (p.toNat % 1000000)
  storeCells (cellsAt u.cfg.nvPwOfs pw.toList)
    { u with
      hash := finish (hashHolding (outerMessage key (digestBytes (finish (hashHolding (innerMessage key u.tbuf))).h)))
      mphase := .done
      dout := d
      doutValid := true
      pw := pw
      truncP := p
      code := BitVec.ofNat 32 (p.toNat % 1000000)
      pwValid := true }

theorem generate_eq {s : State} (h : LegalLayout s.cfg) (ht : ∀ u, generateTime s = .ok u → u.cfg = s.cfg) :
    generate s = (generateTime s >>= fun u => .ok (generated u)) := by
  unfold generate
  cases hu : generateTime s with
  | error r => rfl
  | ok u =>
    have hc := ht u hu
    have hk := storedSecret_length u.cfg u.nv
    have hs : u.cfg.nvSecretOfs + 64 ≤ u.cfg.nvSize := by rw [hc]; exact h.secretInside
    have hlen : (keyBlock (storedSecret u.cfg u.nv) ipad).length + u.tbuf.toList.length ≤ 8191 := by
      simp [keyBlock_length ipad hk]
    obtain ⟨v1, e1, hv1⟩ : ∃ v, macInitBody (storedSecret u.cfg u.nv) u = .ok v ∧ v = _ := ⟨_, macInitBody_ok hk, rfl⟩
    obtain ⟨v2, e2, hv2⟩ : ∃ v, macUpdateBody v1.tbuf.toList v1 = .ok v ∧ v = _ :=
      ⟨_, (macUpdateBody_inner (by rw [hv1])).trans
        (absorbState_holding (m := keyBlock (storedSecret u.cfg u.nv) ipad) (by rw [hv1]) (by rw [hv1]; exact hlen)), rfl⟩
    have f1 : v2.cfg = u.cfg ∧ v2.nv = u.nv := by rw [hv2, hv1]; exact ⟨rfl, rfl⟩
    have e3 : nvRead v2.cfg.nvSecretOfs (storedSecret u.cfg u.nv).length v2 = .ok (storedSecret u.cfg u.nv) := by
      rw [← f1.1, ← f1.2]
      exact nvRead_secret (by rw [f1.1]; exact hs)
    obtain ⟨v3, e4, hv3⟩ : ∃ v, macFinalBody (storedSecret u.cfg u.nv) v2 = .ok v ∧ v = _ :=
      ⟨_, macFinalBody_ok hk (by rw [hv2, hv1]) (by rw [hv2]; rfl), rfl⟩
    obtain ⟨v4, e5, hv4⟩ : ∃ v, otpTruncBody v3 = .ok v ∧ v = _ := ⟨_, otpTruncBody_ok (by rw [hv3]), rfl⟩
    have f2 : v4.cfg = u.cfg := by rw [hv4, hv3, ← f1.1]
    have e6 : nvWrite v4.cfg.nvPwOfs v4.pw.toList v4 = .ok (storeCells (cellsAt v4.cfg.nvPwOfs v4.pw.toList) v4) :=
      nvWrite_ok (by rw [f2, hc]; simpa using h.pwInside)
    rw [ok_bind, secretLength_ok (by rw [hc]; exact h.lenInside), ok_bind, nvRead_secret hs, ok_bind, e1, ok_bind, e2, ok_bind,
      e3, ok_bind, e4, ok_bind, e5, ok_bind, e6, ok_bind]
    have f3 : v2.hash = hashHolding (innerMessage (storedSecret u.cfg u.nv) u.tbuf) := by rw [hv2, hv1]; rfl
    rw [f3, generationMac_eq hk] at hv3
    rw [hv4, hv3, hv2, hv1]
    rfl

/-- Step (1) of a generation with the external clock (R134, R127). -/
theorem generateTime_ext {s : State} (h : s.cfg.timeSrc = .ext) :
    generateTime s = .ok (tcBcdBody (clockRead s).1 (clockRead s).2) := by
  simp [generateTime, h]

theorem generateTime_mono {s : State} (h : s.cfg.timeSrc = .mono) : generateTime s = tcMonoBody s := by
  simp [generateTime, h]

/-- Reading the clock takes an answer or a free value, and changes nothing else but the draw counter. -/
theorem clockRead_eq (s : State) :
    ∃ b rest n, clockRead s = (b, { s with clockAnswers := rest, draws := n }) ∧ s.draws ≤ n ∧
      (s.clockAnswers = b :: rest ∨ (s.clockAnswers = [] ∧ rest = [])) := by
  unfold clockRead
  split
  · next b bs h => exact ⟨b, bs, s.draws, by rw [Prod.mk.injEq]; exact ⟨rfl, rfl⟩, Nat.le_refl _, .inl h⟩
  · next h => exact ⟨_, [], s.draws + 1, by rw [← h], Nat.le_succ _, .inr ⟨h, rfl⟩⟩

theorem generateTime_cfg {s u : State} (h : generateTime s = .ok u) : u.cfg = s.cfg := by
  cases hs : s.cfg.timeSrc with
  | ext =>
    rw [generateTime_ext hs] at h
    obtain ⟨b, rest, n, hb, -⟩ := clockRead_eq s
    obtain ⟨c, -, hc⟩ := tcBcdBody_eq (clockRead s).1 (clockRead s).2
    rw [hc] at h
    rw [← Except.ok.inj h, setTime_cfg, hb]
  | mono =>
    rw [generateTime_mono hs] at h
    rw [(tcMonoBody_eq_ok h).2.2]
    simp

theorem generate_legal {s : State} (h : LegalLayout s.cfg) :
    generate s = (generateTime s >>= fun u => .ok (generated u)) := generate_eq h fun _ => generateTime_cfg

end Sys2Proof.Machine
end

