-- ==== Sys2Proof/Laws/Controller.lean ====
section
/-! SUPPORT. What one poll does, row by row of 44_controller.md R130, and what the host-channel frames do (R139 to R141). -/

namespace Sys2Proof.Machine

open Reference Safety

/-! ## CTL_POLL -/

theorem triggers_iff {b : Byte} {s : State} :
    triggers b s = true ↔ s.cstate = .waiting ∧ s.tsetPend = false ∧ (pinsOf b).pressed = true ∧ s.hold = 0 := by
  simp [triggers, and_assoc]

/-- The state after a poll that generated, from the state `u` after the time step of the generation. -/
def afterGeneration (s u : State) : State :=
  updateHold s.hold true { generated u with idx := 0, cstate := .sending }

theorem poll_reserved {b : Byte} {s : State} (h : reservedBitsSet b = true) :
    ctlPollBody b s = .error (.raise .reservedBits) := by
  simp [ctlPollBody, h]

theorem poll_idle {b : Byte} {s : State} (h : reservedBitsSet b = false) (hc : s.cstate = .idle) :
    ctlPollBody b s = .ok (updateHold s.hold false (pollIdle (pinsOf b) s)) := by
  simp [ctlPollBody, h, pollCase, hc, pure, Except.pure]

theorem poll_settingTime {b : Byte} {s : State} (h : reservedBitsSet b = false) (hc : s.cstate = .settingTime) :
    ctlPollBody b s = .ok (updateHold s.hold false (pollSettingTime s)) := by
  simp [ctlPollBody, h, pollCase, hc, pure, Except.pure]

theorem poll_releasing {b : Byte} {s : State} (h : reservedBitsSet b = false) (hc : s.cstate = .releasing) :
    ctlPollBody b s = .ok (updateHold s.hold false (pollReleasing (pinsOf b) s)) := by
  simp [ctlPollBody, h, pollCase, hc, pure, Except.pure]

theorem poll_sending_noSlot {b : Byte} {s : State} (h : reservedBitsSet b = false) (hc : s.cstate = .sending)
    (hs : (pinsOf b).slot = false) : ctlPollBody b s = .ok (updateHold s.hold false s) := by
  simp [ctlPollBody, h, pollCase, hc, pollSending, hs, pure, Except.pure]

theorem poll_sending_slot {b : Byte} {s : State} (h : reservedBitsSet b = false) (hc : s.cstate = .sending)
    (hs : (pinsOf b).slot = true) (hi : s.idx.toNat < 6) :
    ctlPollBody b s = .ok (updateHold s.hold false
      { emit (keyDown s.pw[s.idx.toNat]) s with idx := s.idx + 1, cstate := .releasing }) := by
  simp [ctlPollBody, h, pollCase, hc, pollSending, hs, hi, pure, Except.pure]

theorem poll_waiting_pending {b : Byte} {s : State} (h : reservedBitsSet b = false) (hc : s.cstate = .waiting)
    (hp : s.tsetPend = true) : ctlPollBody b s = .ok (updateHold s.hold false { s with cstate := .settingTime }) := by
  simp [ctlPollBody, h, pollCase, hc, pollWaiting, hp, pure, Except.pure]

theorem poll_waiting_quiet {b : Byte} {s : State} (h : reservedBitsSet b = false) (hc : s.cstate = .waiting)
    (hp : s.tsetPend = false) (ht : triggers b s = false) : ctlPollBody b s = .ok (updateHold s.hold false s) := by
  have : ¬ ((pinsOf b).pressed = true ∧ s.hold = 0) := by
    rintro ⟨h1, h2⟩
    simp [triggers, hc, hp, h1, h2] at ht
  simp only [ctlPollBody, h, pollCase, hc, pollWaiting, hp, if_neg this]
  rfl

theorem poll_generate {b : Byte} {s : State} (h : reservedBitsSet b = false) (ht : triggers b s = true)
    (hl : LegalLayout s.cfg) :
    ctlPollBody b s = (generateTime s >>= fun u => .ok (afterGeneration s u)) := by
  obtain ⟨hc, hp, hb, hh⟩ := triggers_iff.1 ht
  simp only [ctlPollBody, h, pollCase, hc, pollWaiting, hp, hb, hh, and_self, if_true, generate_legal hl]
  cases generateTime s with
  | error r => rfl
  | ok u => simp [afterGeneration, hh, pure, Except.pure]

/-- Every way a poll's pseudocode can end well: the rows of R130. -/
theorem poll_cases {b : Byte} {s t : State} (hl : LegalLayout s.cfg) (h : ctlPollBody b s = .ok t) :
    reservedBitsSet b = false ∧
      ((s.cstate = .idle ∧ t = updateHold s.hold false (pollIdle (pinsOf b) s)) ∨
       (s.cstate = .waiting ∧ s.tsetPend = true ∧ t = updateHold s.hold false { s with cstate := .settingTime }) ∨
       (triggers b s = true ∧ ∃ u, generateTime s = .ok u ∧ t = afterGeneration s u) ∨
       (s.cstate = .waiting ∧ s.tsetPend = false ∧ triggers b s = false ∧ t = updateHold s.hold false s) ∨
       (s.cstate = .settingTime ∧ t = updateHold s.hold false (pollSettingTime s)) ∨
       (s.cstate = .sending ∧ (pinsOf b).slot = false ∧ t = updateHold s.hold false s) ∨
       (s.cstate = .sending ∧ (pinsOf b).slot = true ∧ ∃ hi : s.idx.toNat < 6, t = updateHold s.hold false
         { emit (keyDown s.pw[s.idx.toNat]) s with idx := s.idx + 1, cstate := .releasing }) ∨
       (s.cstate = .releasing ∧ t = updateHold s.hold false (pollReleasing (pinsOf b) s))) := by
  cases hr : reservedBitsSet b with
  | true => simp [poll_reserved hr] at h
  | false =>
    refine ⟨rfl, ?_⟩
    have inj : ∀ {u : State}, ctlPollBody b s = .ok u → t = u := fun hu => (Except.ok.inj (hu.symm.trans h)).symm
    cases hc : s.cstate with
    | idle => exact .inl ⟨rfl, inj (poll_idle hr hc)⟩
    | waiting =>
      rcases Bool.eq_false_or_eq_true s.tsetPend with hp | hp
      · exact .inr (.inl ⟨rfl, hp, inj (poll_waiting_pending hr hc hp)⟩)
      · rcases Bool.eq_false_or_eq_true (triggers b s) with ht | ht
        · rw [poll_generate hr ht hl] at h
          obtain ⟨u, hu, h⟩ := bind_ok h
          exact .inr (.inr (.inl ⟨ht, u, hu, (Except.ok.inj h).symm⟩))
        · exact .inr (.inr (.inr (.inl ⟨rfl, hp, ht, inj (poll_waiting_quiet hr hc hp ht)⟩)))
    | settingTime => exact .inr (.inr (.inr (.inr (.inl ⟨rfl, inj (poll_settingTime hr hc)⟩))))
    | sending =>
      rcases Bool.eq_false_or_eq_true (pinsOf b).slot with hs | hs
      · by_cases hi : s.idx.toNat < 6
        · exact .inr (.inr (.inr (.inr (.inr (.inr (.inl ⟨rfl, hs, hi, inj (poll_sending_slot hr hc hs hi)⟩))))))
        · simp [ctlPollBody, hr, pollCase, hc, pollSending, hs, hi] at h
      · exact .inr (.inr (.inr (.inr (.inr (.inl ⟨rfl, hs, inj (poll_sending_noSlot hr hc hs)⟩)))))
    | releasing => exact .inr (.inr (.inr (.inr (.inr (.inr (.inr ⟨rfl, inj (poll_releasing hr hc)⟩))))))

/-! ## Host channel -/

theorem hostProvision_accepted {secret : List Byte} {s : State} (h : 1 ≤ secret.length ∧ secret.length ≤ 64)
    (hl : LegalLayout s.cfg) :
    hostProvisionBody secret s = .ok { storeCells
      (cellsAt s.cfg.nvLenOfs [BitVec.ofNat 8 secret.length] ++ cellsAt s.cfg.nvSecretOfs secret) s with
        hostResult := .accepted } := by
  have h1 := hl.lenInside
  have h2 := hl.secretInside
  simp only [hostProvisionBody, h, and_self, if_true]
  rw [nvWrite_ok (by simpa using h1), ok_bind, nvWrite_ok (by rw [storeCells_cfg]; omega), ok_bind]
  simp [storeCells, Memory.writeAll, pure, Except.pure]

theorem hostProvision_rejected {secret : List Byte} {s : State} (h : ¬ (1 ≤ secret.length ∧ secret.length ≤ 64)) :
    hostProvisionBody secret s = .ok { s with hostResult := .rejected } := by
  simp only [hostProvisionBody, if_neg h]

theorem hostSetCounter_mono {cval : Word} {s : State} (h : s.cfg.timeSrc = .mono) (hl : LegalLayout s.cfg) :
    hostSetCounterBody cval s = .ok { storeCells (cellsAt s.cfg.nvTimeOfs ([0, 0, 0, 0] ++ be32 cval)) s with
      hostResult := .accepted } := by
  have := hl.timeInside
  simp only [hostSetCounterBody, h]
  rw [nvWrite_ok (by simpa using this)]
  rfl

theorem hostSetCounter_ext {cval : Word} {s : State} (h : s.cfg.timeSrc = .ext) :
    hostSetCounterBody cval s = .ok { s with hostResult := .rejected } := by
  simp [hostSetCounterBody, h]

end Sys2Proof.Machine
end

