-- ==== Sys2Proof/Laws/Otp.lean ====
section
/-! SUPPORT. Truncation and rendering against plain arithmetic (42_otp.md R111, R112, R114), and the usage of a digit
(30_encoding.md R82). -/

namespace Sys2Proof.Machine

open Reference Safety

/-! ## Truncation -/

theorem and_7F_toNat (b : Byte) : (b &&& 0x7F).toNat = b.toNat % 128 := by
  rw [BitVec.toNat_and]
  exact Nat.and_two_pow_sub_one_eq_mod b.toNat 7

theorem truncOffset_eq (d : Digest) : truncOffset d = d[19].toNat % 16 := by
  simp [truncOffset, BitVec.extractLsb'_toNat]

/-- The truncated value is RFC 4226's. -/
theorem truncWindow_toNat (mask : Bool) (d : Digest) : (truncWindow mask d).toNat = truncate mask d := by
  have h := truncOffset_lt d
  have get : ∀ i, (hi : i < 4) → (d.toList.getD (d[19].toNat % 16 + i) 0) = d[truncOffset d + i] := by
    intro i hi
    rw [← truncOffset_eq, List.getD_eq_getElem?_getD, List.getElem?_eq_getElem (by simp; omega)]
    rfl
  simp only [truncWindow, readBE32_toNat, truncate, get 1 (by omega), get 2 (by omega), get 3 (by omega)]
  have h0 := get 0 (by omega)
  simp only [Nat.add_zero] at h0 ⊢
  rw [h0]
  cases mask
  · rfl
  · rw [if_pos rfl, if_pos rfl, and_7F_toNat]

/-! ## Rendering -/

theorem asciiDigit_toNat {d : Nat} (h : d < 10) : (asciiDigit d).toNat = 0x30 + d := by
  simp only [asciiDigit, BitVec.toNat_ofNat]
  omega

/-- The digits of the password, as numbers. -/
theorem renderPassword_toNat (code : Nat) (i : Fin 6) :
    (renderPassword code)[i].toNat = 0x30 + code / 10 ^ (5 - i.val) % 10 := by
  match i with
  | 0 => exact (asciiDigit_toNat (Nat.mod_lt _ (by decide))).trans (by simp [Nat.div_div_eq_div_mul])
  | 1 => exact (asciiDigit_toNat (Nat.mod_lt _ (by decide))).trans (by simp [Nat.div_div_eq_div_mul])
  | 2 => exact (asciiDigit_toNat (Nat.mod_lt _ (by decide))).trans (by simp [Nat.div_div_eq_div_mul])
  | 3 => exact (asciiDigit_toNat (Nat.mod_lt _ (by decide))).trans (by simp [Nat.div_div_eq_div_mul])
  | 4 => exact (asciiDigit_toNat (Nat.mod_lt _ (by decide))).trans (by simp)
  | 5 => exact (asciiDigit_toNat (Nat.mod_lt _ (by decide))).trans (by simp)

theorem renderPassword_digits (code : Nat) : asciiDigits (renderPassword code) := by
  intro i
  have h := renderPassword_toNat code i
  constructor
  · show (0x30 : Byte).toNat ≤ _
    rw [h]
    exact Nat.le_add_right _ _
  · show _ ≤ (0x39 : Byte).toNat
    rw [h]
    show 0x30 + _ ≤ 0x39
    omega

/-- The password read as a decimal number is the code (R114). -/
theorem decimalValue_renderPassword {code : Nat} (h : code < 1000000) :
    decimalValue (renderPassword code).toList = code := by
  have e : (renderPassword code).toList = [(renderPassword code)[0], (renderPassword code)[1], (renderPassword code)[2],
      (renderPassword code)[3], (renderPassword code)[4], (renderPassword code)[5]] := rfl
  have g := renderPassword_toNat code
  have g0 := g 0
  have g1 := g 1
  have g2 := g 2
  have g3 := g 3
  have g4 := g 4
  have g5 := g 5
  simp only [Fin.getElem_fin] at g0 g1 g2 g3 g4 g5
  rw [e]
  simp only [decimalValue, List.foldl_cons, List.foldl_nil]
  change (renderPassword code)[0].toNat = 0x30 + code / 10 ^ 5 % 10 at g0
  change (renderPassword code)[1].toNat = 0x30 + code / 10 ^ 4 % 10 at g1
  change (renderPassword code)[2].toNat = 0x30 + code / 10 ^ 3 % 10 at g2
  change (renderPassword code)[3].toNat = 0x30 + code / 10 ^ 2 % 10 at g3
  change (renderPassword code)[4].toNat = 0x30 + code / 10 ^ 1 % 10 at g4
  change (renderPassword code)[5].toNat = 0x30 + code / 10 ^ 0 % 10 at g5
  rw [g0, g1, g2, g3, g4, g5]
  omega

/-! ## Reports -/

/-- The usage of a digit is the one of R82, not the free value of other bytes. -/
theorem keyDown_digit {c : Byte} (h : 0x30 ≤ c ∧ c ≤ 0x39) : keyDown c = digitReport c := by
  have hu : usage c = if c = 0x30 then 0x27 else c - 0x13 := by
    unfold usage
    by_cases h0 : c = 0x30
    · subst h0
      rfl
    · have : 0x31 ≤ c := by
        have h1 := h.1
        rw [BitVec.le_def] at h1 ⊢
        have : c.toNat ≠ 0x30 := fun h => h0 (BitVec.eq_of_toNat_eq h)
        show 0x31 ≤ c.toNat
        have : 0x30 ≤ c.toNat := h1
        omega
      rw [if_pos ⟨this, h.2⟩, if_neg h0]
  rw [keyDown, digitReport, hu]

end Sys2Proof.Machine
end

