-- ==== Sys2Proof/Laws/Frame.lean ====
section
/-! SUPPORT. What no frame changes, and how a frame changes the store: said once for the pseudocode of every frame, then for
`exec`. Which fault codes a frame's own pseudocode can raise (60_exceptions.md R147, R148 (4)). -/

namespace Sys2Proof.Machine

open Reference Safety

/-- The fields no pseudocode changes, and the store as the single-byte writes of the log leave it (20_memory.md R57). -/
structure Keeps (s t : State) : Prop where
  cfg : t.cfg = s.cfg
  fault : t.fault = s.fault
  stream : t.stream = s.stream
  power : t.power = s.power
  store : ∃ cells, t.storeLog = s.storeLog ++ cells ∧ t.nv = Memory.writeAll cells s.nv

theorem Keeps.of_same {s t : State} (cfg : t.cfg = s.cfg) (fault : t.fault = s.fault) (stream : t.stream = s.stream)
    (power : t.power = s.power) (log : t.storeLog = s.storeLog) (nv : t.nv = s.nv) : Keeps s t :=
  ⟨cfg, fault, stream, power, [], by simp [log], by simp [nv]⟩

theorem Keeps.refl (s : State) : Keeps s s := .of_same rfl rfl rfl rfl rfl rfl

theorem Keeps.trans {s t u : State} (h : Keeps s t) (h' : Keeps t u) : Keeps s u := by
  obtain ⟨c, hl, hn⟩ := h.store
  obtain ⟨c', hl', hn'⟩ := h'.store
  exact ⟨h'.cfg.trans h.cfg, h'.fault.trans h.fault, h'.stream.trans h.stream, h'.power.trans h.power, c ++ c',
    by rw [hl', hl, List.append_assoc], by rw [hn', hn, Memory.writeAll_append]⟩

theorem Keeps.storeCells (cells : List Host.Cell) (s : State) : Keeps s (storeCells cells s) :=
  ⟨rfl, rfl, rfl, rfl, cells, rfl, rfl⟩

/-- A computation answers only states that keep those fields. -/
def KeepsAll (x : Except Stop State) (s : State) : Prop := ∀ t, x = .ok t → Keeps s t

theorem KeepsAll.ok {s t : State} (h : Keeps s t) : KeepsAll (.ok t) s := fun _ ht => Except.ok.inj ht ▸ h

theorem KeepsAll.error {r : Stop} {s : State} : KeepsAll (.error r) s := fun _ ht => nomatch ht

theorem KeepsAll.bind {x : Except Stop State} {f : State → Except Stop State} {s : State} (hx : KeepsAll x s)
    (hf : ∀ t, KeepsAll (f t) t) : KeepsAll (x >>= f) s := by
  intro u hu
  obtain ⟨t, ht, hu⟩ := bind_ok hu
  exact (hx t ht).trans (hf t u hu)

/-- A value read on the way changes nothing. -/
theorem KeepsAll.read {α : Type} {x : Except Stop α} {f : α → Except Stop State} {s : State} (hf : ∀ a, KeepsAll (f a) s) :
    KeepsAll (x >>= f) s := by
  intro u hu
  obtain ⟨a, -, hu⟩ := bind_ok hu
  exact hf a u hu

theorem KeepsAll.nvWrite (a : Nat) (v : List Byte) (s : State) : KeepsAll (nvWrite a v s) s := by
  intro t ht
  rw [(nvWrite_eq_ok ht).2]
  exact .storeCells _ _

theorem keeps_setTime (c : Word) (s : State) : Keeps s (setTime c s) := .of_same rfl rfl rfl rfl rfl rfl

theorem keeps_tcBcd (b : ClockBytes) (s : State) : Keeps s (tcBcdBody b s) := by
  obtain ⟨c, -, h⟩ := tcBcdBody_eq b s
  rw [h]
  exact .of_same rfl rfl rfl rfl rfl rfl

theorem keeps_clockRead (s : State) : Keeps s (clockRead s).2 := by
  obtain ⟨b, rest, n, h, -⟩ := clockRead_eq s
  rw [h]
  exact .of_same rfl rfl rfl rfl rfl rfl

theorem keeps_absorb (data : List Byte) (s : State) : KeepsAll (absorbState data s) s := by
  intro t ht
  rw [(absorbState_eq_ok ht).2.2]
  exact .of_same rfl rfl rfl rfl rfl rfl

theorem keeps_shaDigest (s : State) : KeepsAll (shaDigestBody s) s := by
  intro t ht
  rw [(shaDigestBody_eq_ok ht).2]
  exact .of_same rfl rfl rfl rfl rfl rfl

theorem keeps_macInit (key : List Byte) (s : State) : KeepsAll (macInitBody key s) s := by
  intro t ht
  rw [(macInitBody_eq_ok ht).2]
  exact .of_same rfl rfl rfl rfl rfl rfl

theorem keeps_macUpdate (data : List Byte) (s : State) : KeepsAll (macUpdateBody data s) s := by
  intro t ht
  exact keeps_absorb data s t (macUpdateBody_eq_ok ht).2

theorem keeps_macFinal (key : List Byte) (s : State) : KeepsAll (macFinalBody key s) s := by
  intro t ht
  rw [(macFinalBody_eq_ok ht).2.2.2]
  exact .of_same rfl rfl rfl rfl rfl rfl

theorem keeps_otpTrunc (s : State) : KeepsAll (otpTruncBody s) s := by
  intro t ht
  rw [(otpTruncBody_eq_ok ht).2]
  exact .of_same rfl rfl rfl rfl rfl rfl

theorem keeps_tcMono (s : State) : KeepsAll (tcMonoBody s) s := by
  intro t ht
  rw [(tcMonoBody_eq_ok ht).2.2]
  exact (keeps_setTime _ s).trans (.storeCells _ _)

theorem keeps_generateTime (s : State) : KeepsAll (generateTime s) s := by
  cases h : s.cfg.timeSrc with
  | ext =>
    rw [generateTime_ext h]
    exact .ok ((keeps_clockRead s).trans (keeps_tcBcd _ _))
  | mono =>
    rw [generateTime_mono h]
    exact keeps_tcMono s

theorem keeps_generate (s : State) : KeepsAll (generate s) s := by
  unfold generate
  refine .bind (keeps_generateTime s) fun s => .read fun n => .read fun key => ?_
  refine .bind (keeps_macInit _ _) fun s => .bind (keeps_macUpdate _ _) fun s => .read fun key' => ?_
  exact .bind (keeps_macFinal _ _) fun s => .bind (keeps_otpTrunc _) fun s => .nvWrite _ _ _

theorem keeps_pollCase (p : Pins) (s : State) {armed : Bool} {t : State} (h : pollCase p s = .ok (armed, t)) : Keeps s t := by
  unfold pollCase at h
  split at h
  · cases h
    unfold pollIdle
    split <;> exact .of_same rfl rfl rfl rfl rfl rfl
  · unfold pollWaiting at h
    split at h
    · cases h
      exact .of_same rfl rfl rfl rfl rfl rfl
    · split at h
      · obtain ⟨u, hu, h⟩ := bind_ok h
        cases h
        exact (keeps_generate s u hu).trans (.of_same rfl rfl rfl rfl rfl rfl)
      · cases h
        exact .refl _
  · cases h
    exact .of_same rfl rfl rfl rfl rfl rfl
  · obtain ⟨u, hu, h⟩ := bind_ok h
    cases h
    unfold pollSending at hu
    split at hu
    · split at hu
      · cases hu
        exact .of_same rfl rfl rfl rfl rfl rfl
      · cases hu
    · cases hu
      exact .refl _
  · cases h
    unfold pollReleasing
    split <;> exact .of_same rfl rfl rfl rfl rfl rfl

theorem keeps_ctlPoll (inByte : Byte) (s : State) : KeepsAll (ctlPollBody inByte s) s := by
  intro t ht
  unfold ctlPollBody at ht
  split at ht
  · cases ht
  · obtain ⟨⟨armed, u⟩, hu, ht⟩ := bind_ok ht
    cases ht
    exact (keeps_pollCase _ s hu).trans (.of_same rfl rfl rfl rfl rfl rfl)

theorem keeps_hostProvision (secret : List Byte) (s : State) : KeepsAll (hostProvisionBody secret s) s := by
  unfold hostProvisionBody
  split
  · refine .bind (.nvWrite _ _ _) fun s => .bind (.nvWrite _ _ _) fun s => .ok ?_
    exact .of_same rfl rfl rfl rfl rfl rfl
  · exact .ok (.of_same rfl rfl rfl rfl rfl rfl)

theorem keeps_hostSetTime (b : ClockBytes) (s : State) : Keeps s (hostSetTimeBody b s) := by
  unfold hostSetTimeBody
  split <;> exact .of_same rfl rfl rfl rfl rfl rfl

theorem keeps_hostSetCounter (cval : Word) (s : State) : KeepsAll (hostSetCounterBody cval s) s := by
  unfold hostSetCounterBody
  split
  · exact .bind (.nvWrite _ _ _) fun s => .ok (.of_same rfl rfl rfl rfl rfl rfl)
  · exact .ok (.of_same rfl rfl rfl rfl rfl rfl)

/-- No pseudocode changes the configuration, the fault register or what the environment has yet to deliver, and the log says what
it wrote to the store. -/
theorem bodyOf_keeps {i : Instr} {s t : State} (h : bodyOf i s = .ok t) : Keeps s t := by
  cases i with
  | shaReset =>
    cases h
    exact .of_same rfl rfl rfl rfl rfl rfl
  | shaUpdate data => exact keeps_absorb data s t h
  | shaDigest => exact keeps_shaDigest s t h
  | macInit key => exact keeps_macInit key s t h
  | macUpdate data => exact keeps_macUpdate data s t h
  | macFinal key => exact keeps_macFinal key s t h
  | otpTrunc => exact keeps_otpTrunc s t h
  | tcBcd b => exact KeepsAll.ok (keeps_tcBcd b s) t h
  | tcMono => exact keeps_tcMono s t h
  | ctlPoll inByte => exact keeps_ctlPoll inByte s t h
  | hostProvision secret => exact keeps_hostProvision secret s t h
  | hostSetTime b => exact KeepsAll.ok (keeps_hostSetTime b s) t h
  | hostSetCounter cval => exact keeps_hostSetCounter cval s t h

/-- The same of a frame, but for the fault register. -/
theorem exec_keeps {i : Instr} {s t : State} (h : exec i s = .next t) : Keeps { s with fault := t.fault } t := by
  rcases exec_next h with ⟨-, rfl⟩ | ⟨-, c, rfl⟩ | ⟨-, -, h⟩
  · exact .refl _
  · exact .of_same rfl rfl rfl rfl rfl rfl
  · have k := bodyOf_keeps h
    exact ⟨k.cfg, rfl, k.stream, k.power, k.store⟩

/-! ## Which faults a pseudocode raises -/

/-- Every fault a computation raises is one of the listed ones. -/
def Raises {α : Type} (x : Except Stop α) (codes : List FaultCode) : Prop := ∀ c, x = .error (.raise c) → c ∈ codes

theorem Raises.bind {α β : Type} {x : Except Stop α} {f : α → Except Stop β} {codes : List FaultCode} (hx : Raises x codes)
    (hf : ∀ a, Raises (f a) codes) : Raises (x >>= f) codes := by
  intro c hc
  cases x with
  | ok a => exact hf a c hc
  | error r =>
    cases hc
    exact hx c rfl

theorem Raises.ok {α : Type} {a : α} {codes : List FaultCode} : Raises (.ok a : Except Stop α) codes := fun _ h => nomatch h

theorem Raises.stop {α : Type} {f : Fault} {codes : List FaultCode} : Raises (.error (.stop f) : Except Stop α) codes :=
  fun _ h => nomatch h

theorem Raises.raise {α : Type} {c : FaultCode} {codes : List FaultCode} (h : c ∈ codes) :
    Raises (.error (.raise c) : Except Stop α) codes := fun _ hc => by
  injection hc with hc
  injection hc with hc
  exact hc ▸ h

theorem raises_nvRead (a n : Nat) (s : State) (codes : List FaultCode) : Raises (nvRead a n s) codes := by
  unfold nvRead
  split
  · exact .ok
  · exact .stop

theorem raises_nvWrite (a : Nat) (v : List Byte) (s : State) (codes : List FaultCode) : Raises (nvWrite a v s) codes := by
  unfold nvWrite
  split
  · exact .ok
  · exact .stop

theorem raises_absorb (data : List Byte) (e : HashEngine) : Raises (absorb data e) [.hashNotActive, .lenOverflow] := by
  unfold absorb
  split
  · exact .raise (by simp)
  · split
    · exact .raise (by simp)
    · exact .ok

theorem raises_finalize (e : HashEngine) : Raises (finalize e) [.hashNotActive, .lenOverflow] := by
  unfold finalize
  split
  · exact .raise (by simp)
  · exact .ok

/-- The faults of the engine pseudocodes. -/
def engineCodes : List FaultCode :=
  [.keyTooLong, .macNotActive, .hashNotActive, .lenOverflow, .digestNotValid, .counterExhausted]

theorem Raises.mono {α : Type} {x : Except Stop α} {codes codes' : List FaultCode} (h : Raises x codes)
    (hs : ∀ c ∈ codes, c ∈ codes') : Raises x codes' := fun c hc => hs c (h c hc)

theorem raises_absorbState (data : List Byte) (s : State) : Raises (absorbState data s) engineCodes :=
  .bind ((raises_absorb _ _).mono (by simp [engineCodes])) fun _ => .ok

theorem raises_macInit (key : List Byte) (s : State) : Raises (macInitBody key s) engineCodes := by
  unfold macInitBody
  split
  · exact .raise (by simp [engineCodes])
  · exact .bind ((raises_absorb _ _).mono (by simp [engineCodes])) fun _ => .ok

theorem raises_macUpdate (data : List Byte) (s : State) : Raises (macUpdateBody data s) engineCodes := by
  unfold macUpdateBody
  split
  · exact .raise (by simp [engineCodes])
  · exact raises_absorbState _ _

theorem raises_macFinal (key : List Byte) (s : State) : Raises (macFinalBody key s) engineCodes := by
  unfold macFinalBody
  split
  · exact .raise (by simp [engineCodes])
  · split
    · exact .raise (by simp [engineCodes])
    · refine .bind ((raises_finalize _).mono (by simp [engineCodes])) fun _ =>
        .bind ((raises_absorb _ _).mono (by simp [engineCodes])) fun _ =>
        .bind ((raises_absorb _ _).mono (by simp [engineCodes])) fun _ =>
        .bind ((raises_finalize _).mono (by simp [engineCodes])) fun _ => .ok

theorem raises_otpTrunc (s : State) : Raises (otpTruncBody s) engineCodes := by
  unfold otpTruncBody
  split
  · exact .raise (by simp [engineCodes])
  · exact .ok

theorem raises_tcMono (s : State) : Raises (tcMonoBody s) engineCodes := by
  refine .bind (.bind (raises_nvRead _ _ _ _) fun _ => .ok) fun c => ?_
  split
  · exact .raise (by simp [engineCodes])
  · exact raises_nvWrite _ _ _ _

theorem raises_generate (s : State) : Raises (generate s) engineCodes := by
  unfold generate
  refine .bind ?_ fun s => .bind (.bind (raises_nvRead _ _ _ _) fun _ => .ok) fun n => .bind (raises_nvRead _ _ _ _) fun key => ?_
  · unfold generateTime
    split
    · exact .ok
    · exact raises_tcMono s
  · refine .bind (raises_macInit _ _) fun s => .bind (raises_macUpdate _ _) fun s => .bind (raises_nvRead _ _ _ _) fun key' => ?_
    exact .bind (raises_macFinal _ _) fun s => .bind (raises_otpTrunc _) fun s => raises_nvWrite _ _ _ _

theorem raises_ctlPoll (inByte : Byte) (s : State) : Raises (ctlPollBody inByte s) (.reservedBits :: engineCodes) := by
  unfold ctlPollBody
  split
  · exact .raise (by simp)
  · refine .bind ?_ fun _ => .ok
    unfold pollCase
    split
    · exact .ok
    · unfold pollWaiting
      split
      · exact .ok
      · split
        · exact .bind ((raises_generate s).mono fun _ => List.mem_cons_of_mem _) fun _ => .ok
        · exact .ok
    · exact .ok
    · refine .bind ?_ fun _ => .ok
      unfold pollSending
      split
      · split
        · exact .ok
        · exact .stop
      · exact .ok
    · exact .ok

/-- The pseudocode of a frame raises no ENGINE_BUSY and no ILLEGAL_OPCODE, and RESERVED_BITS only in a poll (R148). -/
theorem bodyOf_raises (i : Instr) (s : State) : Raises (bodyOf i s) (.reservedBits :: engineCodes) ∧
    ((∀ b, i ≠ .ctlPoll b) → Raises (bodyOf i s) engineCodes) := by
  have key : ∀ {x : Except Stop State}, Raises x engineCodes →
      Raises x (.reservedBits :: engineCodes) ∧ ((∀ b, i ≠ .ctlPoll b) → Raises x engineCodes) :=
    fun h => ⟨h.mono fun _ => List.mem_cons_of_mem _, fun _ => h⟩
  cases i with
  | shaReset => exact key .ok
  | shaUpdate data => exact key (raises_absorbState data s)
  | shaDigest => exact key (.bind ((raises_finalize _).mono (by simp [engineCodes])) fun _ => .ok)
  | macInit k => exact key (raises_macInit k s)
  | macUpdate data => exact key (raises_macUpdate data s)
  | macFinal k => exact key (raises_macFinal k s)
  | otpTrunc => exact key (raises_otpTrunc s)
  | tcBcd b => exact key .ok
  | tcMono => exact key (raises_tcMono s)
  | ctlPoll b => exact ⟨raises_ctlPoll b s, fun h => absurd rfl (h b)⟩
  | hostProvision secret =>
    refine key ?_
    show Raises (hostProvisionBody secret s) engineCodes
    unfold hostProvisionBody
    split
    · exact .bind (raises_nvWrite _ _ _ _) fun _ => .bind (raises_nvWrite _ _ _ _) fun _ => .ok
    · exact .ok
  | hostSetTime b => exact key .ok
  | hostSetCounter cval =>
    refine key ?_
    show Raises (hostSetCounterBody cval s) engineCodes
    unfold hostSetCounterBody
    split
    · exact .bind (raises_nvWrite _ _ _ _) fun _ => .ok
    · exact .ok

end Sys2Proof.Machine
end

