-- ==== Sys2Proof/Laws/Run.lean ====
section
/-! SUPPORT. Sequences of frames: how they compose, the induction over them packaged once, and what a sequence of updates does to
the HashEngine; the chunks of a pseudo-instruction (30_encoding.md R84). -/

namespace Sys2Proof.Machine

open Reference Safety

@[simp] theorem runFrames_nil (s : State) : runFrames [] s = .next s := rfl

theorem runFrames_cons {i : Instr} {is : List Instr} {s t : State} (h : exec i s = .next t) :
    runFrames (i :: is) s = runFrames is t := by
  simp [runFrames, h]

theorem runFrames_cons_next {i : Instr} {is : List Instr} {s u : State} (h : runFrames (i :: is) s = .next u) :
    ∃ t, exec i s = .next t ∧ runFrames is t = .next u := by
  unfold runFrames at h
  split at h
  · next t ht => exact ⟨t, ht, h⟩
  · cases h
  · cases h

theorem runFrames_append {is js : List Instr} {s t : State} (h : runFrames is s = .next t) :
    runFrames (is ++ js) s = runFrames js t := by
  induction is generalizing s with
  | nil =>
    cases h
    rfl
  | cons i is ih =>
    obtain ⟨u, hu, h⟩ := runFrames_cons_next h
    rw [List.cons_append, runFrames_cons hu, ih h]

theorem runFrames_halted {is : List Instr} {s : State} (h : s.halted = true) : runFrames is s = .next s := by
  induction is with
  | nil => rfl
  | cons i is ih => rw [runFrames_cons (exec_halted h), ih]

/-- What every frame of a sequence keeps, the sequence keeps. -/
theorem runFrames_keeps {P : State → Prop} {is : List Instr} {s t : State}
    (hstep : ∀ i ∈ is, ∀ s t, P s → exec i s = .next t → P t) (hs : P s) (h : runFrames is s = .next t) : P t := by
  induction is generalizing s with
  | nil =>
    cases h
    exact hs
  | cons i is ih =>
    obtain ⟨u, hu, h⟩ := runFrames_cons_next h
    exact ih (fun j hj => hstep j (List.mem_cons_of_mem _ hj)) (hstep i List.mem_cons_self s u hs hu) h

/-! ## Updates of the HashEngine -/

theorem engineReady_check {s : State} (h : engineReady s) (e : Bool) : (e && s.emitting) = false := by
  rw [h.2]
  simp

/-- A frame of a ready engine whose pseudocode ends well. -/
theorem exec_ready {i : Instr} {s t : State} (h : engineReady s) (hb : bodyOf i s = .ok t) : exec i s = .next t :=
  exec_ok h.1 (engineReady_check h _) hb

/-- A frame that faults, with the fault register as a number: the opcode in bits 15:8, the code in bits 7:0. -/
theorem exec_raise_value {i : Instr} {s : State} (c : FaultCode) {o : Byte} {v : BitVec 16} (h : s.halted = false)
    (he : (engineFrame i && s.emitting) = false) (hb : bodyOf i s = .error (.raise c)) (ho : i.opcode = o)
    (hv : o ++ c.byte = v) : exec i s = .next { s with fault := v } := by
  subst ho
  subst hv
  exact exec_raise h he hb

theorem exec_shaUpdate_holding {m data : List Byte} {s : State} (h : engineReady s) (hs : s.hash = hashHolding m)
    (hl : m.length + data.length ≤ 8191) :
    exec (.shaUpdate data) s = .next { s with hash := hashHolding (m ++ data) } :=
  exec_ready h (absorbState_holding hs hl)

theorem exec_macUpdate_holding {m data : List Byte} {s : State} (h : engineReady s) (hi : s.mphase = .inner)
    (hs : s.hash = hashHolding m) (hl : m.length + data.length ≤ 8191) :
    exec (.macUpdate data) s = .next { s with hash := hashHolding (m ++ data) } :=
  exec_ready h ((macUpdateBody_inner hi).trans (absorbState_holding hs hl))

/-- A sequence of frames each of which appends its bytes to the held message appends all of them. -/
theorem runFrames_holding {frames : List (Instr × List Byte)} {m : List Byte} {s : State} (hs : s.hash = hashHolding m)
    (hf : ∀ p ∈ frames, ∀ (u : State) (x : List Byte), u = { s with hash := hashHolding x } →
      x.length + p.2.length ≤ 8191 → exec p.1 u = .next { s with hash := hashHolding (x ++ p.2) })
    (hl : m.length + (frames.map Prod.snd).flatten.length ≤ 8191) :
    runFrames (frames.map Prod.fst) s = .next { s with hash := hashHolding (m ++ (frames.map Prod.snd).flatten) } := by
  have key : ∀ (fs : List (Instr × List Byte)) (x : List Byte) (u : State), (∀ p ∈ fs, p ∈ frames) →
      u = { s with hash := hashHolding x } → x.length + (fs.map Prod.snd).flatten.length ≤ 8191 →
      runFrames (fs.map Prod.fst) u = .next { s with hash := hashHolding (x ++ (fs.map Prod.snd).flatten) } := by
    intro fs
    induction fs with
    | nil =>
      intro x u _ hu _
      simp [hu]
    | cons p fs ih =>
      intro x u hm hu hl
      simp only [List.map_cons, List.flatten_cons, List.length_append] at hl ⊢
      rw [runFrames_cons (hf p (hm p List.mem_cons_self) u x hu (by omega)),
        ih (x ++ p.2) _ (fun q hq => hm q (List.mem_cons_of_mem _ hq)) rfl (by simp only [List.length_append]; omega),
        List.append_assoc]
  exact key frames m s (fun _ h => h) (by rw [← hs]) hl

/-! ## The chunks of a pseudo-instruction -/

theorem chunksFuel_flatten {fuel : Nat} {m : List Byte} (h : m.length ≤ fuel) : (chunksFuel fuel m).flatten = m := by
  induction fuel generalizing m with
  | zero => simp [chunksFuel, List.length_eq_zero_iff.1 (Nat.le_zero.1 h)]
  | succ fuel ih =>
    cases m with
    | nil => rfl
    | cons b bs =>
      simp only [chunksFuel, List.flatten_cons]
      rw [ih (by rw [List.length_drop]; omega), List.take_append_drop]

/-- The chunks are the message, cut. -/
theorem chunks255_flatten (m : List Byte) : (chunks255 m).flatten = m := chunksFuel_flatten (Nat.le_refl _)

theorem chunksFuel_fits {fuel : Nat} {m : List Byte} : ∀ c ∈ chunksFuel fuel m, dataFits c = true := by
  induction fuel generalizing m with
  | zero => simp [chunksFuel]
  | succ fuel ih =>
    cases m with
    | nil => simp [chunksFuel]
    | cons b bs =>
      intro c hc
      rcases List.mem_cons.1 hc with rfl | hc
      · simp only [dataFits, List.length_take, decide_eq_true_eq]
        omega
      · exact ih c hc

/-- Every chunk fits a frame. -/
theorem chunks255_fits {m : List Byte} : ∀ c ∈ chunks255 m, dataFits c = true := chunksFuel_fits

end Sys2Proof.Machine
end

