-- ==== Sys2Proof/Laws/Time.lean ====
section
/-! SUPPORT. Packed BCD and the counter of a clock value as plain numbers (43_timecounter.md R116 to R121), the time buffer
(30_encoding.md R79). -/

namespace Sys2Proof.Machine

/-- The two nibbles of a byte as arithmetic (R116). -/
theorem bcd_eq (b : Byte) : bcd b = 10 * (b.toNat / 16) + b.toNat % 16 := by
  have hb := b.isLt
  simp only [bcd, BitVec.extractLsb'_toNat, Nat.shiftRight_eq_div_pow]
  omega

/-- Packed BCD of a number below 100 decodes to it. -/
theorem bcd_toBcd {n : Nat} (h : n < 100) : bcd (Reference.toBcd n) = n := by
  rw [bcd_eq, Reference.toBcd, BitVec.toNat_ofNat]
  omega

/-- The table of R117: entries for the months 1 to 12 only. -/
theorem cumDays_isSome {m : Nat} : (cumDays m).isSome = true ↔ 1 ≤ m ∧ m ≤ 12 := by
  constructor
  · intro h
    by_contra hm
    have : cumDays m = none := by
      unfold cumDays
      split <;> first | omega | rfl
    simp [this] at h
  · rintro ⟨h1, h2⟩
    interval_cases m <;> rfl

theorem cumDays_eq {m : Nat} (h : 1 ≤ m ∧ m ≤ 12) :
    cumDays m = some ([0, 31, 59, 90, 120, 151, 181, 212, 243, 273, 304, 334].getD (m - 1) 0) := by
  obtain ⟨h1, h2⟩ := h
  interval_cases m <;> rfl

theorem bcdCounter_isSome {b : ClockBytes} : (bcdCounter b).isSome = true ↔ 1 ≤ bcd b.month ∧ bcd b.month ≤ 12 := by
  rw [← cumDays_isSome]
  unfold bcdCounter
  cases cumDays (bcd b.month) <;> simp

/-- The counter of a clock value whose month is 1 to 12 (R118, R119, R120). -/
theorem bcdCounter_eq {b : ClockBytes} {cum : Nat} (h : cumDays (bcd b.month) = some cum) :
    bcdCounter b = some (BitVec.ofNat 32
      (secondsCount (dayCount (bcd b.year) (bcd b.month) (bcd b.day) cum) (bcd b.hours) (bcd b.minutes) (bcd b.seconds) / 30)) := by
  simp [bcdCounter, h]

theorem timeBuffer_toList (c : Word) : (timeBuffer c).toList = [0, 0, 0, 0] ++ be32 c := rfl

end Sys2Proof.Machine
end

