-- ==== Sys2Proof/Laws/Generation.lean ====
section
/-! SUPPORT. What a generation writes (44_controller.md R134): the store by region, the two time steps, every field of the state
after the poll that generated. -/

namespace Sys2Proof.Machine

open Reference Safety

/-! ## The store by region -/

/-- The persisted counter after its four bytes are written. -/
theorem storedCounter_write (c : Config) (v : Word) {m : Memory} (h : Memory.wf m = true) :
    storedCounter c (Memory.writeAll (cellsAt (c.nvTimeOfs + 4) (be32 v)) m) = v.toNat := by
  have g : ∀ k, k < 4 → Memory.read (c.nvTimeOfs + 4 + k) (Memory.writeAll (cellsAt (c.nvTimeOfs + 4) (be32 v)) m) =
      (be32 v).getD k 0 := by
    intro k hk
    rw [read_writeAll_cellsAt h, if_pos (by rw [be32_length]; omega), Nat.add_sub_cancel_left]
  rw [← wordAt_toNat]
  have g0 := g 0 (by omega)
  simp only [wordAt, g 1 (by omega), g 2 (by omega), g 3 (by omega)]
  rw [show c.nvTimeOfs + 4 = c.nvTimeOfs + 4 + 0 from rfl, g0]
  exact congrArg BitVec.toNat (readBE32_be32 v)

/-- The persisted counter depends on its four bytes alone. -/
theorem storedCounter_congr {c : Config} {m m' : Memory}
    (h : ∀ a, c.nvTimeOfs + 4 ≤ a → a < c.nvTimeOfs + 8 → Memory.read a m = Memory.read a m') :
    storedCounter c m = storedCounter c m' := by
  simp only [storedCounter, h (c.nvTimeOfs + 4) (by omega) (by omega), h (c.nvTimeOfs + 5) (by omega) (by omega),
    h (c.nvTimeOfs + 6) (by omega) (by omega), h (c.nvTimeOfs + 7) (by omega) (by omega)]

/-- The secret depends on the length byte and the secret region alone. -/
theorem storedSecret_congr {c : Config} {m m' : Memory} (hl : Memory.read c.nvLenOfs m = Memory.read c.nvLenOfs m')
    (h : ∀ a, c.nvSecretOfs ≤ a → a < c.nvSecretOfs + 64 → Memory.read a m = Memory.read a m') :
    storedSecret c m = storedSecret c m' := by
  simp only [storedSecret, hl]
  refine List.map_congr_left fun i hi => ?_
  rw [List.mem_range] at hi
  exact h _ (by omega) (by omega)

theorem read_writeAll_outside {a b : Nat} {v : List Byte} {m : Memory} (h : Memory.wf m = true)
    (hb : ¬ (a ≤ b ∧ b < a + v.length)) : Memory.read b (Memory.writeAll (cellsAt a v) m) = Memory.read b m := by
  rw [read_writeAll_cellsAt h, if_neg hb]

/-- The last-password region after the password is written. -/
theorem storedPassword_write (c : Config) (pw : Vector Byte 6) {m : Memory} (h : Memory.wf m = true) :
    storedPassword c (Memory.writeAll (cellsAt c.nvPwOfs pw.toList) m) = pw.toList := by
  apply List.ext_getElem
  · simp [storedPassword]
  · intro i h1 h2
    have hi : i < 6 := by simpa using h2
    simp only [storedPassword, List.getElem_map, List.getElem_range, read_writeAll_cellsAt h]
    rw [if_pos (by simp; omega), show c.nvPwOfs + i - c.nvPwOfs = i by omega, List.getD_eq_getElem?_getD,
      List.getElem?_eq_getElem h2]
    rfl

/-! ## The time step of a generation -/

/-- What the time step leaves: the time buffer of some counter, and nothing else but the clock's answers, the draw counter, the
store and its log. -/
def timed (c : Word) (answers : List ClockBytes) (draws : Nat) (nv : Memory) (log : List Host.Cell) (s : State) : State :=
  { s with
    tcount := c, tbuf := timeBuffer c, tbufValid := true, clockAnswers := answers, draws := draws, nv := nv, storeLog := log }

/-- With the external clock (R127): the store is neither read nor written. -/
theorem generateTime_ext_eq {s : State} (h : s.cfg.timeSrc = .ext) :
    ∃ answer rest n c, generateTime s = .ok (timed c rest n s.nv s.storeLog s) ∧
      (s.clockAnswers = answer :: rest ∨ (s.clockAnswers = [] ∧ rest = [])) ∧
      (∀ c', bcdCounter answer = some c' → c = c') := by
  obtain ⟨b, rest, n, hb, -, ha⟩ := clockRead_eq s
  obtain ⟨c, hc, he⟩ := tcBcdBody_eq b { s with clockAnswers := rest, draws := n }
  exact ⟨b, rest, _, c, by rw [generateTime_ext h, hb, he]; rfl, ha, hc⟩

/-- With the monotonic counter, not exhausted (43_timecounter.md R124). -/
theorem generateTime_mono_eq {s : State} (h : s.cfg.timeSrc = .mono) (hl : LegalLayout s.cfg)
    (hc : storedCounter s.cfg s.nv ≠ 2 ^ 32 - 1) :
    generateTime s = .ok (timed (wordAt (s.cfg.nvTimeOfs + 4) s.nv) s.clockAnswers s.draws
      (Memory.writeAll (cellsAt (s.cfg.nvTimeOfs + 4) (be32 (wordAt (s.cfg.nvTimeOfs + 4) s.nv + 1))) s.nv)
      (s.storeLog ++ cellsAt (s.cfg.nvTimeOfs + 4) (be32 (wordAt (s.cfg.nvTimeOfs + 4) s.nv + 1))) s) := by
  have hw : wordAt (counterAddr s) s.nv ≠ 0xFFFFFFFF := fun hw => hc (by
    rw [← wordAt_toNat, show wordAt (s.cfg.nvTimeOfs + 4) s.nv = 0xFFFFFFFF from hw]
    rfl)
  rw [generateTime_mono h, tcMonoBody_ok hl.timeInside hw]
  rfl

theorem generateTime_exhausted {s : State} (h : s.cfg.timeSrc = .mono) (hl : LegalLayout s.cfg)
    (hc : storedCounter s.cfg s.nv = 2 ^ 32 - 1) : generateTime s = .error (.raise .counterExhausted) := by
  rw [generateTime_mono h, tcMonoBody_exhausted hl.timeInside]
  apply BitVec.eq_of_toNat_eq
  rw [← wordAt_toNat] at hc
  exact hc

/-- The next counter does not wrap. -/
theorem nextCounter_toNat {c : Config} {m : Memory} (h : storedCounter c m ≠ 2 ^ 32 - 1) :
    (wordAt (c.nvTimeOfs + 4) m + 1).toNat = storedCounter c m + 1 := by
  have hlt := storedCounter_lt c m
  rw [BitVec.toNat_add, wordAt_toNat]
  show (storedCounter c m + 1) % 2 ^ 32 = _
  omega

/-! ## The state after a generation -/

theorem afterGeneration_nv (s u : State) :
    (afterGeneration s u).nv = Memory.writeAll (cellsAt u.cfg.nvPwOfs (afterGeneration s u).pw.toList) u.nv := rfl

theorem afterGeneration_storeLog (s u : State) :
    (afterGeneration s u).storeLog = u.storeLog ++ cellsAt u.cfg.nvPwOfs (afterGeneration s u).pw.toList := rfl

/-- The fields a generation leaves, from a time step that left the secret as it was. -/
theorem afterGeneration_fields {s : State} {c : Word} {answers : List ClockBytes} {draws : Nat} {nv : Memory}
    {log : List Host.Cell} (hk : storedSecret s.cfg nv = storedSecret s.cfg s.nv) :
    Generation s (afterGeneration s (timed c answers draws nv log s)) c := by
  have hd : (afterGeneration s (timed c answers draws nv log s)).dout =
      generationMac (storedSecret s.cfg s.nv) (timeBuffer c) := by
    rw [← hk]
    rfl
  have hkl := storedSecret_length s.cfg s.nv
  refine ⟨rfl, rfl, rfl, hd, rfl, rfl, ⟨rfl, ?_, ?_, ?_, ?_⟩, ?_, ?_, ⟨?_, ?_⟩, rfl, rfl, rfl, rfl,
    ⟨rfl, rfl, rfl, rfl, rfl, rfl, rfl, rfl, rfl⟩⟩
  · show (finish (hashHolding _)).blk = _
    rw [finish_eq]
    rfl
  · show (finish (hashHolding _)).ofs = _
    rw [finish_eq]
  · show (finish (hashHolding _)).bits = _
    rw [finish_bits]
    simp only [hashHolding]
    rw [outerMessage_length (by rw [show (timed c answers draws nv log s).cfg = s.cfg from rfl]; exact storedSecret_length _ _)]
    rfl
  · have : (afterGeneration s (timed c answers draws nv log s)).dout =
        digestBytes (afterGeneration s (timed c answers draws nv log s)).hash.h := by
      have hk' : (storedSecret s.cfg nv).length ≤ 64 := by rw [hk]; exact hkl
      show generationMac (storedSecret s.cfg nv) (timeBuffer c) = digestBytes (finish (hashHolding (outerMessage
        (storedSecret s.cfg nv) (digestBytes (finish (hashHolding (innerMessage (storedSecret s.cfg nv) (timeBuffer c)))).h)))).h
      rw [← generationMac_eq hk', finish_holding (m := outerMessage _ _) (by rw [outerMessage_length hk']; omega)]
    rw [this, digestBytes_toList]
  · show (truncWindow _ _).toNat = _
    rw [truncWindow_toNat]
    rfl
  · show (BitVec.ofNat 32 _).toNat = _
    rw [BitVec.toNat_ofNat]
    show (afterGeneration s (timed c answers draws nv log s)).truncP.toNat % 1000000 % 2 ^ 32 = _
    omega
  · show decimalValue (renderPassword _).toList = (BitVec.ofNat 32 _).toNat
    rw [decimalValue_renderPassword (Nat.mod_lt _ (by decide)), BitVec.toNat_ofNat]
    show (afterGeneration s (timed c answers draws nv log s)).truncP.toNat % 1000000 =
      (afterGeneration s (timed c answers draws nv log s)).truncP.toNat % 1000000 % 2 ^ 32
    omega
  · exact renderPassword_digits _

end Sys2Proof.Machine
end

