-- ==== Sys2Proof/Laws/Emission.lean ====
section
/-! SUPPORT. An emission cycle frame by frame (44_controller.md R142). -/

namespace Sys2Proof.Machine

open Reference Safety

/-- `n` reports of the emission cycle that starts in `s` have been sent (44_controller.md R136, R137, R142). -/
structure Typed (s : State) (n : Nat) (u : State) : Prop where
  cfg : u.cfg = s.cfg
  halted : u.halted = false
  pw : u.pw = s.pw
  idx : u.idx.toNat = (n + 1) / 2
  cstate : u.cstate = if n % 2 = 0 then .sending else .releasing
  reports : u.reports = s.reports ++ (cycleReports s.pw).take n

/-- The key-down reports of a cycle. -/
theorem cycleReports_even (pw : Vector Byte 6) (k : Nat) (h : k < 6) : (cycleReports pw)[2*k]? = some (digitReport pw[k]) := by
  have : k = 0 ∨ k = 1 ∨ k = 2 ∨ k = 3 ∨ k = 4 ∨ k = 5 := by omega
  obtain ⟨⟨l⟩, hl⟩ := pw
  match l, hl with
  | [a,b,c,d,e,f], _ => rcases this with rfl | rfl | rfl | rfl | rfl | rfl <;> rfl
/-- The key-up reports of a cycle. -/
theorem cycleReports_odd (pw : Vector Byte 6) (k : Nat) (h : k < 6) : (cycleReports pw)[2*k+1]? = some (#v[0,0,0,0,0,0,0,0]) := by
  have : k = 0 ∨ k = 1 ∨ k = 2 ∨ k = 3 ∨ k = 4 ∨ k = 5 := by omega
  obtain ⟨⟨l⟩, hl⟩ := pw
  match l, hl with
  | [a,b,c,d,e,f], _ => rcases this with rfl | rfl | rfl | rfl | rfl | rfl <;> rfl

theorem halted_of_fault {s t : State} (h : t.fault = s.fault) (hh : s.halted = false) : t.halted = false := by
  simpa [State.halted, State.fcode, h] using hh

/-- A poll with a slot sends the next report of the cycle; the twelfth ends it. -/
theorem typed_slot {s u : State} {n : Nat} (hd : asciiDigits s.pw) (q : Typed s n u) (hn : n ≤ 11) {b : Byte}
    (hr : reservedBitsSet b = false) (hb : b.getLsbD 1 = true) :
    ∃ t, exec (.ctlPoll b) u = .next t ∧ (n ≤ 10 → Typed s (n + 1) t) ∧
      (n = 11 → t.reports = s.reports ++ cycleReports s.pw ∧ t.cstate = .waiting ∧ t.idx = 6 ∧ t.pw = s.pw) := by
  rcases Nat.mod_two_eq_zero_or_one n with h | h
  · have hc : u.cstate = .sending := by rw [q.cstate, if_pos h]
    have hi : u.idx.toNat < 6 := by rw [q.idx]; omega
    refine ⟨_, exec_ok (i := .ctlPoll b) q.halted rfl (poll_sending_slot hr hc hb hi), fun _ => ?_, by omega⟩
    have hidx : (u.idx + 1).toNat = u.idx.toNat + 1 := by rw [BitVec.toNat_add]; simp; omega
    refine ⟨q.cfg, halted_of_fault rfl q.halted, q.pw, ?_, ?_, ?_⟩
    · show (u.idx + 1).toNat = _
      rw [hidx, q.idx]; omega
    · rw [if_neg (by omega)]; rfl
    · show u.reports ++ [keyDown u.pw[u.idx.toNat]] = _
      have e : u.idx.toNat = n / 2 := by rw [q.idx]; omega
      have h2 := cycleReports_even s.pw (n/2) (by omega)
      rw [show 2 * (n/2) = n by omega] at h2
      rw [q.reports, List.take_add_one, h2, ← List.append_assoc]
      have hp : u.pw[u.idx.toNat] = s.pw[n / 2] := by simp only [q.pw, e]
      have hk : keyDown s.pw[n / 2] = digitReport s.pw[n / 2] := keyDown_digit (hd ⟨n / 2, by omega⟩)
      rw [hp, hk]
      rfl
  · have hc : u.cstate = .releasing := by rw [q.cstate, if_neg (by omega)]
    refine ⟨_, exec_ok (i := .ctlPoll b) q.halted rfl (poll_releasing hr hc), fun _ => ?_, fun h11 => ?_⟩
    · have hi : u.idx < 6 := by rw [BitVec.lt_def, q.idx]; simp; omega
      have hs : (pinsOf b).slot = true := hb
      simp only [pollReleasing, hs, if_true, hi]
      refine ⟨q.cfg, halted_of_fault rfl q.halted, q.pw, ?_, ?_, ?_⟩
      · show u.idx.toNat = _
        rw [q.idx]; omega
      · rw [if_pos (by omega)]; rfl
      · show u.reports ++ [keyUp] = _
        have h2 := cycleReports_odd s.pw (n/2) (by omega)
        rw [show 2 * (n/2) + 1 = n by omega] at h2
        rw [q.reports, List.take_add_one, h2, ← List.append_assoc]
        rfl
    · subst h11
      have hi : ¬ u.idx < 6 := by rw [BitVec.lt_def, q.idx]; decide
      have hs : (pinsOf b).slot = true := hb
      simp only [pollReleasing, hs, if_true, hi, if_false]
      refine ⟨?_, rfl, ?_, q.pw⟩
      · show u.reports ++ [keyUp] = _
        have h2 := cycleReports_odd s.pw 5 (by omega)
        rw [q.reports, List.append_assoc]
        congr 1
        have h12 : (cycleReports s.pw).take 12 = cycleReports s.pw := by
          rw [List.take_of_length_le]
          simp [cycleReports]
        conv_rhs => rw [← h12, List.take_add_one (i := 11), h2]
        rfl
      · show u.idx = 6
        apply BitVec.eq_of_toNat_eq; rw [q.idx]; rfl

/-- Any other frame that raises no fault in a cycle leaves it where it is. -/
theorem typed_other {s u : State} {n : Nat} (hcfg : configLegal s.cfg = true) (q : Typed s n u) {i : Instr}
    (hi : cycleFrame i = true) (hs : slotPoll i = false) :
    ∃ t, exec i u = .next t ∧ Typed s n t := by
  have hl : LegalLayout u.cfg := by rw [q.cfg]; exact legalLayout hcfg
  cases i with
  | ctlPoll b =>
    have hr : reservedBitsSet b = false := by simp [cycleFrame, engineFrame, reservedBad] at hi; revert b; decide
    have hs' : (pinsOf b).slot = false := hs
    rcases Nat.mod_two_eq_zero_or_one n with h | h
    · refine ⟨_, exec_ok (i := .ctlPoll b) q.halted rfl (poll_sending_noSlot hr (by rw [q.cstate, if_pos h]) hs'), ?_⟩
      exact ⟨q.cfg, halted_of_fault rfl q.halted, q.pw, q.idx, q.cstate, q.reports⟩
    · refine ⟨_, exec_ok (i := .ctlPoll b) q.halted rfl (poll_releasing hr (by rw [q.cstate, if_neg (by omega)])), ?_⟩
      simp only [pollReleasing, hs']
      exact ⟨q.cfg, halted_of_fault rfl q.halted, q.pw, q.idx, q.cstate, q.reports⟩
  | hostProvision k =>
    by_cases hk : 1 ≤ k.length ∧ k.length ≤ 64
    · exact ⟨_, exec_ok (i := .hostProvision k) q.halted rfl (hostProvision_accepted hk hl),
        q.cfg, halted_of_fault rfl q.halted, q.pw, q.idx, q.cstate, q.reports⟩
    · exact ⟨_, exec_ok (i := .hostProvision k) q.halted rfl (hostProvision_rejected hk),
        q.cfg, halted_of_fault rfl q.halted, q.pw, q.idx, q.cstate, q.reports⟩
  | hostSetTime b =>
    refine ⟨_, exec_ok (i := .hostSetTime b) q.halted rfl rfl, ?_⟩
    unfold hostSetTimeBody
    split <;> exact ⟨q.cfg, halted_of_fault rfl q.halted, q.pw, q.idx, q.cstate, q.reports⟩
  | hostSetCounter c =>
    cases hs : u.cfg.timeSrc with
    | ext => exact ⟨_, exec_ok (i := .hostSetCounter c) q.halted rfl (hostSetCounter_ext hs),
        q.cfg, halted_of_fault rfl q.halted, q.pw, q.idx, q.cstate, q.reports⟩
    | mono => exact ⟨_, exec_ok (i := .hostSetCounter c) q.halted rfl (hostSetCounter_mono hs hl),
        q.cfg, halted_of_fault rfl q.halted, q.pw, q.idx, q.cstate, q.reports⟩
  | _ => simp [cycleFrame, engineFrame] at hi

end Sys2Proof.Machine
end

