-- ==== Sys2Proof/Laws/Region.lean ====
section
/-! SUPPORT. Where a frame writes the store: in its log, and inside the four regions of 20_memory.md R48. -/

namespace Sys2Proof.Machine

open Reference Safety

/-- Every store write on the way from `s` to `t` is in the log, and lies in one of the four regions. -/
def WritesRegions (s t : State) : Prop :=
  ∃ cells, t.storeLog = s.storeLog ++ cells ∧ t.nv = Memory.writeAll cells s.nv ∧ ∀ c ∈ cells, inRegion s.cfg c.1

theorem WritesRegions.same {s t : State} (h1 : t.storeLog = s.storeLog) (h2 : t.nv = s.nv) : WritesRegions s t :=
  ⟨[], by simp [h1], by simp [h2], by simp⟩

/-- The four counter bytes are in the time region. -/
theorem inRegion_counter {c : Config} {v : Word} : ∀ x ∈ cellsAt (c.nvTimeOfs + 4) (be32 v), inRegion c x.1 := by
  intro x hx
  have := mem_cellsAt hx; rw [be32_length] at this; unfold inRegion; omega

theorem generateTime_writes {s u : State} (hu : generateTime s = .ok u) : WritesRegions s u := by
  cases hs : s.cfg.timeSrc with
  | ext =>
    obtain ⟨a, r, n, c, hg, -⟩ := generateTime_ext_eq hs
    rw [hg] at hu; cases hu
    exact .same rfl rfl
  | mono =>
    rw [generateTime_mono hs] at hu
    obtain ⟨-, h4, rfl⟩ := tcMonoBody_eq_ok hu
    exact ⟨_, rfl, rfl, inRegion_counter⟩

/-- No pseudocode writes the store outside the four regions (20_memory.md R48, R50). -/
theorem bodyOf_writes {i : Instr} {s t : State} (hl : LegalLayout s.cfg) (ht : bodyOf i s = .ok t) : WritesRegions s t := by
  cases i with
  | shaReset => cases ht; exact .same rfl rfl
  | shaUpdate data => obtain ⟨-, -, rfl⟩ := absorbState_eq_ok ht; exact .same rfl rfl
  | shaDigest => obtain ⟨-, rfl⟩ := shaDigestBody_eq_ok ht; exact .same rfl rfl
  | macInit k => obtain ⟨-, rfl⟩ := macInitBody_eq_ok ht; exact .same rfl rfl
  | macUpdate data => obtain ⟨-, -, rfl⟩ := absorbState_eq_ok (macUpdateBody_eq_ok ht).2; exact .same rfl rfl
  | macFinal k => obtain ⟨-, -, -, rfl⟩ := macFinalBody_eq_ok ht; exact .same rfl rfl
  | otpTrunc => obtain ⟨-, rfl⟩ := otpTruncBody_eq_ok ht; exact .same rfl rfl
  | tcBcd b => cases ht; obtain ⟨c, -, he⟩ := tcBcdBody_eq b s; rw [he]; exact .same rfl rfl
  | tcMono => obtain ⟨-, -, rfl⟩ := tcMonoBody_eq_ok ht; exact ⟨_, rfl, rfl, inRegion_counter⟩
  | ctlPoll b =>
    obtain ⟨-, hc⟩ := poll_cases hl ht
    rcases hc with ⟨-, rfl⟩ | ⟨-, -, rfl⟩ | ⟨-, u, hu, rfl⟩ | ⟨-, -, -, rfl⟩ | ⟨-, rfl⟩ | ⟨-, -, rfl⟩ | ⟨-, -, -, rfl⟩ | ⟨-, rfl⟩
    · unfold pollIdle; split <;> exact .same rfl rfl
    · exact .same rfl rfl
    · obtain ⟨cells, h1, h2, h3⟩ := generateTime_writes hu
      refine ⟨cells ++ cellsAt u.cfg.nvPwOfs (afterGeneration s u).pw.toList, ?_, ?_, fun c hc => ?_⟩
      · rw [afterGeneration_storeLog, h1, List.append_assoc]
      · rw [afterGeneration_nv, h2, Memory.writeAll_append]
      · rcases List.mem_append.1 hc with hc | hc
        · exact h3 c hc
        · have := mem_cellsAt hc
          rw [generateTime_cfg hu] at this
          simp at this
          unfold inRegion; omega
    · exact .same rfl rfl
    · exact .same rfl rfl
    · exact .same rfl rfl
    · exact .same rfl rfl
    · unfold pollReleasing; split <;> exact .same rfl rfl
  | hostProvision k =>
    simp only [bodyOf] at ht
    by_cases hk : 1 ≤ k.length ∧ k.length ≤ 64
    · rw [hostProvision_accepted hk hl] at ht; cases ht
      refine ⟨_, rfl, rfl, fun c hc => ?_⟩
      unfold inRegion
      rcases List.mem_append.1 hc with hc | hc
      · have := mem_cellsAt hc; simp at this; omega
      · have := mem_cellsAt hc; omega
    · rw [hostProvision_rejected hk] at ht; cases ht
      exact .same rfl rfl
  | hostSetTime b => cases ht; unfold hostSetTimeBody; split <;> exact .same rfl rfl
  | hostSetCounter c =>
    simp only [bodyOf] at ht
    cases hs : s.cfg.timeSrc with
    | ext => rw [hostSetCounter_ext hs] at ht; cases ht; exact .same rfl rfl
    | mono =>
      rw [hostSetCounter_mono hs hl] at ht; cases ht
      refine ⟨_, rfl, rfl, fun c hc => ?_⟩
      have := mem_cellsAt hc; simp at this; unfold inRegion; omega

theorem inRegion_inside {c : Config} (hl : LegalLayout c) {a : Nat} (h : inRegion c a) : a < c.nvSize := by
  have := hl.lenInside; have := hl.secretInside; have := hl.timeInside; have := hl.pwInside
  unfold inRegion at h; omega

theorem exec_writes {i : Instr} {s t : State} (hl : LegalLayout s.cfg) (ht : exec i s = .next t) : WritesRegions s t := by
  rcases exec_next ht with ⟨-, rfl⟩ | ⟨-, c, rfl⟩ | ⟨-, -, hb⟩
  · exact .same rfl rfl
  · exact .same rfl rfl
  · exact bodyOf_writes hl hb

/-- The writes of the frame a step runs lie inside the store. -/
theorem frameStep_inside {s t : State} (hl : LegalLayout s.cfg) (ht : frameStep s = .next t) : ∀ c ∈ t.storeLog, c.1 < s.cfg.nvSize := by
  unfold frameStep at ht
  split at ht
  · next i rest _ =>
    obtain ⟨cells, h1, -, h3⟩ := exec_writes (s := s.consume rest) hl ht
    intro c hc
    rw [h1] at hc
    exact inRegion_inside hl (h3 c (by simpa using hc))
  · next opc rest _ =>
    rcases runFrame_next ht with ⟨-, rfl⟩ | ⟨-, c, rfl⟩ | ⟨-, -, hb⟩
    · intro c hc; cases hc
    · intro c hc; cases hc
    · cases hb
  · cases ht

end Sys2Proof.Machine
end

