-- ==== Sys2Proof/Laws/Invariant.lean ====
section
/-! SUPPORT. Every shared operation keeps the invariant of Sys2Proof/Safety.lean, said once per operation. -/

namespace Sys2Proof.Machine

open Reference Safety

theorem finish_ofs (e : HashEngine) : (finish e).ofs = 0 := by rw [finish_eq]

theorem inv_absorb {data : List Byte} {s t : State} (h : Inv s) (ht : absorbState data s = .ok t) : Inv t := by
  obtain ⟨hp, hl, rfl⟩ := absorbState_eq_ok ht
  have hph : (absorbBytes data s.hash).phase = .active := by rw [(absorbBytes_bits data s.hash).2, hp]
  refine { h with innerIsActive := fun _ => hph, hashCount := fun _ => ?_, finalHasDigest := fun hf => ?_ }
  · have ho := absorbBytes_ofs data s.hash
    obtain ⟨h1, h2⟩ := h.hashCount hp
    have hb : (BitVec.ofNat 16 (s.hash.bits.toNat + 8 * data.length)).toNat = s.hash.bits.toNat + 8 * data.length := by
      rw [BitVec.toNat_ofNat]
      omega
    show (BitVec.ofNat 16 _).toNat % 8 = 0 ∧ (absorbBytes data s.hash).ofs.toNat = (BitVec.ofNat 16 _).toNat / 8 % 64
    rw [hb, ho]
    omega
  · exact absurd (hph.symm.trans hf) (by decide)

/-- `BITS` and `OFS` of a HashEngine that holds a message count it. -/
theorem hashHolding_counts {m : List Byte} :
    (hashHolding m).bits.toNat % 8 = 0 ∧ (hashHolding m).ofs.toNat = (hashHolding m).bits.toNat / 8 % 64 := by
  simp only [hashHolding, BitVec.toNat_ofNat]
  omega

/-- The truncation and rendering of any digest. -/
theorem inv_truncate {s : State} (h : Inv s) (d : Digest) : Inv { s with
    dout := d, doutValid := true, pw := renderPassword ((truncWindow s.cfg.truncMask d).toNat % 1000000)
    truncP := truncWindow s.cfg.truncMask d
    code := BitVec.ofNat 32 ((truncWindow s.cfg.truncMask d).toNat % 1000000), pwValid := true } := by
  have hc : (BitVec.ofNat 32 ((truncWindow s.cfg.truncMask d).toNat % 1000000)).toNat =
      (truncWindow s.cfg.truncMask d).toNat % 1000000 := by
    rw [BitVec.toNat_ofNat]
    omega
  refine { h with
    emittingHasPassword := fun _ => rfl, passwordDigits := fun _ => renderPassword_digits _
    passwordValue := fun _ => ⟨hc, ?_⟩, codeRange := ?_, passwordHasDigest := fun _ => rfl, finalHasDigest := fun _ => rfl }
  · rw [decimalValue_renderPassword (Nat.mod_lt _ (by decide))]
    exact hc.symm
  · show (BitVec.ofNat 32 _).toNat < _
    rw [hc]
    omega

theorem inv_storeCells {s : State} (h : Inv s) {cells : List Host.Cell} (hc : ∀ c ∈ cells, c.1 < s.cfg.nvSize) :
    Inv (storeCells cells s) :=
  { h with storeCanonical := Memory.wf_writeAll _ h.storeCanonical, storeInside := Memory.inside_writeAll hc h.storeInside }

theorem inv_setTime {s : State} (h : Inv s) (c : Word) : Inv (setTime c s) := { h with timeBufferValue := fun _ => rfl }

/-- The time step of a generation, and the registers it leaves. -/
theorem inv_generateTime {s u : State} (h : Inv s) (hu : generateTime s = .ok u) :
    Inv u ∧ u.cfg = s.cfg ∧ u.hash = s.hash ∧ u.cstate = s.cstate ∧ u.tsetPend = s.tsetPend ∧ u.hold = s.hold ∧
      u.fault = s.fault := by
  cases hs : s.cfg.timeSrc with
  | ext =>
    obtain ⟨a, r, n, c, hg, -⟩ := generateTime_ext_eq hs
    rw [hg] at hu
    cases hu
    exact ⟨{ h with timeBufferValue := fun _ => rfl }, rfl, rfl, rfl, rfl, rfl, rfl⟩
  | mono =>
    rw [generateTime_mono hs] at hu
    obtain ⟨-, h4, rfl⟩ := tcMonoBody_eq_ok hu
    refine ⟨inv_storeCells (inv_setTime h _) (fun c hc => ?_), rfl, rfl, rfl, rfl, rfl, rfl⟩
    have := mem_cellsAt hc
    simp at this ⊢
    omega

/-- Steps (2) to (5) of a generation. -/
theorem inv_generated {u : State} (h : Inv u) (hl : LegalLayout u.cfg) : Inv (generated u) := by
  have h2 := inv_truncate h (generationMac (storedSecret u.cfg u.nv) u.tbuf)
  have h3 := inv_storeCells h2 (cells := cellsAt u.cfg.nvPwOfs (generated u).pw.toList) fun c hc => by
    have := mem_cellsAt hc
    have := hl.pwInside
    simp at *
    omega
  exact { h3 with
    innerIsActive := fun hh => (nomatch hh), hashCount := fun hh => (nomatch hh), finalHasDigest := fun _ => rfl }

theorem inv_updateHold {s t : State} (h : Inv t) (hc : t.cfg = s.cfg) (hs : s.hold ≤ s.cfg.holdArm) (armed : Bool) :
    Inv (updateHold s.hold armed t) := by
  refine { h with holdRange := ?_ }
  show (if armed then t.cfg.holdArm else if 0 < s.hold then s.hold - 1 else 0) ≤ t.cfg.holdArm
  rw [hc]
  split
  · exact BitVec.le_refl _
  · split
    · next hp =>
      rw [BitVec.le_def] at hs ⊢
      rw [BitVec.toNat_sub]
      simp [BitVec.lt_def] at hp
      have := s.hold.isLt
      have : (1 : Byte).toNat = 1 := rfl
      omega
    · rw [BitVec.le_def]
      simp

theorem inv_takeFault {s : State} (h : Inv s) (c : FaultCode) (o : Byte) : Inv (takeFault c o s) := by
  refine { h with faultCodes := ?_ }
  rw [takeFault_fcode]
  cases c <;> exact ⟨by decide, fun hh => absurd hh (by decide)⟩

end Sys2Proof.Machine
end

