-- ==== Sys2Proof/Laws/PerInstr.lean ====
section
/-! SUPPORT. Statements about every instruction as syntax, one lemma per constructor. Family FrameLength: "A decoder finds the
length of a frame from its first one or two bytes alone" (30_encoding.md R75), so the length it finds is the length of the
instruction's encoding, whatever follows. -/

namespace Sys2Proof.Laws.FrameLength

open Machine

/-- The length found from the head of a stream is the length of the encoding at its head. -/
def Statement (i : Instr) : Prop :=
  i.wellFormed = true → ∀ rest, frameLength (encode i ++ rest) = some (encode i).length

theorem ofData {opc : Byte} {data : List Byte} (hf : formatOf opc = some .l) (h : dataFits data = true) (rest : List Byte) :
    frameLength (opc :: encodeData data ++ rest) = some (opc :: encodeData data).length := by
  simp only [List.cons_append, frameLength, hf, encodeData, length_byte h, List.length_cons]
  congr 1
  omega

theorem shaReset : Statement .shaReset := fun _ _ => rfl
theorem shaUpdate (data : List Byte) : Statement (.shaUpdate data) := fun h rest => ofData rfl h rest
theorem shaDigest : Statement .shaDigest := fun _ _ => rfl
theorem macInit (key : List Byte) : Statement (.macInit key) := fun h rest => ofData rfl h rest
theorem macUpdate (data : List Byte) : Statement (.macUpdate data) := fun h rest => ofData rfl h rest
theorem macFinal (key : List Byte) : Statement (.macFinal key) := fun h rest => ofData rfl h rest
theorem otpTrunc : Statement .otpTrunc := fun _ _ => rfl
theorem tcBcd (b : ClockBytes) : Statement (.tcBcd b) := fun _ _ => rfl
theorem tcMono : Statement .tcMono := fun _ _ => rfl
theorem ctlPoll (inByte : Byte) : Statement (.ctlPoll inByte) := fun _ _ => rfl
theorem hostProvision (secret : List Byte) : Statement (.hostProvision secret) := fun h rest => ofData rfl h rest
theorem hostSetTime (b : ClockBytes) : Statement (.hostSetTime b) := fun _ _ => rfl
theorem hostSetCounter (cval : Word) : Statement (.hostSetCounter cval) := fun _ _ => rfl

end Sys2Proof.Laws.FrameLength
end

