-- ==== Sys2Proof/Laws/Schedule.lean ====
section
/-! SUPPORT. The message schedule by index and the rounds as a fold (40_sha1.md R88, R89), so that no proof unfolds the 80 rounds. -/

namespace Sys2Proof.Machine

/-- `rotl_n` of 00_scope.md R12 is a rotation. -/
theorem rotl_eq {n : Nat} (h : n < 32) (x : Word) : rotl n x = x.rotateLeft n := by
  simp [rotl, BitVec.rotateLeft, BitVec.rotateLeftAux, Nat.mod_eq_of_lt h]

theorem extendSchedule_length (n : Nat) (w : List Word) : (extendSchedule n w).length = n + w.length := by
  induction n generalizing w with
  | zero => simp [extendSchedule]
  | succ n ih =>
    rw [extendSchedule, ih, List.length_cons]
    omega

/-- The words there were stay, counted from the newest. -/
theorem extendSchedule_old (n : Nat) (w : List Word) (k : Nat) : (extendSchedule n w).getD (n + k) 0 = w.getD k 0 := by
  induction n generalizing w k with
  | zero => simp [extendSchedule]
  | succ n ih =>
    rw [extendSchedule, show n + 1 + k = n + (k + 1) by omega, ih]
    simp

/-- Each new word follows from the words before it, counted from the newest. -/
theorem extendSchedule_new (n : Nat) (w : List Word) (j : Nat) (hj : j < n) :
    (extendSchedule n w).getD j 0 = rotl 1 ((extendSchedule n w).getD (j + 3) 0 ^^^ (extendSchedule n w).getD (j + 8) 0 ^^^
      (extendSchedule n w).getD (j + 14) 0 ^^^ (extendSchedule n w).getD (j + 16) 0) := by
  induction n generalizing w with
  | zero => omega
  | succ n ih =>
    rw [extendSchedule]
    by_cases h : j < n
    · exact ih _ h
    · obtain rfl : j = n := by omega
      have e := extendSchedule_old j (nextWord w :: w)
      rw [show (extendSchedule j (nextWord w :: w)).getD j 0 = nextWord w from by simpa using e 0, e, e, e, e]
      simp [nextWord]

theorem schedule_length (blk : Vector Byte 64) : (schedule blk).length = 80 := by
  rw [schedule, List.length_reverse, extendSchedule_length, List.length_reverse, List.length_ofFn]

/-- Reading a reversed list by index. -/
theorem getD_reverse {l : List Word} {n t : Nat} (hl : l.length = n) (ht : t < n) :
    l.reverse.getD t 0 = l.getD (n - 1 - t) 0 := by
  subst hl
  simp [List.getD_eq_getElem?_getD, List.getElem?_reverse ht]

/-- The rounds are a fold over the round numbers. -/
theorem rounds_eq_fold (ws : List Word) (t : Nat) (x : Working) :
    rounds t ws x = (List.range ws.length).foldl (fun x k => shaRound (t + k) (ws.getD k 0) x) x := by
  induction ws generalizing t x with
  | nil => rfl
  | cons w ws ih =>
    rw [rounds, ih, List.length_cons, List.range_succ_eq_map, List.foldl_cons, List.foldl_map]
    simp [Nat.add_assoc, Nat.add_comm 1]

end Sys2Proof.Machine
end

