-- ==== Sys2Proof/Laws/Total.lean ====
section
/-! SUPPORT. Where the model cannot stop. -/

namespace Sys2Proof.Machine

open Safety

/-- A frame is never refused. -/
theorem exec_not_refused {i : Instr} {s : State} {r : Refusal} : exec i s ≠ .refused r := by
  rw [exec_eq]
  unfold runFrame
  split
  · simp
  · split
    · simp
    · split <;> simp

/-- An illegal opcode ends in a next state. -/
theorem illegalFrame_next (opc : Byte) (s : State) : ∃ t, illegalFrame opc s = .next t := by
  unfold illegalFrame runFrame
  split
  · exact ⟨_, rfl⟩
  · simp

/-- Taking a frame is refused only when none has been delivered in full. -/
theorem frameStep_refused {s : State} {r : Refusal} (h : frameStep s = .refused r) : r = .incompleteFrame := by
  unfold frameStep at h
  split at h
  · exact absurd h exec_not_refused
  · next opc rest _ =>
    obtain ⟨t, ht⟩ := illegalFrame_next opc (s.consume rest)
    rw [ht] at h
    cases h
  · injection h with h
    exact h.symm

/-- The model's own stops need an illegal layout or a state outside the invariant: no access is out of bounds (20_memory.md R50),
and no digit index is (44_controller.md R136). -/
theorem bodyOf_no_stop {i : Instr} {s : State} {f : Fault} (hl : LegalLayout s.cfg) (hi : s.cstate = .sending → s.idx.toNat ≤ 5)
    (ha : s.mphase = .inner → s.hash.phase = .active) : bodyOf i s ≠ .error (.stop f) := by
  intro h
  cases i with
  | shaReset => cases h
  | shaUpdate data =>
    simp only [bodyOf, absorbState, absorb] at h
    split at h
    · cases h
    · split at h <;> cases h
  | shaDigest =>
    simp only [bodyOf, shaDigestBody, finalize] at h
    split at h <;> cases h
  | macInit k =>
    simp only [bodyOf] at h
    by_cases hk : k.length ≤ 64
    · rw [macInitBody_ok hk] at h; cases h
    · simp [macInitBody, show 64 < k.length by omega] at h
  | macUpdate data =>
    simp only [bodyOf, macUpdateBody, absorbState, absorb] at h
    split at h
    · cases h
    · split at h
      · cases h
      · split at h <;> cases h
  | macFinal k =>
    simp only [bodyOf] at h
    by_cases hk : k.length ≤ 64
    · by_cases hm : s.mphase = .inner
      · rw [macFinalBody_ok hk hm (ha hm)] at h; cases h
      · simp [macFinalBody, show ¬ 64 < k.length by omega, hm] at h
    · simp [macFinalBody, show 64 < k.length by omega] at h
  | otpTrunc =>
    simp only [bodyOf, otpTruncBody] at h
    split at h <;> cases h
  | tcBcd b => cases h
  | tcMono =>
    by_cases hw : wordAt (counterAddr s) s.nv = 0xFFFFFFFF
    · simp only [bodyOf, tcMonoBody_exhausted hl.timeInside hw] at h; cases h
    · simp only [bodyOf, tcMonoBody_ok hl.timeInside hw] at h; cases h
  | ctlPoll b =>
    simp only [bodyOf] at h
    cases hr : reservedBitsSet b with
    | true => rw [poll_reserved hr] at h; cases h
    | false =>
      cases hc : s.cstate with
      | idle => rw [poll_idle hr hc] at h; cases h
      | waiting =>
        rcases Bool.eq_false_or_eq_true s.tsetPend with hp | hp
        · rw [poll_waiting_pending hr hc hp] at h; cases h
        · rcases Bool.eq_false_or_eq_true (triggers b s) with ht | ht
          · rw [poll_generate hr ht hl] at h
            cases hs : s.cfg.timeSrc with
            | ext =>
              rw [generateTime_ext hs] at h; cases h
            | mono =>
              by_cases hm : storedCounter s.cfg s.nv = 2 ^ 32 - 1
              · rw [generateTime_exhausted hs hl hm] at h; cases h
              · rw [generateTime_mono_eq hs hl hm] at h; cases h
          · rw [poll_waiting_quiet hr hc hp ht] at h; cases h
      | settingTime => rw [poll_settingTime hr hc] at h; cases h
      | sending =>
        rcases Bool.eq_false_or_eq_true (pinsOf b).slot with hs | hs
        · rw [poll_sending_slot hr hc hs (by have := hi hc; omega)] at h; cases h
        · rw [poll_sending_noSlot hr hc hs] at h; cases h
      | releasing => rw [poll_releasing hr hc] at h; cases h
  | hostProvision k =>
    simp only [bodyOf] at h
    by_cases hk : 1 ≤ k.length ∧ k.length ≤ 64
    · rw [hostProvision_accepted hk hl] at h; cases h
    · rw [hostProvision_rejected hk] at h; cases h
  | hostSetTime b => cases h
  | hostSetCounter c =>
    simp only [bodyOf] at h
    cases hs : s.cfg.timeSrc with
    | ext => rw [hostSetCounter_ext hs] at h; cases h
    | mono => rw [hostSetCounter_mono hs hl] at h; cases h

end Sys2Proof.Machine
end

