-- ==== Sys2Proof/Tests/Slice0.lean ====
section
/-! SUPPORT. Small tests of the model: ill-formed terms refused, every constructor decoded from a word written out from
30_encoding.md, at most two single-step tests per frame with the expected values of 95_test_vectors.md (named in each comment),
and the witnesses that the hypotheses of the statements can be met. -/

set_option Elab.async false

namespace Sys2Proof.Tests

open Sys2Proof.Machine Sys2Proof.Safety

/-! ## Well-formedness: format L carries at most 255 data bytes (30_encoding.md R67) -/

theorem test_wf_shaUpdate : (Instr.shaUpdate (List.replicate 256 0)).wellFormed = false := by decide +kernel
theorem test_wf_macInit : (Instr.macInit (List.replicate 256 0)).wellFormed = false := by decide +kernel
theorem test_wf_macUpdate : (Instr.macUpdate (List.replicate 256 0)).wellFormed = false := by decide +kernel
theorem test_wf_macFinal : (Instr.macFinal (List.replicate 256 0)).wellFormed = false := by decide +kernel
theorem test_wf_hostProvision : (Instr.hostProvision (List.replicate 256 0)).wellFormed = false := by decide +kernel
theorem test_wf_longest : (Instr.shaUpdate (List.replicate 255 0)).wellFormed = true := by decide +kernel

/-! ## Decoding: words written out from the encodings of 30_encoding.md R66 to R72 -/

theorem test_decode_shaReset : decode [0b00000001] = .frame .shaReset [] := by decide
theorem test_decode_shaUpdate : decode [0b00000010, 0b00000011, 0x61, 0x62, 0x63, 0x03] = .frame (.shaUpdate [0x61, 0x62, 0x63]) [0x03] := by
  decide
theorem test_decode_shaDigest : decode [0b00000011] = .frame .shaDigest [] := by decide
theorem test_decode_macInit : decode [0b00010001, 0b00000010, 0x4A, 0x65] = .frame (.macInit [0x4A, 0x65]) [] := by decide
theorem test_decode_macUpdate : decode [0b00010010, 0b00000000, 0x21] = .frame (.macUpdate []) [0x21] := by decide
theorem test_decode_macFinal : decode [0b00010011, 0b00000001, 0x6B] = .frame (.macFinal [0x6B]) [] := by decide
theorem test_decode_otpTrunc : decode [0b00100001] = .frame .otpTrunc [] := by decide
theorem test_decode_tcBcd :
    decode [0b00110001, 0x30, 0x31, 0x23, 0x05, 0x13, 0x02, 0x09] = .frame (.tcBcd ⟨0x30, 0x31, 0x23, 0x05, 0x13, 0x02, 0x09⟩) [] := by
  decide
theorem test_decode_tcMono : decode [0b00110010] = .frame .tcMono [] := by decide
theorem test_decode_ctlPoll : decode [0b01000001, 0b00000110] = .frame (.ctlPoll 0b00000110) [] := by decide
theorem test_decode_hostProvision : decode [0b01010001, 0b00000001, 0x78] = .frame (.hostProvision [0x78]) [] := by decide
theorem test_decode_hostSetTime :
    decode [0b01010010, 0x00, 0x00, 0x00, 0x01, 0x01, 0x01, 0x00] = .frame (.hostSetTime ⟨0x00, 0x00, 0x00, 0x01, 0x01, 0x01, 0x00⟩) [] := by
  decide
theorem test_decode_hostSetCounter : decode [0b01010011, 0x01, 0x02, 0x03, 0x04] = .frame (.hostSetCounter 0x01020304) [] := by decide
theorem test_decode_illegal : decode [0x00, 0x41] = .illegalOpcode 0x00 [0x41] ∧ decode [0xFF] = .illegalOpcode 0xFF [] := by decide
theorem test_decode_incomplete : decode [] = .incomplete ∧ decode [0x53, 1, 2, 3] = .incomplete ∧ decode [0x51] = .incomplete := by
  decide
/-- The table's numbering: byte 0 is bits 7 to 0 of the word. -/
theorem test_decode_tableWord : decodeTableWord 40 0x0403020153 = some (.hostSetCounter 0x01020304) ∧
    decodeTableWord 8 0x02 = some (.shaUpdate []) := by
  decide +kernel
/-- `01 02 03 61 62 63 03` is 3 frames (95_test_vectors.md L3-1). -/
theorem test_splitFrames : splitFrames [0x01, 0x02, 0x03, 0x61, 0x62, 0x63, 0x03] =
    ([.instr .shaReset, .instr (.shaUpdate [0x61, 0x62, 0x63]), .instr .shaDigest], []) := by
  decide
/-- The textual form of 30_encoding.md R83, and `press` of R84. -/
theorem test_text : (Instr.tcBcd ⟨0x30, 0x31, 0x23, 0x05, 0x13, 0x02, 0x09⟩).text = "tc.bcd x'30312305130209'" ∧
    Pseudo.press.expand = [.ctlPoll 0x06] := by
  decide

/-! ## Small states -/

/-- ASCII bytes. -/
def ascii (t : String) : List Byte := t.toList.map fun c => BitVec.ofNat 8 c.toNat

/-- The secret of RFC 6238's tests. -/
def seed : List Byte := ascii "12345678901234567890"

/-- The reset state with the monotonic counter, and the 8 bytes of the time region as given. -/
def monoState (region : List Byte) : State :=
  State.initial { Config.standard with timeSrc := .mono } (Memory.writeAll (cellsAt 65 region) [])

/-- The reset state with a clock that can be set. -/
def clockState : State := State.initial { Config.standard with hasSetTime := true } []

/-- The reset state with a message being hashed. -/
def hashing (m : List Byte) : State := { State.reset with hash := hashHolding m }

/-- The reset state with a MAC in progress. -/
def macing (key m : List Byte) : State :=
  { State.reset with hash := hashHolding (keyBlock key 0x36 ++ m), mphase := .inner }

/-- HMAC-SHA1 of counter 1 under `seed` (95_test_vectors.md L2-O1). -/
def mac1 : Digest :=
  #v[0x75, 0xA4, 0x8A, 0x19, 0xD4, 0xCB, 0xE1, 0x00, 0x64, 0x4E, 0x8A, 0xC1, 0x39, 0x7E, 0xEA, 0x74, 0x7A, 0x2D, 0x33, 0xAB]

/-- The state after the press of 95_test_vectors.md L3-4, without its provisioning: the password of counter 1 to be typed. -/
def typing : State :=
  { monoState [0, 0, 0, 0, 0, 0, 0, 2] with
    hash := { State.reset.hash with phase := .final }
    mphase := .done
    dout := mac1
    doutValid := true
    truncP := 0x41397EEA
    code := 287082
    pw := #v[0x32, 0x38, 0x37, 0x30, 0x38, 0x32]
    pwValid := true
    tbuf := #v[0, 0, 0, 0, 0, 0, 0, 1]
    tcount := 1
    tbufValid := true
    cstate := .sending
    hold := 255 }

/-- The state after a frame that ends in a next state. -/
def after (i : Instr) (s : State) : State :=
  match exec i s with
  | .next t => t
  | .fault _ => s
  | .refused _ => s

/-- The frame ends in a next state. -/
def ends (i : Instr) (s : State) : Bool :=
  match exec i s with
  | .next _ => true
  | .fault _ => false
  | .refused _ => false

theorem exec_after {i : Instr} {s : State} (h : ends i s = true) : exec i s = .next (after i s) := by
  unfold ends at h
  unfold after
  split at h
  · next t ht => rw [ht]
  · cases h
  · cases h

theorem runFrames_after {i : Instr} {s : State} (h : ends i s = true) : runFrames [i] s = .next (after i s) := by
  simp [runFrames, exec_after h]

/-- The state after a step that ends in a next state. -/
def stepped (s : State) : Option State :=
  match step s with
  | .next t => some t
  | .fault _ => none
  | .refused _ => none

/-- Hexadecimal digits as a number. -/
def asNat (bs : List Byte) : Nat := bs.foldl (fun n b => 256 * n + b.toNat) 0

/-! ## Single steps -/

/-- L2-S6. -/
theorem test_shaReset : (after .shaReset State.reset).status = 0x00000001 ∧
    (after .shaReset State.reset).hash.h = #v[0x67452301, 0xEFCDAB89, 0x98BADCFE, 0x10325476, 0xC3D2E1F0] := by
  decide

/-- L2-S6. -/
theorem test_shaUpdate_abc : (after (.shaUpdate (ascii "abc")) (hashing [])).hash.ofs = 3 ∧
    (after (.shaUpdate (ascii "abc")) (hashing [])).hash.bits = 0x0018 ∧
    (after (.shaUpdate (ascii "abc")) (hashing [])).hash.blk.toList.take 4 = [0x61, 0x62, 0x63, 0x00] := by
  decide +kernel

/-- L2-S7. -/
theorem test_shaUpdate_uninit : (after (.shaUpdate (ascii "a")) State.reset).fault = 0x0201 := by decide +kernel

/-- L1-2, L2-S6. -/
theorem test_shaDigest_abc : asNat (after .shaDigest (hashing (ascii "abc"))).dout.toList = 0xa9993e364706816aba3e25717850c26c9cd0d89d ∧
    (after .shaDigest (hashing (ascii "abc"))).status = 0x00000012 := by
  decide +kernel

/-- L2-S2, 56 bytes: the length field does not fit. -/
theorem test_shaDigest_two_blocks : asNat (after .shaDigest (hashing (List.replicate 56 0x61))).dout.toList =
    0xc2db330f6083854c99d4b5bfb6e8f29f201be699 := by
  decide +kernel

/-- L2-M10. -/
theorem test_macInit : (after (.macInit (List.replicate 20 0x0B)) State.reset).hash.h =
      #v[0x064c662a, 0xcc6ed1b0, 0x6cfa9ab0, 0x042f137f, 0xcea570eb] ∧
    (after (.macInit (List.replicate 20 0x0B)) State.reset).status = 0x00000005 := by
  decide +kernel

/-- L2-M12. -/
theorem test_macInit_long : (after (.macInit (List.replicate 65 0)) State.reset).fault = 0x1103 := by decide +kernel

/-- L2-M10. -/
theorem test_macUpdate : (after (.macUpdate (ascii "Hi There")) (macing (List.replicate 20 0x0B) [])).hash.bits = 0x0240 ∧
    (after (.macUpdate (ascii "Hi There")) (macing (List.replicate 20 0x0B) [])).hash.ofs = 8 := by
  decide +kernel

/-- L2-M12. -/
theorem test_macUpdate_idle : (after (.macUpdate (ascii "a")) State.reset).fault = 0x1204 := by decide +kernel

/-- L1-3. -/
theorem test_macFinal : asNat (after (.macFinal (List.replicate 20 0x0B)) (macing (List.replicate 20 0x0B) (ascii "Hi There"))).dout.toList =
    0xb617318655057264e28bc0b6fb378c8ef146be00 := by
  decide +kernel

/-- L2-M12: KEY_TOO_LONG is tested before MAC_NOT_ACTIVE. -/
theorem test_macFinal_long : (after (.macFinal (List.replicate 65 0)) State.reset).fault = 0x1303 := by decide +kernel

/-- L2-O1, mask 1. -/
theorem test_otpTrunc : (after .otpTrunc { State.reset with dout := mac1, doutValid := true }).truncP = 0x41397EEA ∧
    (after .otpTrunc { State.reset with dout := mac1, doutValid := true }).pw.toList = ascii "287082" := by
  decide +kernel

/-- L2-O1, mask 0. -/
theorem test_otpTrunc_unmasked :
    (after .otpTrunc { State.reset with cfg := { Config.standard with truncMask := false }, dout := mac1, doutValid := true }).pw.toList =
      ascii "770730" := by
  decide +kernel

/-- L2-T3. -/
theorem test_tcBcd : (after (.tcBcd ⟨0x30, 0x31, 0x23, 0x05, 0x13, 0x02, 0x09⟩) State.reset).tcount = 41152263 ∧
    (after (.tcBcd ⟨0x30, 0x31, 0x23, 0x05, 0x13, 0x02, 0x09⟩) State.reset).tbuf = #v[0, 0, 0, 0, 0x02, 0x73, 0xEF, 0x07] := by
  decide +kernel

/-- L2-T13 day 0, L2-T14 a nibble above 9. -/
theorem test_tcBcd_odd : (after (.tcBcd ⟨0x00, 0x00, 0x00, 0x01, 0x00, 0x01, 0x00⟩) State.reset).tcount = 31553280 ∧
    (after (.tcBcd ⟨0x5A, 0x00, 0x00, 0x01, 0x01, 0x01, 0x00⟩) State.reset).tcount = 31556162 := by
  decide +kernel

/-- L2-C4. -/
theorem test_tcMono : (after .tcMono (monoState [0x12, 0x34, 0x56, 0x78, 0, 0, 0, 7])).tcount = 7 ∧
    (after .tcMono (monoState [0x12, 0x34, 0x56, 0x78, 0, 0, 0, 7])).nv =
      [(65, 0x12), (66, 0x34), (67, 0x56), (68, 0x78), (69, 0), (70, 0), (71, 0), (72, 8)] := by
  decide +kernel

/-- L2-C3. -/
theorem test_tcMono_exhausted : (after .tcMono (monoState [])).fault = 0x3208 := by decide +kernel

/-- L2-K1: the generation with the length clamped to 64. -/
theorem test_ctlPoll_generate :
    let t := after (.ctlPoll 0x06) { monoState [0, 0, 0, 0, 0, 0, 0, 0] with cstate := .waiting }
    t.pw.toList = ascii "954550" ∧ t.status = 0xff00027a ∧ t.nv.drop 7 =
      [(72, 1), (73, 0x39), (74, 0x35), (75, 0x34), (76, 0x35), (77, 0x35), (78, 0x30)] := by
  decide +kernel

/-- L3-4: the first report types '2'. -/
theorem test_ctlPoll_keyDown : (after (.ctlPoll 0x07) typing).reports = [#v[0, 0, 0x1F, 0, 0, 0, 0, 0]] ∧
    (after (.ctlPoll 0x07) typing).status = 0xfe00137a := by
  decide +kernel

/-- L2-H1. -/
theorem test_hostProvision : (after (.hostProvision (List.replicate 64 0)) State.reset).status = 0x00010000 ∧
    (after (.hostProvision (List.replicate 64 0)) State.reset).nv.take 2 = [(0, 0x40), (1, 0)] := by
  decide +kernel

/-- L2-H2. -/
theorem test_hostProvision_long : (after (.hostProvision (List.replicate 65 0)) State.reset).status = 0x00020000 ∧
    (after (.hostProvision (List.replicate 65 0)) State.reset).nv = [] := by
  decide +kernel

/-- L3-5 frame 2. -/
theorem test_hostSetTime : (after (.hostSetTime ⟨0x30, 0x31, 0x23, 0x05, 0x13, 0x02, 0x09⟩) clockState).status = 0x00018000 := by decide

/-- L2-H4. -/
theorem test_hostSetTime_rejected : (after (.hostSetTime ⟨0, 0, 0, 1, 1, 1, 0⟩) State.reset).status = 0x00020000 := by decide

/-- L2-H6. -/
theorem test_hostSetCounter : (after (.hostSetCounter 5) (monoState [])).status = 0x00010000 ∧
    (after (.hostSetCounter 5) (monoState [])).nv =
      [(65, 0), (66, 0), (67, 0), (68, 0), (69, 0), (70, 0), (71, 0), (72, 5)] := by
  decide +kernel

/-- L2-H5. -/
theorem test_hostSetCounter_rejected : (after (.hostSetCounter 5) State.reset).status = 0x00020000 := by decide

/-- L2-K4: ENGINE_BUSY comes before KEY_TOO_LONG. -/
theorem test_busy_first : (after (.macInit (List.replicate 65 0)) typing).fault = 0x1109 := by decide +kernel

/-- L2-K5: an illegal opcode, through the stream. -/
theorem test_step_illegal :
    stepped { State.reset with stream := [0x04, 0x01] } = some { State.reset with stream := [0x01], fault := 0x0406 } := by
  decide +kernel

/-- A table word runs as the first instruction after reset (R132: the first poll with the link up moves to `Waiting`). -/
theorem test_withFetchWord : stepped (State.reset.withFetchWord 16 0x0741) = some { State.reset with cstate := .waiting } := by
  decide +kernel

/-- Power lost after 2 of the 4 counter bytes of `0x01030000`: those 2 stay (70_reset_and_hazards.md R165). -/
theorem test_powerLoss :
    stepped { monoState [0, 0, 0, 0, 0x01, 0x02, 0xFF, 0xFF] with stream := [0x32], power := some (.within 2 false) } =
      some (monoState [0, 0, 0, 0, 0x01, 0x03, 0xFF, 0xFF]) := by
  decide +kernel

/-! ## Witnesses: concrete states and operands that meet the hypotheses of each statement, its clauses at their boundary values -/

/-- A HashEngine that holds the longest message, 8191 bytes: `BITS = 0xFFF8`. -/
def full : State := { State.reset with hash := { hashReset with ofs := 63, bits := 0xFFF8 } }

/-- One byte below: the last byte still fits. -/
def almostFull : State := { State.reset with hash := { hashReset with ofs := 62, bits := 0xFFF0 } }

/-- In `Waiting`, ready for a press, with the monotonic counter and the given counter bytes. -/
def waiting (region : List Byte) : State := { monoState region with cstate := .waiting }

/-- A pending time-set request. -/
def pending : State := { clockState with cstate := .waiting, tset := ⟨0x30, 0x31, 0x23, 0x05, 0x13, 0x02, 0x09⟩, tsetPend := true }

theorem replicate_le {n k : Nat} (h : n ≤ k) : (List.replicate n (0 : Byte)).length ≤ k := by rw [List.length_replicate]; exact h
theorem lt_replicate {n k : Nat} (h : k < n) : k < (List.replicate n (0 : Byte)).length := by rw [List.length_replicate]; exact h

theorem ready_reset : engineReady State.reset := ⟨rfl, rfl⟩
theorem ready_full : engineReady full := ⟨rfl, rfl⟩
theorem ready_hashing (m : List Byte) : engineReady (hashing m) := ⟨rfl, rfl⟩
theorem ready_macing (k m : List Byte) : engineReady (macing k m) := ⟨rfl, rfl⟩

theorem inv_typing : Inv typing := by constructor <;> decide +kernel
theorem inv_full : Inv full := by constructor <;> decide +kernel
theorem inv_macing : Inv (macing [0x6B] []) := by constructor <;> decide +kernel
theorem inv_waiting : Inv (waiting []) := by constructor <;> decide +kernel
theorem inv_pending : Inv pending := by constructor <;> decide +kernel

theorem witness_DecodeOfEncodeIsTheInstruction : (Instr.shaUpdate (List.replicate 255 0)).wellFormed = true ∧
    (Instr.macInit []).wellFormed = true ∧ (Instr.hostSetCounter 0xFFFFFFFF).wellFormed = true := by
  decide +kernel

theorem witness_DecodedBytesAreTheEncoding : decode [0x41, 0xFF, 0x01] = .frame (.ctlPoll 0xFF) [0x01] ∧
    decode [0xFF] = .illegalOpcode 0xFF [] ∧ decode [0x41] = .incomplete := by
  decide +kernel

theorem witness_StreamSplitsUniquelyIntoFrames :
    (StreamFrame.illegal 0x00).wellFormed = true ∧ (StreamFrame.instr (.macFinal (List.replicate 255 1))).wellFormed = true ∧
    formatOf 0xFF = none ∧ formatOf 0x01 = some .n ∧ formatOf 0x41 = some .p ∧ formatOf 0x53 = some .b4 ∧
    formatOf 0x52 = some .b7 ∧ formatOf 0x51 = some .l ∧
    ([0x00, 0x41, 0x07, 0x02, 0x01] : List Byte) =
      [StreamFrame.illegal 0x00, .instr (.ctlPoll 0x07)].flatMap encodeFrame ++ [0x02, 0x01] ∧
    (∀ f ∈ [StreamFrame.illegal 0x00, .instr (.ctlPoll 0x07)], f.wellFormed = true) ∧ decode [0x02, 0x01] = .incomplete := by
  decide +kernel

theorem witness_IllegalOpcodeIsOneByteAndFaults :
    let s := { State.reset with stream := [0xFF, 0x01] }
    configLegal s.cfg = true ∧ s.power = none ∧ s.halted = false ∧ formatOf 0xFF = none ∧ s.stream = 0xFF :: [0x01] := by
  decide +kernel

theorem witness_StepRunsTheDecodedFrame :
    let s := { typing with stream := [0x41, 0x07, 0x41] }
    configLegal s.cfg = true ∧ s.power = none ∧ (Instr.ctlPoll 0x07).wellFormed = true ∧
      s.stream = encode (.ctlPoll 0x07) ++ [0x41] := by
  decide +kernel

theorem witness_IncompleteFrameHasNoStep :
    let f := StreamFrame.instr (.hostSetCounter 5)
    configLegal State.reset.cfg = true ∧ State.reset.power = none ∧ f.wellFormed = true ∧ 0 < (encodeFrame f).length ∧
      State.reset.stream = (encodeFrame f).take 0 ∧ 4 < (encodeFrame f).length ∧
      { State.reset with stream := [0x53, 0, 0, 0] }.stream = (encodeFrame f).take 4 := by
  decide +kernel

theorem witness_OnlyLegalConfigurationsStep :
    configLegal { Config.standard with nvSize := 79 } = true ∧ configLegal { Config.standard with nvSize := 78 } = false ∧
    configLegal { Config.standard with nvSize := 65536, holdArm := 1 } = true ∧
    configLegal { Config.standard with nvSize := 65537 } = false ∧ configLegal { Config.standard with holdArm := 0 } = false ∧
    configLegal { Config.standard with nvTimeOfs := 64 } = false ∧
    configLegal { Config.standard with timeSrc := .mono, hasSetTime := true } = false := by
  decide +kernel

theorem witness_LegalMachineNeverStops : Inv typing ∧ configLegal typing.cfg = true ∧ decode typing.stream = .incomplete :=
  ⟨inv_typing, by decide +kernel⟩

theorem witness_HaltedCoreDoesNothing :
    let s := { typing with fault := 0x2109, stream := [0x00] }
    s.fcode ≠ 0 ∧ configLegal s.cfg = true ∧ s.power = none ∧ (StreamFrame.illegal 0x00).wellFormed = true ∧
      s.stream = encodeFrame (.illegal 0x00) ++ [] := by
  decide +kernel

theorem witness_EngineFramesAreBusyDuringEmission : typing.halted = false ∧ typing.cstate = .sending ∧
    { typing with cstate := .releasing }.cstate = .releasing ∧ Instr.shaReset.opcode.toNat / 16 < 4 ∧
    Instr.tcMono.opcode.toNat / 16 < 4 ∧ exec .otpTrunc typing = .next (after .otpTrunc typing) ∧
    (after .otpTrunc typing).fcode = 0x09 :=
  ⟨rfl, rfl, rfl, by decide, by decide, exec_after (by decide +kernel), by decide +kernel⟩

theorem witness_FaultsArePrecise : exec .shaDigest State.reset = .next (after .shaDigest State.reset) ∧
    (after .shaDigest State.reset).fault ≠ State.reset.fault ∧
    runFrames [.shaReset] (after .shaDigest State.reset) = .next (after .shaReset (after .shaDigest State.reset)) ∧
    illegalFrame 0xFF State.reset = .next (takeFault .illegalOpcode 0xFF State.reset) ∧
    (takeFault .illegalOpcode 0xFF State.reset).fault ≠ State.reset.fault :=
  ⟨exec_after (by decide +kernel), by decide +kernel, runFrames_after (by decide +kernel), rfl, by decide +kernel⟩

/-- A state of the invariant for each of the eight faults of the opcode map's frames, and one for the frame without a fault. -/
theorem witness_FirstCheckThatAppliesDecides :
    (Inv typing ∧ Inv full ∧ Inv (macing [0x6B] []) ∧ Inv (waiting [])) ∧
    (∀ s ∈ [typing, full, macing [0x6B] [], waiting []], configLegal s.cfg = true ∧ s.fcode = 0) ∧ { typing with fault := 0x2109 }.fcode ≠ 0 ∧
    faultOf .shaDigest (waiting []) = some .hashNotActive ∧ faultOf (.shaUpdate [0]) full = some .lenOverflow ∧
    faultOf (.macInit (List.replicate 65 0)) full = some .keyTooLong ∧ faultOf (.macFinal []) full = some .macNotActive ∧
    faultOf .otpTrunc full = some .digestNotValid ∧ faultOf (.ctlPoll 0x08) typing = some .reservedBits ∧
    faultOf (.ctlPoll 0x06) (waiting []) = some .counterExhausted ∧ faultOf .tcMono typing = some .engineBusy ∧
    faultOf (.macUpdate [1]) (macing [0x6B] []) = none :=
  ⟨⟨inv_typing, inv_full, inv_macing, inv_waiting⟩, by decide +kernel⟩

theorem witness_ShaResetStartsAHash : engineReady State.reset ∧ engineReady full := ⟨ready_reset, ready_full⟩

theorem witness_ShaUpdateAbsorbsByteByByte : engineReady State.reset ∧ State.reset.hash.phase ≠ .active ∧
    engineReady full ∧ full.hash.phase = .active ∧ 0xFFFF < full.hash.bits.toNat + 8 * [(0 : Byte)].length ∧
    engineReady almostFull ∧ almostFull.hash.phase = .active ∧ almostFull.hash.bits.toNat + 8 ≤ 0xFFFF ∧
    { almostFull with hash := { hashReset with ofs := 63, bits := 0x01F8 } }.hash.ofs = 63 ∧
    (hashing []).hash.bits.toNat + 8 * ([(1 : Byte), 2].length + 1) ≤ 0xFFFF :=
  ⟨ready_reset, by decide, ready_full, rfl, by decide, ⟨rfl, rfl⟩, rfl, by decide, rfl, by decide⟩

theorem witness_SplitOfAMessageDoesNotMatter : engineReady (hashing []) ∧ (hashing []).hash.phase = .active ∧
    ([[1], [2, 3]] : List (List Byte)).flatten = [[1, 2, 3], []].flatten ∧
    (hashing []).hash.bits.toNat + 8 * ([[1], [2, 3]] : List (List Byte)).flatten.length ≤ 0xFFFF :=
  ⟨ready_hashing _, rfl, rfl, by decide⟩

/-- The limit of 8191 bytes, and one byte past it. -/
theorem witness_UpdatesExtendTheHeldMessage : ∀ n, n = 8191 →
    engineReady (hashing (List.replicate n 0)) ∧ (hashing (List.replicate n 0)).hash = hashHolding (List.replicate n 0) ∧
      (List.replicate n (0 : Byte)).length ≤ 8191 ∧ (List.replicate n (0 : Byte)).length + ([] : List Byte).length ≤ 8191 ∧
      8191 < (List.replicate n (0 : Byte)).length + [(0 : Byte)].length ∧
      { hashing (List.replicate n 0) with mphase := .inner }.mphase = .inner := by
  intro n hn
  refine ⟨ready_hashing _, rfl, ?_, ?_, ?_, rfl⟩ <;> simp only [List.length_replicate, List.length_nil, List.length_singleton] <;> omega

theorem witness_ShaDigestPadsAndWritesTheDigest : engineReady State.reset ∧ State.reset.hash.phase ≠ .active ∧
    engineReady (hashing (List.replicate 55 0)) ∧ (hashing (List.replicate 55 0)).hash.phase = .active ∧
    (hashing (List.replicate 55 0)).hash.ofs.toNat = 55 ∧ (hashing (List.replicate 56 0)).hash.ofs.toNat = 56 :=
  ⟨ready_reset, by decide, ready_hashing _, rfl, by decide, by decide⟩

theorem witness_Sha1OfEveryMessage : engineReady State.reset ∧ (List.replicate 8191 (0 : Byte)).length ≤ 8191 ∧
    8191 < (List.replicate 8192 (0 : Byte)).length :=
  ⟨ready_reset, replicate_le (by decide), lt_replicate (by decide)⟩

theorem witness_HashIsDeterministicFromReset : engineReady State.reset ∧ engineReady full := ⟨ready_reset, ready_full⟩

theorem witness_MacInitAbsorbsTheKeyBlock : engineReady State.reset ∧ (List.replicate 64 (0 : Byte)).length ≤ 64 ∧
    64 < (List.replicate 65 (0 : Byte)).length :=
  ⟨ready_reset, by decide, by decide⟩

theorem witness_MacUpdateFeedsTheHash : engineReady State.reset ∧ State.reset.mphase ≠ .inner ∧
    engineReady (macing [] []) ∧ (macing [] []).mphase = .inner ∧ (macing [] []).hash.phase = .active ∧
    (macing [] []).hash.bits.toNat + 8 * (List.replicate 255 (0 : Byte)).length ≤ 0xFFFF ∧
    engineReady { full with mphase := .inner } ∧ { full with mphase := .inner }.hash.phase = .active ∧
    0xFFFF < { full with mphase := .inner }.hash.bits.toNat + 8 * [(0 : Byte)].length :=
  ⟨ready_reset, by decide, ready_macing _ _, rfl, rfl, by decide +kernel, ⟨rfl, rfl⟩, rfl, by decide⟩

theorem witness_MacFinalRunsTheOuterHash : engineReady State.reset ∧ 64 < (List.replicate 65 (0 : Byte)).length ∧
    (List.replicate 64 (0 : Byte)).length ≤ 64 ∧ State.reset.mphase ≠ .inner ∧ engineReady (macing [] []) ∧
    (macing [] []).mphase = .inner ∧ (macing [] []).hash.phase = .active :=
  ⟨ready_reset, by decide, by decide, by decide, ready_macing _ _, rfl, rfl⟩

theorem witness_MacOfTwoKeys : engineReady State.reset ∧ (List.replicate 64 (0 : Byte)).length ≤ 64 ∧ ([] : List Byte).length ≤ 64 ∧
    ([(true, List.replicate 8127 0), (false, [])].map Prod.snd : List (List Byte)).flatten.length ≤ 8127 := by
  refine ⟨ready_reset, by decide, by decide, ?_⟩
  simp only [List.map_cons, List.map_nil, List.flatten_cons, List.flatten_nil, List.append_nil]
  exact replicate_le (by decide)

theorem witness_HmacOfEveryKeyAndMessage : engineReady State.reset ∧ (List.replicate 64 (0 : Byte)).length ≤ 64 ∧
    (List.replicate 8127 (0 : Byte)).length ≤ 8127 :=
  ⟨ready_reset, by decide, replicate_le (by decide)⟩

theorem witness_OnlyMacInitStartsAMac : configLegal State.reset.cfg = true ∧ State.reset.mphase ≠ .inner ∧
    (∀ key, Instr.macInit key ∉ [Instr.shaReset]) ∧
    runFrames [.shaReset] State.reset = .next (after .shaReset State.reset) ∧ engineReady (after .shaReset State.reset) ∧
    seed.length ≤ 64 :=
  ⟨by decide +kernel, by decide, by simp, runFrames_after (by decide +kernel), ⟨by decide +kernel, by decide +kernel⟩,
    by decide +kernel⟩

theorem witness_OtpTruncRendersThePassword : engineReady State.reset ∧ State.reset.doutValid = false ∧
    engineReady { State.reset with dout := mac1, doutValid := true } ∧
    { State.reset with dout := mac1, doutValid := true }.doutValid = true :=
  ⟨ready_reset, rfl, ⟨rfl, rfl⟩, rfl⟩

theorem witness_TruncMaskClearsOneBit : engineReady { State.reset with dout := mac1, doutValid := true } ∧
    { State.reset with dout := mac1, doutValid := true }.doutValid = true ∧
    0x80 ≤ mac1.toList.getD (mac1[19].toNat % 16) 0 :=
  ⟨⟨rfl, rfl⟩, rfl, by decide +kernel⟩

theorem witness_HotpOfEveryKeyAndCounter : engineReady State.reset ∧ (List.replicate 64 (0 : Byte)).length ≤ 64 :=
  ⟨ready_reset, by decide⟩

theorem witness_TcBcdDecodesTheClock : engineReady State.reset ∧ bcd 0x01 = 1 ∧ bcd 0x12 = 12 ∧ bcd 0x13 = 13 ∧ bcd 0x00 = 0 :=
  ⟨ready_reset, by decide⟩

theorem witness_TcBcdIsUnixTimeOverThirty : engineReady State.reset ∧ 31 ≤ Reference.daysInMonth (2000 + 99) 12 ∧
    29 ≤ Reference.daysInMonth (2000 + 0) 2 ∧ 28 ≤ Reference.daysInMonth (2000 + 1) 2 ∧ ¬ 29 ≤ Reference.daysInMonth (2000 + 1) 2 :=
  ⟨ready_reset, by decide⟩

theorem witness_TcMonoUsesAndAdvancesTheCounter :
    (∀ s ∈ [monoState [], monoState [0, 0, 0, 0, 0xFF, 0xFF, 0xFF, 0xFE], State.reset],
      configLegal s.cfg = true ∧ Memory.wf s.nv = true ∧ s.halted = false ∧ s.emitting = false) ∧
    storedCounter (monoState []).cfg (monoState []).nv = 2 ^ 32 - 1 ∧
    storedCounter (monoState [0, 0, 0, 0, 0xFF, 0xFF, 0xFF, 0xFE]).cfg (monoState [0, 0, 0, 0, 0xFF, 0xFF, 0xFF, 0xFE]).nv ≠
      2 ^ 32 - 1 := by
  decide +kernel

theorem witness_MonotonicCounterNeverDecreases :
    let s := monoState [0, 0, 0, 0, 0, 0, 0, 1]
    configLegal s.cfg = true ∧ Memory.wf s.nv = true ∧ (∀ v, Instr.tcMono ≠ .hostSetCounter v) ∧
      exec .tcMono s = .next (after .tcMono s) ∧ (∀ v, Instr.hostSetCounter v ∉ [Instr.tcMono]) ∧
      runFrames [.tcMono] s = .next (after .tcMono s) :=
  ⟨by decide +kernel, by decide +kernel, by simp, exec_after (by decide +kernel), by simp,
    runFrames_after (by decide +kernel)⟩

theorem witness_CounterCountsGenerations :
    let s := waiting [0, 0, 0, 0, 0, 0, 0, 1]
    configLegal s.cfg = true ∧ Memory.wf s.nv = true ∧ s.cfg.timeSrc = .mono ∧
      (∀ v, Instr.hostSetCounter v ∉ [Instr.ctlPoll 0x07]) ∧ Instr.tcMono ∉ [Instr.ctlPoll 0x07] ∧
      runFrames [.ctlPoll 0x07] s = .next (after (.ctlPoll 0x07) s) ∧
      generates (.ctlPoll 0x06) (after (.ctlPoll 0x07) s) = true :=
  ⟨by decide +kernel, by decide +kernel, rfl, by simp, by simp, runFrames_after (by decide +kernel), by decide +kernel⟩

/-- One state for each row of the transition table. -/
theorem witness_PollTransitions :
    (∀ s ∈ [State.reset, waiting [], pending, { pending with cstate := .settingTime }, typing, { typing with cstate := .releasing }],
      s.halted = false ∧ configLegal s.cfg = true) ∧
    State.reset.cstate = .idle ∧ (0x07 : Byte).getLsbD 2 = true ∧ (0x03 : Byte).getLsbD 2 = false ∧
    pending.cstate = .waiting ∧ pending.tsetPend = true ∧
    (waiting []).tsetPend = false ∧ (0x06 : Byte).getLsbD 0 = false ∧ (waiting []).hold = 0 ∧ (0x07 : Byte).getLsbD 0 = true ∧
    { waiting [] with hold := 1 }.hold ≠ 0 ∧
    typing.cstate = .sending ∧ (0x02 : Byte).getLsbD 1 = true ∧ (0x05 : Byte).getLsbD 1 = false ∧ typing.idx.toNat < 6 ∧
    0x30 ≤ typing.pw[0] ∧ typing.pw[0] ≤ 0x39 ∧
    { typing with cstate := .releasing, idx := 5 }.idx.toNat < 6 ∧ { typing with cstate := .releasing, idx := 6 }.idx.toNat = 6 := by
  decide +kernel

theorem witness_HoldCountsPollsOnly : configLegal typing.cfg = true ∧ typing.halted = false ∧
    exec (.ctlPoll 0x05) typing = .next (after (.ctlPoll 0x05) typing) ∧ (after (.ctlPoll 0x05) typing).fault = typing.fault ∧
    exec .shaReset State.reset = .next (after .shaReset State.reset) ∧ (∀ b, Instr.shaReset ≠ .ctlPoll b) :=
  ⟨by decide +kernel, rfl, exec_after (by decide +kernel), by decide +kernel, exec_after (by decide +kernel), by simp⟩

theorem witness_ReservedBitsFault : State.reset.halted = false ∧ (0x08 : Byte).extractLsb' 3 5 ≠ 0 ∧
    (0xFF : Byte).extractLsb' 3 5 ≠ 0 ∧ exec (.ctlPoll 0x08) typing = .next (after (.ctlPoll 0x08) typing) ∧
    (after (.ctlPoll 0x08) typing).fcode = 0x07 :=
  ⟨rfl, by decide, by decide, exec_after (by decide +kernel), by decide +kernel⟩

theorem witness_GenerationFromTheClock :
    let s := { clockState with cstate := .waiting, clockAnswers := [⟨0x30, 0x31, 0x23, 0x05, 0x13, 0x02, 0x09⟩] }
    s.halted = false ∧ configLegal s.cfg = true ∧ Memory.wf s.nv = true ∧ (0x06 : Byte).toNat < 8 ∧ triggers 0x06 s = true ∧
      s.cfg.timeSrc = .ext := by
  decide +kernel

theorem witness_GenerationFromTheCounter :
    (∀ s ∈ [waiting [], waiting [0, 0, 0, 0, 0xFF, 0xFF, 0xFF, 0xFE]], s.halted = false ∧ configLegal s.cfg = true ∧
      Memory.wf s.nv = true ∧ triggers 0x06 s = true ∧ s.cfg.timeSrc = .mono) ∧
    storedCounter (waiting []).cfg (waiting []).nv = 2 ^ 32 - 1 ∧
    storedCounter Config.standard (waiting [0, 0, 0, 0, 0xFF, 0xFF, 0xFF, 0xFE]).nv ≠ 2 ^ 32 - 1 := by
  decide +kernel

theorem witness_CounterIsPersistedBeforeThePassword :
    let s := waiting [0, 0, 0, 0, 0, 0, 0, 1]
    configLegal s.cfg = true ∧ triggers 0x06 s = true ∧ s.cfg.timeSrc = .mono ∧ s.halted = false ∧
      exec (.ctlPoll 0x06) s = .next (after (.ctlPoll 0x06) s) ∧ (after (.ctlPoll 0x06) s).fault = s.fault ∧
      exec (.ctlPoll 0x07) typing = .next (after (.ctlPoll 0x07) typing) ∧ (after (.ctlPoll 0x07) typing).reports ≠ typing.reports :=
  ⟨by decide +kernel, by decide +kernel, rfl, rfl, exec_after (by decide +kernel), by decide +kernel,
    exec_after (by decide +kernel), by decide +kernel⟩

theorem witness_NoGenerationWhileHeldOrEmitting : configLegal typing.cfg = true ∧ typing.cstate ≠ .waiting ∧
    exec (.ctlPoll 0x06) typing = .next (after (.ctlPoll 0x06) typing) ∧ { waiting [] with hold := 1 }.hold ≠ 0 ∧
    exec (.ctlPoll 0x06) { waiting [] with hold := 1 } = .next (after (.ctlPoll 0x06) { waiting [] with hold := 1 }) :=
  ⟨by decide +kernel, by decide, exec_after (by decide +kernel), by decide, exec_after (by decide +kernel)⟩

/-- Eleven polls with a slot, one without, and a host frame. -/
theorem witness_EmissionCycleIsTwelveReports :
    let is := List.replicate 11 (Instr.ctlPoll 0x07) ++ [.ctlPoll 0x05, .hostProvision [0x61]]
    configLegal typing.cfg = true ∧ typing.halted = false ∧ typing.cstate = .sending ∧ typing.idx = 0 ∧
      (∀ i : Fin 6, 0x30 ≤ typing.pw[i] ∧ typing.pw[i] ≤ 0x39) ∧ (∀ i ∈ is, cycleFrame i = true) ∧
      (is.filter slotPoll).length = 11 ∧ (0x02 : Byte).toNat < 8 ∧ (0x02 : Byte).getLsbD 1 = true := by
  decide +kernel

theorem witness_HeldButtonRetriggers :
    let s := waiting [0, 0, 0, 0, 0, 0, 0, 1]
    configLegal s.cfg = true ∧ s.halted = false ∧ s.cstate = .waiting ∧ s.tsetPend = false ∧ s.hold = 0 ∧
      storedCounter s.cfg s.nv ≠ 2 ^ 32 - 1 ∧ 256 ≤ max (s.cfg.holdArm.toNat + 1) 13 ∧
      configLegal { s.cfg with holdArm := 1 } = true := by
  decide +kernel

theorem witness_HostProvisionWritesTheSecret : State.reset.halted = false ∧ configLegal State.reset.cfg = true ∧
    Memory.wf State.reset.nv = true ∧ ¬ 1 ≤ ([] : List Byte).length ∧ ¬ (List.replicate 65 (0 : Byte)).length ≤ 64 ∧
    1 ≤ (List.replicate 64 (0 : Byte)).length ∧ (List.replicate 64 (0 : Byte)).length ≤ 64 := by
  decide +kernel

theorem witness_HostSetTimeRequestsTheClock : clockState.halted = false ∧ clockState.cfg.hasSetTime = true ∧
    State.reset.halted = false ∧ State.reset.cfg.hasSetTime = false := by
  decide

theorem witness_HostSetCounterWritesTheCounter :
    (∀ s ∈ [State.reset, monoState []], s.halted = false ∧ configLegal s.cfg = true ∧ Memory.wf s.nv = true) ∧
    State.reset.cfg.timeSrc = .ext ∧ (monoState []).cfg.timeSrc = .mono := by
  decide +kernel

theorem witness_RegistersChangeOnlyByTheirFrames : configLegal typing.cfg = true ∧
    exec (.ctlPoll 0x07) typing = .next (after (.ctlPoll 0x07) typing) ∧ (after (.ctlPoll 0x07) typing).cstate ≠ typing.cstate :=
  ⟨by decide +kernel, exec_after (by decide +kernel), by decide +kernel⟩

/-- `TSET_PEND` is set by a HOST_SET_TIME, and cleared by a poll in `SettingTime`. -/
theorem witness_RegistersChangeOnlyByTheirFrames_tsetPend :
    let setting := { pending with cstate := .settingTime }
    let b : ClockBytes := ⟨0x30, 0x31, 0x23, 0x05, 0x13, 0x02, 0x09⟩
    configLegal clockState.cfg = true ∧ configLegal setting.cfg = true ∧
      exec (.hostSetTime b) clockState = .next (after (.hostSetTime b) clockState) ∧ clockState.tsetPend = false ∧
      (after (.hostSetTime b) clockState).tsetPend = true ∧
      exec (.ctlPoll 0x07) setting = .next (after (.ctlPoll 0x07) setting) ∧ setting.tsetPend = true ∧
      (after (.ctlPoll 0x07) setting).tsetPend = false :=
  ⟨by decide +kernel, by decide +kernel, exec_after (by decide +kernel), rfl, by decide +kernel, exec_after (by decide +kernel), rfl,
    by decide +kernel⟩

theorem witness_StoreOutsideTheRegionsDoesNotMatter :
    configLegal (monoState []).cfg = true ∧ Memory.wf (monoState []).nv = true ∧ ¬ inRegion (monoState []).cfg 79 ∧
      exec (.hostSetCounter 5) (monoState []) = .next (after (.hostSetCounter 5) (monoState [])) :=
  ⟨by decide +kernel, by decide +kernel, by unfold inRegion; decide +kernel, exec_after (by decide +kernel)⟩

theorem witness_NvReadReturnsTheMostRecentWrite : Memory.wf typing.nv = true ∧ 127 + [(7 : Byte)].length ≤ typing.cfg.nvSize := by
  decide +kernel

theorem witness_PowerOnResetClearsTheCore : configLegal typing.cfg = true ∧
    { typing with power := some .between }.power = some .between := by
  decide +kernel

theorem witness_PowerLossKeepsAPrefix :
    let s := { monoState [0, 0, 0, 0, 0, 0, 0, 1] with stream := [0x32], power := some (.within 2 true) }
    configLegal s.cfg = true ∧ Memory.wf s.nv = true ∧ s.power = some (.within 2 true) ∧ Instr.tcMono.wellFormed = true ∧
      s.stream = encode .tcMono ++ [] ∧
      exec .tcMono { s with stream := [], storeLog := [] } = .next (after .tcMono { s with stream := [], storeLog := [] }) ∧
      (after .tcMono { s with stream := [], storeLog := [] }).storeLog[2]? = some (71, 0) :=
  ⟨by decide +kernel, by decide +kernel, rfl, rfl, rfl, exec_after (by decide +kernel), by decide +kernel⟩

theorem witness_PowerLossInAMonoGeneration :
    let s := { waiting [0, 0, 0, 0, 0, 0, 0, 1] with stream := [0x41, 0x06], power := some (.within 4 false) }
    configLegal s.cfg = true ∧ Memory.wf s.nv = true ∧ s.halted = false ∧ (0x06 : Byte).toNat < 8 ∧ triggers 0x06 s = true ∧
      s.cfg.timeSrc = .mono ∧ storedCounter s.cfg s.nv ≠ 2 ^ 32 - 1 ∧ s.power = some (.within 4 false) ∧
      s.stream = encode (.ctlPoll 0x06) ++ [] := by
  decide +kernel

/-- After that loss the store holds 2, and the poll with the link up and the next press generate. -/
theorem witness_PowerLossInAMonoGeneration_next :
    let u := monoState [0, 0, 0, 0, 0, 0, 0, 2]
    stepped { waiting [0, 0, 0, 0, 0, 0, 0, 1] with stream := [0x41, 0x06], power := some (.within 4 false) } = some u ∧
      (∀ v, Instr.hostSetCounter v ∉ [Instr.ctlPoll 0x07]) ∧ Instr.tcMono ∉ [Instr.ctlPoll 0x07] ∧
      runFrames [.ctlPoll 0x07] u = .next (after (.ctlPoll 0x07) u) ∧
      generates (.ctlPoll 0x06) (after (.ctlPoll 0x07) u) = true :=
  ⟨by decide +kernel, by simp, by simp, runFrames_after (by decide +kernel), by decide +kernel⟩

theorem witness_ResetMeetsTheInvariant :
    Memory.wf [(0, 0x14), (127, 0)] = true ∧ Memory.inside Config.standard.nvSize [(0, 0x14), (127, 0)] = true := by
  decide

theorem witness_EveryStepKeepsTheInvariant : Inv { typing with stream := [0x41, 0x07] } ∧
    (∃ t, step { typing with stream := [0x41, 0x07] } = .next t) :=
  ⟨by constructor <;> decide +kernel, by
    have h : (stepped { typing with stream := [0x41, 0x07] }).isSome = true := by decide +kernel
    unfold stepped at h
    split at h
    · next t ht => exact ⟨t, ht⟩
    · cases h
    · cases h⟩

theorem witness_NoFrameReadsAValuelessRegister : Inv typing ∧ configLegal typing.cfg = true ∧ Inv pending ∧
    configLegal pending.cfg = true :=
  ⟨inv_typing, by decide +kernel, inv_pending, by decide +kernel⟩

end Sys2Proof.Tests
end

section
/-! The registers `STATUS` and `CONFIG` field by field (10_state.md R37, R38). Both are views packed by `++`, so a field is read
by dropping the parts below it and cutting off the parts above it. -/

namespace Sys2Proof.Machine

/-- R37: every field of `STATUS` shows its register, its reserved bits reading 0. `STATUS[7]` is the
halted flag, which is `FCODE != 0`. -/
theorem status_fields (s : State) :
    s.status.extractLsb' 0 2 = s.hash.phase.bits ∧ s.status.extractLsb' 2 2 = s.mphase.bits ∧
    s.status.getLsbD 4 = s.doutValid ∧ s.status.getLsbD 5 = s.pwValid ∧ s.status.getLsbD 6 = s.tbufValid ∧
    s.status.getLsbD 7 = s.halted ∧ s.status.extractLsb' 8 3 = s.cstate.bits ∧ s.status.getLsbD 11 = false ∧
    s.status.extractLsb' 12 3 = s.idx ∧ s.status.getLsbD 15 = s.tsetPend ∧ s.status.extractLsb' 16 2 = s.hostResult.bits ∧
    s.status.extractLsb' 18 6 = 0 ∧ s.status.extractLsb' 24 8 = s.hold := by
  simp (disch := decide) only [State.status, BitVec.extractLsb'_append_eq_of_le, BitVec.extractLsb'_append_eq_of_add_le,
    BitVec.getLsbD_append, Nat.reduceSub, Nat.reduceLT, ↓reduceIte]
  -- what is left is each part alone, read from its own bit 0
  simp

theorem timeSrcBit_getLsbD_zero_iff (src : TimeSrc) : (timeSrcBit src).getLsbD 0 = true ↔ src = .mono := by
  cases src with
  | ext => decide
  | mono => decide

/-- R38: `CONFIG` shows the configuration, its reserved bits reading 0. -/
theorem configReg_fields (s : State) :
    (s.configReg.getLsbD 0 = true ↔ s.cfg.timeSrc = .mono) ∧ s.configReg.getLsbD 1 = s.cfg.truncMask ∧
    s.configReg.getLsbD 2 = s.cfg.hasSetTime ∧ s.configReg.extractLsb' 3 5 = 0 ∧
    s.configReg.extractLsb' 8 8 = s.cfg.holdArm ∧ s.configReg.extractLsb' 16 16 = 0 := by
  simp (disch := decide) only [State.configReg, BitVec.extractLsb'_append_eq_of_le, BitVec.extractLsb'_append_eq_of_add_le,
    BitVec.getLsbD_append, Nat.reduceSub, Nat.reduceLT, ↓reduceIte, timeSrcBit_getLsbD_zero_iff]
  simp

/-- `CONFIG` is a view of the configuration alone. -/
theorem configReg_congr {s t : State} (h : t.cfg = s.cfg) : t.configReg = s.configReg := by
  simp only [State.configReg, h]

theorem exec_configReg {i : Instr} {s t : State} (h : exec i s = .next t) : t.configReg = s.configReg :=
  configReg_congr (exec_keeps h).cfg

end Sys2Proof.Machine

namespace Sys2Proof

open Machine

/-- Settles O50: the two views field by field, and the configuration that every frame keeps; the phase and result codes are those
of R23, R24, R31 and R35 by definition. -/
theorem statusAndConfigFields : Obligations.StatusAndConfigFields := by
  unfold Obligations.StatusAndConfigFields
  refine ⟨fun s => ?_, fun i s t h => exec_configReg h, rfl, rfl, rfl, rfl, rfl, rfl, rfl, rfl, rfl, rfl, rfl, rfl, rfl, rfl⟩
  simpa only [and_assoc, State.halted] using And.intro (status_fields s) (configReg_fields s)

end Sys2Proof
end

section
/-! Which configurations the machine refuses (00_scope.md R8, 20_memory.md R48, R49). The model compares interval ends; the
regions of R48, as a list of offsets and sizes, lie inside the store and share no address. -/

namespace Sys2Proof.Machine

/-- Nonempty intervals are disjoint exactly when they share no address: of two that overlap, the higher start lies in both. -/
theorem disjoint_iff {a n b k : Nat} (hn : 0 < n) (hk : 0 < k) :
    disjoint a n b k = true ↔ ∀ x, ¬ (a ≤ x ∧ x < a + n ∧ b ≤ x ∧ x < b + k) := by
  simp only [disjoint, Bool.or_eq_true, decide_eq_true_eq]
  constructor
  · intro h x
    omega
  · intro h
    have shared := h (max a b)
    omega

/-- The regions of the store, each its offset and its size (R48). -/
def storeRegions (c : Config) : List (Nat × Nat) :=
  [(c.nvLenOfs, 1), (c.nvSecretOfs, 64), (c.nvTimeOfs, 8), (c.nvPwOfs, 6)]

/-- R49 as the spec says it: every region inside the store, no two with a common address. -/
theorem layoutLegal_iff (c : Config) :
    layoutLegal c = true ↔
      (∀ r ∈ storeRegions c, r.1 + r.2 ≤ c.nvSize) ∧
      (storeRegions c).Pairwise fun r q => ∀ a, ¬ (r.1 ≤ a ∧ a < r.1 + r.2 ∧ q.1 ≤ a ∧ a < q.1 + q.2) := by
  simp only [layoutLegal, Bool.and_eq_true, decide_eq_true_eq, disjoint_iff, Nat.zero_lt_succ, storeRegions,
    List.forall_mem_cons, List.pairwise_cons, List.not_mem_nil, false_implies, implies_true, List.Pairwise.nil, and_true, and_assoc]

/-- `HAS_SET_TIME` is 0 under `MONO` (R8). -/
theorem setTime_legal_iff (c : Config) :
    (!c.hasSetTime || c.timeSrc == .ext) = true ↔ (c.timeSrc = .mono → c.hasSetTime = false) := by
  cases hsrc : c.timeSrc with
  | ext => simp
  | mono => simp

theorem holdArm_legal_iff (c : Config) : (c.holdArm != 0) = true ↔ 1 ≤ c.holdArm.toNat := by
  rw [bne_iff_ne, BitVec.toNat_ne]
  exact Nat.one_le_iff_ne_zero.symm

/-- The legal configurations, with R49 over the list of regions. -/
theorem configLegal_iff (c : Config) :
    configLegal c = true ↔
      1 ≤ c.holdArm.toNat ∧ (c.timeSrc = .mono → c.hasSetTime = false) ∧ 79 ≤ c.nvSize ∧ c.nvSize ≤ 65536 ∧
      (∀ r ∈ storeRegions c, r.1 + r.2 ≤ c.nvSize) ∧
      (storeRegions c).Pairwise fun r q => ∀ a, ¬ (r.1 ≤ a ∧ a < r.1 + r.2 ∧ q.1 ≤ a ∧ a < q.1 + q.2) := by
  simp only [configLegal, Bool.and_eq_true, decide_eq_true_eq, holdArm_legal_iff, setTime_legal_iff, layoutLegal_iff, and_assoc]

/-- A power loss is never refused: with no complete frame it is a loss between frames (R165). -/
theorem powerLossStep_not_refused {loss : PowerLoss} {s : State} {r : Refusal} : powerLossStep loss s ≠ .refused r := by
  cases loss with
  | between => simp [powerLossStep]
  | within done torn =>
    unfold powerLossStep
    cases frameStep s with
    | next t => simp
    | fault f => simp
    | refused r' => simp

/-- In a legal configuration only an incomplete frame is refused (R76), so the refusal of R8 says that the configuration is not
legal. -/
theorem step_illegalConfiguration_iff (s : State) : step s = .refused .illegalConfiguration ↔ ¬ configLegal s.cfg = true := by
  constructor
  · intro h hl
    rw [step, if_pos hl] at h
    cases hp : s.power with
    | none =>
      rw [hp] at h
      cases frameStep_refused h
    | some loss =>
      rw [hp] at h
      exact powerLossStep_not_refused h
  · intro hl
    rw [step, if_neg hl]

end Sys2Proof.Machine

namespace Sys2Proof

open Machine

/-- Settles O9: the refusal is the failure of `configLegal`, which `configLegal_iff` spells out. -/
theorem onlyLegalConfigurationsStep : Obligations.OnlyLegalConfigurationsStep := by
  unfold Obligations.OnlyLegalConfigurationsStep
  intro s
  exact (step_illegalConfiguration_iff s).trans (not_congr (configLegal_iff s.cfg))

end Sys2Proof
end

section
/-! The decoder and the frames of the stream (30_encoding.md R66 to R76). A byte sequence either has no complete frame at its head
or begins with the encoding of a frame, which the decoder then answers: two frames that begin the same bytes are one frame. The
split of R75 and the incomplete frame of R76 follow from that. -/

namespace Sys2Proof

open Machine

/-! ## The frame at the head of a byte sequence -/

/-- What the decoder answers for a frame of the stream with `rest` after it. -/
def StreamFrame.decoded : StreamFrame → List Byte → Decoded
  | .instr i, rest => .frame i rest
  | .illegal opc, rest => .illegalOpcode opc rest

theorem StreamFrame.decoded_inj {f g : StreamFrame} {rest rest' : List Byte} (h : f.decoded rest = g.decoded rest') :
    f = g ∧ rest = rest' := by
  cases f with
  | instr i =>
    cases g with
    | instr j =>
      cases h
      exact ⟨rfl, rfl⟩
    | illegal opc => cases h
  | illegal opc =>
    cases g with
    | instr j => cases h
    | illegal opc' =>
      cases h
      exact ⟨rfl, rfl⟩

theorem StreamFrame.illegal_wellFormed_iff {opc : Byte} : (StreamFrame.illegal opc).wellFormed = true ↔ formatOf opc = none :=
  beq_iff_eq

theorem encodeFrame_length_pos (f : StreamFrame) : 0 < (encodeFrame f).length := by
  cases f with
  | instr i => exact Nat.succ_pos _
  | illegal opc => exact Nat.succ_pos _

/-- The decoder reads a well-formed instruction back, whatever follows it. -/
theorem decode_encode_append {i : Instr} (rest : List Byte) (h : i.wellFormed = true) : decode (encode i ++ rest) = .frame i rest := by
  cases i with
  | shaReset => rfl
  | shaUpdate data => exact decodeData_encodeData .shaUpdate rest h
  | shaDigest => rfl
  | macInit key => exact decodeData_encodeData .macInit rest h
  | macUpdate data => exact decodeData_encodeData .macUpdate rest h
  | macFinal key => exact decodeData_encodeData .macFinal rest h
  | otpTrunc => rfl
  | tcBcd b => rfl
  | tcMono => rfl
  | ctlPoll inByte => rfl
  | hostProvision secret => exact decodeData_encodeData .hostProvision rest h
  | hostSetTime b => rfl
  | hostSetCounter cval => exact decodeWord_be32 .hostSetCounter cval rest

/-- The same for every frame of the stream, the one of an illegal opcode included. -/
theorem decode_encodeFrame_append {f : StreamFrame} (rest : List Byte) (h : f.wellFormed = true) :
    decode (encodeFrame f ++ rest) = f.decoded rest := by
  cases f with
  | instr i => exact decode_encode_append rest h
  | illegal opc => exact decode_of_illegal rest (StreamFrame.illegal_wellFormed_iff.1 h)

/-- Frames that begin the same bytes are the same, and so is what follows them. -/
theorem encodeFrame_append_inj {f g : StreamFrame} {rest rest' : List Byte} (hf : f.wellFormed = true) (hg : g.wellFormed = true)
    (h : encodeFrame f ++ rest = encodeFrame g ++ rest') : f = g ∧ rest = rest' :=
  StreamFrame.decoded_inj (by rw [← decode_encodeFrame_append rest hf, h, decode_encodeFrame_append rest' hg])

/-- `bs` begins with the encoding of a well-formed frame. -/
def FrameAtHead (bs : List Byte) : Prop := ∃ f rest, f.wellFormed = true ∧ bs = encodeFrame f ++ rest

/-- An operand decoder that answers only frames of its opcode, and their encodings, finds a frame at the head or none in full. -/
theorem incomplete_or_frameAtHead {d : Decoded} {bs : List Byte}
    (hframe : ∀ {i rest}, d = .frame i rest → i.wellFormed = true ∧ bs = encode i ++ rest)
    (hlegal : ∀ {opc rest}, d ≠ .illegalOpcode opc rest) : d = .incomplete ∨ FrameAtHead bs := by
  cases d with
  | frame i rest =>
    obtain ⟨hwf, hbs⟩ := hframe rfl
    exact .inr ⟨.instr i, rest, hwf, hbs⟩
  | illegalOpcode opc rest => exact absurd rfl hlegal
  | incomplete => exact .inl rfl

/-- Format L: `mk` builds the frames of `opc`. -/
theorem decodeData_incomplete_or_frameAtHead {mk : List Byte → Instr} {opc : Byte} (bs : List Byte)
    (hwf : ∀ data, (mk data).wellFormed = dataFits data) (henc : ∀ data, encode (mk data) = opc :: encodeData data) :
    decodeData mk bs = .incomplete ∨ FrameAtHead (opc :: bs) := by
  refine incomplete_or_frameAtHead (fun h => ?_) decodeData_not_illegal
  obtain ⟨data, rfl, hfits, rfl⟩ := decodeData_frame h
  exact ⟨(hwf data).trans hfits, by rw [henc, List.cons_append]⟩

/-- Format B7. -/
theorem decodeClock_incomplete_or_frameAtHead {mk : ClockBytes → Instr} {opc : Byte} (bs : List Byte)
    (hwf : ∀ b, (mk b).wellFormed = true) (henc : ∀ b, encode (mk b) = opc :: encodeClock b) :
    decodeClock mk bs = .incomplete ∨ FrameAtHead (opc :: bs) := by
  refine incomplete_or_frameAtHead (fun h => ?_) decodeClock_not_illegal
  obtain ⟨b, rfl, rfl⟩ := decodeClock_frame h
  exact ⟨hwf b, by rw [henc, List.cons_append]⟩

/-- The decoder answers `incomplete`, or a frame stands at the head: an illegal opcode byte, or one of the 13 by its format. -/
theorem decode_incomplete_or_frameAtHead (bs : List Byte) : decode bs = .incomplete ∨ FrameAtHead bs := by
  cases bs with
  | nil => exact .inl rfl
  | cons opc bs =>
    by_cases hopc : formatOf opc = none
    · exact .inr ⟨.illegal opc, bs, StreamFrame.illegal_wellFormed_iff.2 hopc, rfl⟩
    simp only [formatOf_eq_none, not_and_or, not_not] at hopc
    rcases hopc with rfl | rfl | rfl | rfl | rfl | rfl | rfl | rfl | rfl | rfl | rfl | rfl | rfl
    · exact .inr ⟨.instr .shaReset, bs, rfl, rfl⟩
    · exact decodeData_incomplete_or_frameAtHead (mk := .shaUpdate) bs (fun _ => rfl) fun _ => rfl
    · exact .inr ⟨.instr .shaDigest, bs, rfl, rfl⟩
    · exact decodeData_incomplete_or_frameAtHead (mk := .macInit) bs (fun _ => rfl) fun _ => rfl
    · exact decodeData_incomplete_or_frameAtHead (mk := .macUpdate) bs (fun _ => rfl) fun _ => rfl
    · exact decodeData_incomplete_or_frameAtHead (mk := .macFinal) bs (fun _ => rfl) fun _ => rfl
    · exact .inr ⟨.instr .otpTrunc, bs, rfl, rfl⟩
    · exact decodeClock_incomplete_or_frameAtHead (mk := .tcBcd) bs (fun _ => rfl) fun _ => rfl
    · exact .inr ⟨.instr .tcMono, bs, rfl, rfl⟩
    · cases bs with
      | nil => exact .inl rfl
      | cons b bs => exact .inr ⟨.instr (.ctlPoll b), bs, rfl, rfl⟩
    · exact decodeData_incomplete_or_frameAtHead (mk := .hostProvision) bs (fun _ => rfl) fun _ => rfl
    · exact decodeClock_incomplete_or_frameAtHead (mk := .hostSetTime) bs (fun _ => rfl) fun _ => rfl
    · refine incomplete_or_frameAtHead (d := decodeWord .hostSetCounter bs) (fun h => ?_) decodeWord_not_illegal
      obtain ⟨v, rfl, rfl⟩ := decodeWord_frame h
      exact ⟨rfl, rfl⟩

/-! ## The length of a frame -/

/-- R75: "from its first one or two bytes alone". -/
theorem frameLength_take_two (bs : List Byte) : frameLength bs = frameLength (bs.take 2) := by
  rcases bs with _ | ⟨opc, _ | ⟨len, bs⟩⟩
  · rfl
  · rfl
  · rfl

theorem frameLength_encode (i : Instr) : Laws.FrameLength.Statement i := by
  cases i with
  | shaReset => exact Laws.FrameLength.shaReset
  | shaUpdate data => exact Laws.FrameLength.shaUpdate data
  | shaDigest => exact Laws.FrameLength.shaDigest
  | macInit key => exact Laws.FrameLength.macInit key
  | macUpdate data => exact Laws.FrameLength.macUpdate data
  | macFinal key => exact Laws.FrameLength.macFinal key
  | otpTrunc => exact Laws.FrameLength.otpTrunc
  | tcBcd b => exact Laws.FrameLength.tcBcd b
  | tcMono => exact Laws.FrameLength.tcMono
  | ctlPoll inByte => exact Laws.FrameLength.ctlPoll inByte
  | hostProvision secret => exact Laws.FrameLength.hostProvision secret
  | hostSetTime b => exact Laws.FrameLength.hostSetTime b
  | hostSetCounter cval => exact Laws.FrameLength.hostSetCounter cval

/-- The length of each format (R66 to R70, R73). -/
theorem frameLength_cons (opc : Byte) (bs : List Byte) :
    (formatOf opc = none → frameLength (opc :: bs) = some 1) ∧
    (formatOf opc = some .n → frameLength (opc :: bs) = some 1) ∧
    (formatOf opc = some .p → frameLength (opc :: bs) = some 2) ∧
    (formatOf opc = some .b4 → frameLength (opc :: bs) = some 5) ∧
    (formatOf opc = some .b7 → frameLength (opc :: bs) = some 8) ∧
    (∀ len : Byte, formatOf opc = some .l → frameLength (opc :: len :: bs) = some (2 + len.toNat)) := by
  refine ⟨fun h => ?_, fun h => ?_, fun h => ?_, fun h => ?_, fun h => ?_, fun len h => ?_⟩ <;> simp only [frameLength, h]

theorem frameLength_encodeFrame {f : StreamFrame} (rest : List Byte) (h : f.wellFormed = true) :
    frameLength (encodeFrame f ++ rest) = some (encodeFrame f).length := by
  cases f with
  | instr i => exact frameLength_encode i h rest
  | illegal opc => exact (frameLength_cons opc rest).1 (StreamFrame.illegal_wellFormed_iff.1 h)

/-! ## The split into frames (R75) -/

/-- `p` is a split of `bs`: well-formed frames, then the bytes of an incomplete one. -/
structure IsSplit (bs : List Byte) (p : List StreamFrame × List Byte) : Prop where
  wellFormed : ∀ f ∈ p.1, f.wellFormed = true
  bytes : bs = p.1.flatMap encodeFrame ++ p.2
  incomplete : decode p.2 = .incomplete

theorem splitFuel_incomplete (fuel : Nat) {bs : List Byte} (h : decode bs = .incomplete) : splitFuel fuel bs = ([], bs) := by
  cases fuel with
  | zero => rfl
  | succ fuel => simp only [splitFuel, h]

theorem splitFuel_frame (fuel : Nat) {f : StreamFrame} (rest : List Byte) (h : f.wellFormed = true) :
    splitFuel (fuel + 1) (encodeFrame f ++ rest) = (f :: (splitFuel fuel rest).1, (splitFuel fuel rest).2) := by
  rw [splitFuel, decode_encodeFrame_append rest h]
  cases f with
  | instr i => rfl
  | illegal opc => rfl

theorem IsSplit.of_incomplete {bs : List Byte} (h : decode bs = .incomplete) : IsSplit bs ([], bs) :=
  ⟨fun _ hf => absurd hf List.not_mem_nil, rfl, h⟩

theorem IsSplit.cons {f : StreamFrame} {rest : List Byte} {p : List StreamFrame × List Byte} (hf : f.wellFormed = true)
    (h : IsSplit rest p) : IsSplit (encodeFrame f ++ rest) (f :: p.1, p.2) where
  wellFormed := List.forall_mem_cons.2 ⟨hf, h.wellFormed⟩
  bytes := by rw [List.flatMap_cons, List.append_assoc, ← h.bytes]
  incomplete := h.incomplete

/-- With a unit of fuel for each byte the split is found, since a frame has at least one byte. -/
theorem isSplit_splitFuel {fuel : Nat} {bs : List Byte} (hfuel : bs.length ≤ fuel) : IsSplit bs (splitFuel fuel bs) := by
  induction fuel generalizing bs with
  | zero =>
    obtain rfl := List.eq_nil_of_length_eq_zero (Nat.le_zero.1 hfuel)
    exact .of_incomplete rfl
  | succ fuel ih =>
    rcases decode_incomplete_or_frameAtHead bs with hinc | ⟨f, rest, hf, rfl⟩
    · rw [splitFuel_incomplete _ hinc]
      exact .of_incomplete hinc
    · have hpos := encodeFrame_length_pos f
      rw [List.length_append] at hfuel
      rw [splitFuel_frame fuel rest hf]
      exact .cons hf (ih (by omega))

/-- A byte sequence has one split, the one `splitFuel` finds: it reads the frames of any split one by one. -/
theorem IsSplit.splitFuel_eq {fuel : Nat} {bs : List Byte} {fs : List StreamFrame} {left : List Byte}
    (h : IsSplit bs (fs, left)) (hfuel : bs.length ≤ fuel) : splitFuel fuel bs = (fs, left) := by
  obtain ⟨hwf, rfl, hinc⟩ := h
  dsimp only at hwf hfuel hinc ⊢
  induction fs generalizing fuel with
  | nil => exact splitFuel_incomplete fuel hinc
  | cons f fs ih =>
    obtain ⟨hf, hfs⟩ := List.forall_mem_cons.1 hwf
    have hpos := encodeFrame_length_pos f
    rw [List.flatMap_cons, List.append_assoc] at hfuel ⊢
    rw [List.length_append] at hfuel
    obtain ⟨n, rfl⟩ : ∃ n, fuel = n + 1 := Nat.exists_eq_succ_of_ne_zero (by omega)
    rw [splitFuel_frame n _ hf, ih (fuel := n) hfs (by omega)]

/-- Settles O3: the length by `frameLength_cons`, the split by `isSplit_splitFuel`, and it is the only one by `IsSplit.splitFuel_eq`. -/
theorem streamSplitsUniquelyIntoFrames : Obligations.StreamSplitsUniquelyIntoFrames := by
  unfold Obligations.StreamSplitsUniquelyIntoFrames
  refine ⟨frameLength_take_two, fun f rest hf => frameLength_encodeFrame rest hf, frameLength_cons, fun bs => ?_⟩
  have hsplit : IsSplit bs (splitFrames bs) := isSplit_splitFuel le_rfl
  refine ⟨hsplit.wellFormed, hsplit.bytes, hsplit.incomplete, fun fs left hfs hbs hleft => ?_⟩
  have heq : (fs, left) = splitFrames bs := (IsSplit.splitFuel_eq ⟨hfs, hbs, hleft⟩ le_rfl).symm
  exact ⟨congrArg Prod.fst heq, congrArg Prod.snd heq⟩

/-! ## The step on a frame not delivered in full, and on an illegal opcode -/

/-- R76: a frame cut short holds no frame; one at its head would be one at the head of the whole, with bytes left over. -/
theorem decode_take_encodeFrame {f : StreamFrame} {k : Nat} (hf : f.wellFormed = true) (hk : k < (encodeFrame f).length) :
    decode ((encodeFrame f).take k) = .incomplete := by
  rcases decode_incomplete_or_frameAtHead ((encodeFrame f).take k) with hinc | ⟨g, rest, hg, htake⟩
  · exact hinc
  · have hwhole : encodeFrame f ++ [] = encodeFrame g ++ (rest ++ (encodeFrame f).drop k) := by
      rw [← List.append_assoc, ← htake, List.take_append_drop, List.append_nil]
    obtain ⟨-, hleft⟩ := encodeFrame_append_inj hf hg hwhole
    have hdrop : (encodeFrame f).drop k = [] := (List.append_eq_nil_iff.1 hleft.symm).2
    exact absurd (List.drop_eq_nil_iff.1 hdrop) (Nat.not_le.2 hk)

/-- In a legal configuration with the power on the step takes the next frame. -/
theorem step_eq_frameStep {s : State} (hcfg : configLegal s.cfg = true) (hpower : s.power = none) : step s = frameStep s := by
  rw [step, if_pos hcfg, hpower]

/-- Settles O8: the decoder answers `incomplete` for the frame cut short. -/
theorem incompleteFrameHasNoStep : Obligations.IncompleteFrameHasNoStep := by
  unfold Obligations.IncompleteFrameHasNoStep
  intro s f k hcfg hpower hf hk hstream
  rw [step_eq_frameStep hcfg hpower, frameStep, hstream, decode_take_encodeFrame hf hk]

/-- An illegal opcode faults in every CORE that is not halted (R73): it is no engine frame, so no emission cycle refuses it. -/
theorem illegalFrame_faults (opc : Byte) {s : State} (h : s.halted = false) :
    illegalFrame opc s = .next (takeFault .illegalOpcode opc s) :=
  runFrame_raise h rfl rfl

/-- Settles O6: the decoder takes the one byte, and `illegalFrame_faults` says the rest. -/
theorem illegalOpcodeIsOneByteAndFaults : Obligations.IllegalOpcodeIsOneByteAndFaults := by
  unfold Obligations.IllegalOpcodeIsOneByteAndFaults
  refine ⟨by decide +kernel, rfl, rfl, fun s opc rest hcfg hpower hrun hopc hstream => ?_⟩
  rw [step_eq_frameStep hcfg hpower, frameStep, hstream, decode_of_illegal rest hopc]
  exact illegalFrame_faults opc (s := s.consume rest) hrun

end Sys2Proof
end

section
/-! The bytes of every frame (30_encoding.md R66 to R72). -/

namespace Sys2Proof

open Safety

/-- The unit of a frame is the high nibble of its opcode, and the engine frames are those of units 0 to 3 (R72). -/
theorem engineFrame_iff_unit_lt_four (i : Instr) : engineFrame i = true ↔ i.opcode.toNat / 16 < 4 := by
  cases i <;> simp only [engineFrame, Instr.opcode] <;> decide

/-- Settles O4: the encodings are those of the encoder's equations, the illegal opcodes those of `formatOf_eq_none`. -/
theorem framesAreEncodedAsTheTableSays : Obligations.FramesAreEncodedAsTheTableSays := by
  unfold Obligations.FramesAreEncodedAsTheTableSays
  refine ⟨rfl, fun _ => rfl, rfl, fun _ => rfl, fun _ => rfl, fun _ => rfl, rfl, fun _ _ _ _ _ _ _ => rfl, rfl, fun _ => rfl,
    fun _ => rfl, fun _ _ _ _ _ _ _ => rfl, fun _ => rfl, fun opc => ?_, engineFrame_iff_unit_lt_four⟩
  simp only [List.mem_cons, List.not_mem_nil, or_false, not_or]
  exact formatOf_eq_none

end Sys2Proof
end

section
/-! SHA_DIGEST (40_sha1.md R94, R97) and the reserved bits of a poll (30_encoding.md R74). -/

namespace Sys2Proof.Machine

open Safety

/-- Byte `i` of the padded message: the bytes held, `0x80`, zeros (R94). -/
def padByte (ofs : Nat) (blk : Vector Byte 64) (i : Fin 64) : Byte :=
  if i.val < ofs then blk[i] else if i.val = ofs then 0x80 else 0

/-- Byte `i` of the block that carries the length: zeros, then `BITS` big-endian (R94). -/
def lengthByte (len : BitVec 16) (i : Nat) : Byte :=
  if i = 62 then len.extractLsb' 8 8 else if i = 63 then len.extractLsb' 0 8 else 0

theorem lastBlock_eq {ofs : Nat} (h : ofs ≤ 55) (blk : Vector Byte 64) (len : BitVec 16) :
    lastBlock ofs blk len = Vector.ofFn fun i : Fin 64 => if i.val < 56 then padByte ofs blk i else lengthByte len i.val := by
  refine congrArg Vector.ofFn (funext fun i => ?_)
  unfold padByte lengthByte
  by_cases hi : i.val < 56
  · rw [if_pos hi, if_neg (show ¬ i.val = 62 by omega), if_neg (show ¬ i.val = 63 by omega)]
  · rw [if_neg hi, if_neg (show ¬ i.val < ofs by omega), if_neg (show ¬ i.val = ofs by omega)]

/-- The digest words FINALIZE leaves: one compression when the `0x80` and the length fit behind the message, else two. -/
theorem finish_h (e : HashEngine) :
    (finish e).h =
      if e.ofs.toNat ≤ 55 then
        compressWords e.h (Vector.ofFn fun i => if i.val < 56 then padByte e.ofs.toNat e.blk i else lengthByte e.bits i.val)
      else
        compressWords (compressWords e.h (Vector.ofFn (padByte e.ofs.toNat e.blk))) (Vector.ofFn fun i => lengthByte e.bits i.val) := by
  rw [finish_eq]
  by_cases h : e.ofs.toNat ≤ 55
  · rw [if_pos h, ← lastBlock_eq h]
    exact if_pos (Nat.lt_succ_of_le h)
  · rw [if_neg h]
    exact if_neg (by omega)

/-- SHA_DIGEST of an active hash. -/
theorem exec_shaDigest_active {s : State} (hs : engineReady s) (h : s.hash.phase = .active) :
    exec .shaDigest s = .next { s with
      hash := finish s.hash, dout := digestBytes (finish s.hash).h, doutValid := true, mphase := .idle } := by
  obtain ⟨hrun, hidle⟩ := hs
  exact exec_ok hrun hidle (shaDigestBody_ok h)

theorem exec_shaDigest_not_active {s : State} (hs : engineReady s) (h : s.hash.phase ≠ .active) :
    exec .shaDigest s = .next (takeFault .hashNotActive Opcode.shaDigest s) := by
  obtain ⟨hrun, hidle⟩ := hs
  refine exec_raise hrun hidle ?_
  show shaDigestBody s = _
  rw [shaDigestBody, finalize_not_active h, error_bind]

/-- The reserved bits are read before the controller's state, and no emission cycle refuses a poll (R74, R148 (2)). -/
theorem exec_ctlPoll_reserved {b : Byte} {s : State} (hrun : s.halted = false) (hb : reservedBitsSet b = true) :
    exec (.ctlPoll b) s = .next (takeFault .reservedBits Opcode.ctlPoll s) :=
  exec_raise (i := .ctlPoll b) hrun rfl (poll_reserved hb)

/-- Why a frame of a running CORE ends in `t`: ENGINE_BUSY, a fault of its own pseudocode, or the pseudocode's own end (R148). -/
theorem exec_next_of_running {i : Instr} {s t : State} (hrun : s.halted = false) (h : exec i s = .next t) :
    t = takeFault .engineBusy i.opcode s ∨ (∃ c, bodyOf i s = .error (.raise c) ∧ t = takeFault c i.opcode s) ∨
      bodyOf i s = .ok t := by
  cases hbusy : engineFrame i && s.emitting with
  | true =>
    obtain ⟨heng, hemit⟩ := Bool.and_eq_true_iff.1 hbusy
    rw [exec_eq, heng, runFrame_busy hrun hemit] at h
    cases h
    exact .inl rfl
  | false =>
    cases hb : bodyOf i s with
    | ok u =>
      rw [exec_ok hrun hbusy hb] at h
      cases h
      exact .inr (.inr rfl)
    | error r =>
      cases r with
      | raise c =>
        rw [exec_raise hrun hbusy hb] at h
        cases h
        exact .inr (.inl ⟨c, rfl, rfl⟩)
      | stop f =>
        rw [exec_eq] at h
        simp [runFrame, hrun, hbusy, hb] at h

theorem byte_ne_reservedBits_of_engineCode : ∀ c ∈ engineCodes, c.byte ≠ FaultCode.reservedBits.byte := by decide

/-- RESERVED_BITS is a poll's: no other frame of a running CORE leaves that code. -/
theorem poll_of_fcode_reservedBits {i : Instr} {s t : State} (hrun : s.halted = false) (h : exec i s = .next t)
    (hcode : t.fcode = 0x07) : ∃ b, i = .ctlPoll b := by
  by_contra hpoll
  rcases exec_next_of_running hrun h with rfl | ⟨c, hc, rfl⟩ | hok
  · rw [takeFault_fcode] at hcode
    exact absurd hcode (by decide)
  · rw [takeFault_fcode] at hcode
    have hengine : c ∈ engineCodes := (bodyOf_raises i s).2 (not_exists.1 hpoll) c hc
    exact byte_ne_reservedBits_of_engineCode c hengine hcode
  · have hfault : t.fcode = s.fcode := congrArg (BitVec.extractLsb' 0 8) (bodyOf_keeps hok).fault
    rw [State.halted, ← hfault, hcode] at hrun
    exact absurd hrun (by decide)

end Sys2Proof.Machine

namespace Sys2Proof

open Machine Safety

/-- Settles O21: `finish_eq` says what FINALIZE compresses, `digestBytes_toList` what it returns. -/
theorem shaDigestPadsAndWritesTheDigest : Obligations.ShaDigestPadsAndWritesTheDigest := by
  unfold Obligations.ShaDigestPadsAndWritesTheDigest
  intro s hs
  refine ⟨exec_shaDigest_not_active hs, fun hactive => ?_⟩
  intro n len pad h
  have hh : (finish s.hash).h = h := finish_h s.hash
  refine ⟨digestBytes h, digestBytes_toList h, ?_⟩
  rw [exec_shaDigest_active hs hactive, ← hh, finish_eq s.hash]
  rfl

/-- Settles O40: the poll's reserved bits come first, and no other pseudocode raises the code. -/
theorem reservedBitsFault : Obligations.ReservedBitsFault := by
  unfold Obligations.ReservedBitsFault
  refine ⟨fun s b hrun hb => ?_, fun i s t hrun h hcode => poll_of_fcode_reservedBits hrun h hcode⟩
  exact exec_ctlPoll_reserved hrun (bne_iff_ne.2 hb)

end Sys2Proof
end

section
/-! SHA_RESET and SHA_UPDATE (40_sha1.md R92, R93, R95, R96). SHA_UPDATE is ABSORB on the CORE's HashEngine, so each case of it is
an equation of `absorb`. -/

namespace Sys2Proof.Machine

open Safety

/-- SHA_UPDATE of a ready engine is what ABSORB does to the HashEngine. -/
theorem exec_shaUpdate_ok {data : List Byte} {s : State} {e : HashEngine} (hs : engineReady s)
    (h : absorb data s.hash = .ok e) : exec (.shaUpdate data) s = .next { s with hash := e } := by
  refine exec_ready hs ?_
  show absorbState data s = _
  rw [absorbState_eq, h, ok_bind]

theorem exec_shaUpdate_raise {data : List Byte} {s : State} {c : FaultCode} (hs : engineReady s)
    (h : absorb data s.hash = .error (.raise c)) :
    exec (.shaUpdate data) s = .next (takeFault c Opcode.shaUpdate s) := by
  refine exec_raise hs.1 (engineReady_check hs _) ?_
  show absorbState data s = _
  rw [absorbState_eq, h, error_bind]

/-- No byte is no change, `BITS` included. -/
theorem absorb_nil {e : HashEngine} (h : e.phase = .active) : absorb [] e = .ok e := by
  have hbits : BitVec.ofNat 16 (e.bits.toNat + 8 * ([] : List Byte).length) = e.bits := BitVec.ofNat_toNat ..
  rw [absorb_ok (data := []) h (Nat.le_of_lt_succ e.bits.isLt), hbits]
  rfl

/-- One byte is one turn of ABSORB's loop, and 8 more bits. -/
theorem absorb_singleton {e : HashEngine} (b : Byte) (h : e.phase = .active) (hfit : e.bits.toNat + 8 ≤ 0xFFFF) :
    absorb [b] e = .ok { absorbByte e b with bits := e.bits + 8 } := by
  have hbits : BitVec.ofNat 16 (e.bits.toNat + 8 * [b].length) = e.bits + 8 := by
    rw [BitVec.ofNat_add, BitVec.ofNat_toNat]
    rfl
  rw [absorb_ok (data := [b]) h hfit, hbits]
  rfl

/-- One turn of the loop in an active hash, field by field: the byte that fills the block compresses and clears it. -/
theorem absorbByte_active {e : HashEngine} (b : Byte) (bits : BitVec 16) (h : e.phase = .active) :
    { absorbByte e b with bits := bits } =
      if e.ofs = 63 then
        ⟨compressWords e.h (e.blk.set 63 b), Vector.replicate 64 0, 0, bits, .active⟩
      else ⟨e.h, e.blk.set e.ofs.toNat b e.ofs.isLt, e.ofs + 1, bits, .active⟩ := by
  by_cases hfull : e.ofs = 63
  · simp [absorbByte, compress, zeroBlock, hfull, h]
  · simp only [absorbByte, if_neg hfull, h]

/-- Bytes in one SHA_UPDATE are the same bytes in two, while their bit count fits. -/
theorem exec_shaUpdate_append {x y : List Byte} {s : State} (hs : engineReady s) (h : s.hash.phase = .active)
    (hfit : s.hash.bits.toNat + 8 * (x.length + y.length) ≤ 0xFFFF) :
    exec (.shaUpdate (x ++ y)) s = runFrames [.shaUpdate x, .shaUpdate y] s := by
  have hwhole := absorb_ok (data := x ++ y) h (by rwa [List.length_append])
  obtain ⟨e, hx, hy⟩ := bind_ok ((absorb_append hfit).symm.trans hwhole)
  have hs' : engineReady { s with hash := e } := hs
  rw [exec_shaUpdate_ok hs hwhole, runFrames_cons (exec_shaUpdate_ok hs hx), runFrames_cons (exec_shaUpdate_ok hs' hy),
    runFrames_nil]

end Sys2Proof.Machine

namespace Sys2Proof

open Machine

/-- Settles O16: the two faults and the three lengths of ABSORB, each by its equation. -/
theorem shaUpdateAbsorbsByteByByte : Obligations.ShaUpdateAbsorbsByteByByte := by
  unfold Obligations.ShaUpdateAbsorbsByteByByte
  intro s hs
  refine ⟨fun hp data => exec_shaUpdate_raise hs (absorb_not_active hp), fun hp => ⟨fun data hlen => ?_, ?_, ?_, ?_⟩⟩
  · exact exec_shaUpdate_raise hs (absorb_overflow hp hlen)
  · exact exec_shaUpdate_ok hs (absorb_nil hp)
  · intro b hfit
    rw [exec_shaUpdate_ok hs (absorb_singleton b hp hfit), absorbByte_active b _ hp]
  · intro b data hfit
    exact exec_shaUpdate_append (x := [b]) hs hp (by rwa [List.length_singleton, Nat.add_comm 1])

/-- Settles O15: the pseudocode of SHA_RESET raises nothing, so a ready engine runs it. -/
theorem shaResetStartsAHash : Obligations.ShaResetStartsAHash := by
  unfold Obligations.ShaResetStartsAHash
  intro s hs
  exact exec_ready (i := .shaReset) hs rfl

end Sys2Proof
end

section
/-! The MacEngine frames (41_hmac.md R101 to R105, R108). MAC_INIT and MAC_FINAL absorb key blocks after `HRESET()`, MAC_UPDATE is
ABSORB behind one test, so each follows from the equations of the HashEngine. -/

namespace Sys2Proof.Machine

open Reference Safety

/-- A frame of a ready engine whose own pseudocode raises a fault. -/
theorem exec_ready_raise {i : Instr} {s : State} {c : FaultCode} (hs : engineReady s)
    (hb : bodyOf i s = .error (.raise c)) : exec i s = .next (takeFault c i.opcode s) :=
  exec_raise hs.1 (engineReady_check hs _) hb

/-! ## The faults of the MacEngine -/

theorem exec_macInit_keyTooLong {key : List Byte} {s : State} (hs : engineReady s) (h : 64 < key.length) :
    exec (.macInit key) s = .next (takeFault .keyTooLong Opcode.macInit s) :=
  exec_ready_raise (i := .macInit key) hs (if_pos h)

theorem exec_macFinal_keyTooLong {key : List Byte} {s : State} (hs : engineReady s) (h : 64 < key.length) :
    exec (.macFinal key) s = .next (takeFault .keyTooLong Opcode.macFinal s) :=
  exec_ready_raise (i := .macFinal key) hs (if_pos h)

theorem exec_macUpdate_not_inner (data : List Byte) {s : State} (hs : engineReady s) (h : s.mphase ≠ .inner) :
    exec (.macUpdate data) s = .next (takeFault .macNotActive Opcode.macUpdate s) :=
  exec_ready_raise (i := .macUpdate data) hs (if_pos h)

/-- The key is tried before the phase. -/
theorem exec_macFinal_not_inner {key : List Byte} {s : State} (hs : engineReady s) (hk : key.length ≤ 64)
    (h : s.mphase ≠ .inner) : exec (.macFinal key) s = .next (takeFault .macNotActive Opcode.macFinal s) :=
  exec_ready_raise (i := .macFinal key) hs ((if_neg (Nat.not_lt.2 hk)).trans (if_pos h))

/-! ## The key block byte by byte (R102) -/

theorem keyBlock_getD (key : List Byte) (pad : Byte) {i : Nat} (hi : i < 64) :
    (keyBlock key pad).getD i 0 = if i < key.length then key.getD i 0 ^^^ pad else pad := by
  rw [keyBlock, List.getD_eq_getElem?_getD]
  by_cases h : i < key.length
  · rw [if_pos h, List.getElem?_append_left (by rwa [List.length_map])]
    simp [h]
  · rw [if_neg h, List.getElem?_append_right (by rw [List.length_map]; omega), List.length_map,
      List.getElem?_replicate_of_lt (by omega)]
    rfl

theorem blockOf_keyBlock (key : List Byte) (pad : Byte) :
    blockOf (keyBlock key pad) =
      Vector.ofFn fun i : Fin 64 => if i.val < key.length then key.getD i.val 0 ^^^ pad else pad :=
  congrArg Vector.ofFn (funext fun i => keyBlock_getD key pad i.isLt)

theorem keyBlock_eq_map_range {key : List Byte} (pad : Byte) (h : key.length ≤ 64) :
    keyBlock key pad = (List.range 64).map fun i => if i < key.length then key.getD i 0 ^^^ pad else pad := by
  refine List.ext_getElem (by rw [keyBlock_length pad h]; simp) fun i hi _ => ?_
  rw [keyBlock_length pad h] at hi
  rw [← List.getD_eq_getElem _ 0, keyBlock_getD key pad hi]
  simp

/-! ## What the frames do -/

theorem exec_macInit_ok {key : List Byte} {s : State} (hs : engineReady s) (hk : key.length ≤ 64) :
    exec (.macInit key) s = .next { s with hash := hashHolding (keyBlock key ipad), mphase := .inner } :=
  exec_ready hs (macInitBody_ok hk)

/-- In `INNER`, MAC_UPDATE does to the HashEngine what ABSORB does. -/
theorem exec_macUpdate_ok {data : List Byte} {s : State} {e : HashEngine} (hs : engineReady s) (hm : s.mphase = .inner)
    (h : absorb data s.hash = .ok e) : exec (.macUpdate data) s = .next { s with hash := e } := by
  refine exec_ready hs ?_
  show macUpdateBody data s = _
  rw [macUpdateBody_inner hm, absorbState_eq, h, ok_bind]

theorem exec_macUpdate_raise {data : List Byte} {s : State} {c : FaultCode} (hs : engineReady s) (hm : s.mphase = .inner)
    (h : absorb data s.hash = .error (.raise c)) :
    exec (.macUpdate data) s = .next (takeFault c Opcode.macUpdate s) := by
  refine exec_ready_raise (i := .macUpdate data) hs ?_
  show macUpdateBody data s = _
  rw [macUpdateBody_inner hm, absorbState_eq, h, error_bind]

/-- The outer hash of R105 as four HashEngine frames: they hash the outer message. -/
theorem runFrames_outerHash {key : List Byte} (inner : Digest) {s : State} (hs : engineReady s) (hk : key.length ≤ 64) :
    runFrames [.shaReset, .shaUpdate (keyBlock key opad), .shaUpdate inner.toList, .shaDigest] s = .next { s with
      hash := finish (hashHolding (outerMessage key inner))
      dout := sha1 (outerMessage key inner), doutValid := true, mphase := .idle } := by
  have hfits := outerMessage_length (inner := inner) hk
  have hdigest := finish_holding (m := outerMessage key inner) (by omega)
  rw [outerMessage, List.length_append] at hfits
  have hreset : exec .shaReset s = .next { s with hash := hashReset, mphase := .idle } := exec_ready hs rfl
  have hready : ∀ e, engineReady { s with hash := e, mphase := .idle } := fun _ => hs
  have hkey := exec_shaUpdate_ok (hready hashReset) (absorb_keyBlock opad hk)
  have hinner := exec_shaUpdate_holding (hready (hashHolding (keyBlock key opad))) rfl (Nat.le_trans hfits.le (by decide))
  have hfinish := exec_shaDigest_active (hready (hashHolding (outerMessage key inner))) rfl
  rw [runFrames_cons hreset, runFrames_cons hkey, runFrames_cons hinner, ← outerMessage, runFrames_cons hfinish, runFrames_nil,
    hdigest]

end Sys2Proof.Machine

namespace Sys2Proof

open Machine

/-- Settles O24: the key block is one whole block, so absorbing it after `HRESET()` compresses once. -/
theorem macInitAbsorbsTheKeyBlock : Obligations.MacInitAbsorbsTheKeyBlock := by
  unfold Obligations.MacInitAbsorbsTheKeyBlock
  intro s key hs
  refine ⟨fun hk => ?_, exec_macInit_keyTooLong hs⟩
  rw [exec_macInit_ok hs hk, hashHolding_block (keyBlock_length ipad hk), blockOf_keyBlock]
  rfl

/-- Settles O25: MAC_UPDATE and SHA_UPDATE are the same ABSORB in `INNER`. -/
theorem macUpdateFeedsTheHash : Obligations.MacUpdateFeedsTheHash := by
  unfold Obligations.MacUpdateFeedsTheHash
  intro s data hs
  refine ⟨exec_macUpdate_not_inner data hs, fun hm hp => ⟨fun hfit => ?_, fun hlen => ?_, ?_, ?_⟩⟩
  · have habsorb := absorb_ok hp hfit
    exact ⟨_, exec_macUpdate_ok hs hm habsorb, exec_shaUpdate_ok hs habsorb⟩
  · exact exec_macUpdate_raise hs hm (absorb_overflow hp hlen)
  · exact ⟨shaResetBody s, exec_ready (i := .shaReset) hs rfl, rfl⟩
  · exact ⟨_, exec_shaDigest_active hs hp, rfl, rfl, digestBytes_toList _⟩

/-- Settles O26: both sides hash the outer message, the outer key block before the inner digest. -/
theorem macFinalRunsTheOuterHash : Obligations.MacFinalRunsTheOuterHash := by
  unfold Obligations.MacFinalRunsTheOuterHash
  intro s key hs
  refine ⟨exec_macFinal_keyTooLong hs, exec_macFinal_not_inner hs, fun hk hm hp => ?_⟩
  have hblock := keyBlock_eq_map_range opad hk
  rw [opad] at hblock
  rw [← hblock]
  exact ⟨_, _, exec_shaDigest_active hs hp, runFrames_outerHash _ hs hk, exec_ready hs (macFinalBody_ok hk hm hp), rfl⟩

end Sys2Proof
end

section
/-! Only MAC_INIT enters `INNER` (41_hmac.md R107): every other frame keeps `MPHASE` or sets it to `IDLE` or `DONE`, the poll with
its own MAC of a generation included. -/

namespace Sys2Proof.Machine

/-! ## MPHASE after the operations of the other units -/

theorem tcBcdBody_mphase (b : ClockBytes) (s : State) : (tcBcdBody b s).mphase = s.mphase := by
  obtain ⟨c, -, h⟩ := tcBcdBody_eq b s
  rw [h, setTime_mphase]

theorem tcMonoBody_mphase {s t : State} (h : tcMonoBody s = .ok t) : t.mphase = s.mphase := by
  obtain ⟨-, -, rfl⟩ := tcMonoBody_eq_ok h
  rw [storeCells_mphase, setTime_mphase]

theorem pollIdle_mphase (p : Pins) (s : State) : (pollIdle p s).mphase = s.mphase := by
  unfold pollIdle
  split <;> rfl

theorem pollReleasing_mphase (p : Pins) (s : State) : (pollReleasing p s).mphase = s.mphase := by
  unfold pollReleasing
  split <;> rfl

/-- A poll that generates leaves the MAC it computed, every other poll keeps `MPHASE`. -/
theorem ctlPollBody_mphase {b : Byte} {s t : State} (hl : LegalLayout s.cfg) (h : ctlPollBody b s = .ok t) :
    t.mphase = s.mphase ∨ t.mphase = .done := by
  obtain ⟨-, ⟨-, rfl⟩ | ⟨-, -, rfl⟩ | ⟨-, u, -, rfl⟩ | ⟨-, -, -, rfl⟩ | ⟨-, rfl⟩ | ⟨-, -, rfl⟩ |
    ⟨-, -, -, rfl⟩ | ⟨-, rfl⟩⟩ := poll_cases hl h
  case inr.inr.inl => exact .inr rfl
  all_goals
    left
    simp only [updateHold_mphase, pollIdle_mphase, pollReleasing_mphase, pollSettingTime_mphase, emit_mphase]

theorem hostProvisionBody_mphase {secret : List Byte} {s t : State} (hl : LegalLayout s.cfg)
    (h : hostProvisionBody secret s = .ok t) : t.mphase = s.mphase := by
  by_cases hlen : 1 ≤ secret.length ∧ secret.length ≤ 64
  · cases (hostProvision_accepted hlen hl).symm.trans h
    rfl
  · cases (hostProvision_rejected hlen).symm.trans h
    rfl

theorem hostSetTimeBody_mphase (b : ClockBytes) (s : State) : (hostSetTimeBody b s).mphase = s.mphase := by
  unfold hostSetTimeBody
  split <;> rfl

theorem hostSetCounterBody_mphase {cval : Word} {s t : State} (hl : LegalLayout s.cfg)
    (h : hostSetCounterBody cval s = .ok t) : t.mphase = s.mphase := by
  cases hsrc : s.cfg.timeSrc with
  | mono =>
    cases (hostSetCounter_mono hsrc hl).symm.trans h
    rfl
  | ext =>
    cases (hostSetCounter_ext hsrc).symm.trans h
    rfl

/-! ## MPHASE after any frame -/

/-- The pseudocode of every frame but MAC_INIT keeps `MPHASE`, or ends outside `INNER`. -/
theorem bodyOf_mphase {i : Instr} {s t : State} (hl : LegalLayout s.cfg) (hi : ∀ key, i ≠ .macInit key)
    (h : bodyOf i s = .ok t) : t.mphase = s.mphase ∨ t.mphase = .idle ∨ t.mphase = .done := by
  cases i with
  | shaReset =>
    cases h
    exact .inr (.inl rfl)
  | shaUpdate data =>
    obtain ⟨-, -, rfl⟩ := absorbState_eq_ok h
    exact .inl rfl
  | shaDigest =>
    obtain ⟨-, rfl⟩ := shaDigestBody_eq_ok h
    exact .inr (.inl rfl)
  | macInit key => exact absurd rfl (hi key)
  | macUpdate data =>
    obtain ⟨-, hok⟩ := macUpdateBody_eq_ok h
    obtain ⟨-, -, rfl⟩ := absorbState_eq_ok hok
    exact .inl rfl
  | macFinal key =>
    obtain ⟨-, -, -, rfl⟩ := macFinalBody_eq_ok h
    exact .inr (.inr rfl)
  | otpTrunc =>
    obtain ⟨-, rfl⟩ := otpTruncBody_eq_ok h
    exact .inl rfl
  | tcBcd b =>
    cases h
    exact .inl (tcBcdBody_mphase b s)
  | tcMono => exact .inl (tcMonoBody_mphase h)
  | ctlPoll b => exact (ctlPollBody_mphase hl h).imp_right .inr
  | hostProvision secret => exact .inl (hostProvisionBody_mphase hl h)
  | hostSetTime b =>
    cases h
    exact .inl (hostSetTimeBody_mphase b s)
  | hostSetCounter cval => exact .inl (hostSetCounterBody_mphase hl h)

/-- No frame but MAC_INIT enters `INNER`: a halted CORE does nothing and a fault keeps `MPHASE`. -/
theorem exec_not_inner {i : Instr} {s t : State} (hl : LegalLayout s.cfg) (hi : ∀ key, i ≠ .macInit key)
    (hm : s.mphase ≠ .inner) (h : exec i s = .next t) : t.mphase ≠ .inner := by
  rcases exec_next h with ⟨-, rfl⟩ | ⟨-, c, rfl⟩ | ⟨-, -, hok⟩
  · exact hm
  · rwa [takeFault_mphase]
  · rcases bodyOf_mphase hl hi hok with hsame | hidle | hdone
    · rwa [hsame]
    · simp [hidle]
    · simp [hdone]

/-- A sequence of frames without MAC_INIT ends outside `INNER` if it began there. -/
theorem runFrames_not_inner {is : List Instr} {s t : State} (hl : LegalLayout s.cfg) (hi : ∀ key, .macInit key ∉ is)
    (hm : s.mphase ≠ .inner) (h : runFrames is s = .next t) : t.mphase ≠ .inner := by
  have hstep : ∀ i ∈ is, ∀ s t, LegalLayout s.cfg ∧ s.mphase ≠ .inner → exec i s = .next t →
      LegalLayout t.cfg ∧ t.mphase ≠ .inner := by
    rintro i hmem s t ⟨hl, hm⟩ h
    have hcfg : t.cfg = s.cfg := (exec_keeps h).cfg
    exact ⟨hcfg ▸ hl, exec_not_inner hl (fun key heq => hi key (heq ▸ hmem)) hm h⟩
  exact (runFrames_keeps hstep ⟨hl, hm⟩ h).2

end Sys2Proof.Machine

namespace Sys2Proof

open Machine

/-- Settles O29: by induction over the frames `MPHASE` stays outside `INNER`, and there both frames fault. -/
theorem onlyMacInitStartsAMac : Obligations.OnlyMacInitStartsAMac := by
  unfold Obligations.OnlyMacInitStartsAMac
  intro is s t hcfg hm hi h
  have ht : t.mphase ≠ .inner := runFrames_not_inner (legalLayout hcfg) hi hm h
  refine ⟨ht, fun hready => ⟨fun data => ?_, fun key hk => ?_⟩⟩
  · exact exec_macUpdate_not_inner data hready ht
  · exact exec_macFinal_not_inner hready hk ht

end Sys2Proof
end

section
/-! OTP_TRUNC (42_otp.md R111, R112). `truncWindow_toNat` reads the window as a number, `renderPassword_toNat` the digits. -/

namespace Sys2Proof.Machine

open Safety

theorem exec_otpTrunc_not_valid {s : State} (hs : engineReady s) (h : s.doutValid = false) :
    exec .otpTrunc s = .next (takeFault .digestNotValid Opcode.otpTrunc s) :=
  exec_ready_raise (i := .otpTrunc) hs (if_pos h)

theorem exec_otpTrunc_valid {s : State} (hs : engineReady s) (h : s.doutValid = true) :
    exec .otpTrunc s = .next { s with
      pw := renderPassword ((truncWindow s.cfg.truncMask s.dout).toNat % 1000000)
      truncP := truncWindow s.cfg.truncMask s.dout
      code := BitVec.ofNat 32 ((truncWindow s.cfg.truncMask s.dout).toNat % 1000000), pwValid := true } :=
  exec_ready hs (otpTruncBody_ok h)

/-- `CODE` holds the whole residue: it is below `2 ^ 32`. -/
theorem residue_word_toNat (n : Nat) : (BitVec.ofNat 32 (n % 1000000)).toNat = n % 1000000 := by
  rw [BitVec.toNat_ofNat]
  omega

end Sys2Proof.Machine

namespace Sys2Proof

open Machine

/-- Settles O30: the window is the reference truncation, and `CODE` is what the password renders. -/
theorem otpTruncRendersThePassword : Obligations.OtpTruncRendersThePassword := by
  unfold Obligations.OtpTruncRendersThePassword
  intro s hs
  refine ⟨exec_otpTrunc_not_valid hs, fun hvalid => ?_⟩
  have hcode := residue_word_toNat (truncWindow s.cfg.truncMask s.dout).toNat
  refine ⟨_, _, _, exec_otpTrunc_valid hs hvalid, truncWindow_toNat s.cfg.truncMask s.dout, hcode, fun i => ?_⟩
  rw [hcode]
  exact renderPassword_toNat _ i

end Sys2Proof
end

section
/-! ENGINE_BUSY (44_controller.md R128): the common check raises it, and no pseudocode does. -/

namespace Sys2Proof.Machine

open Safety

theorem emitting_iff {s : State} : s.emitting = true ↔ s.cstate = .sending ∨ s.cstate = .releasing := by
  unfold State.emitting
  split <;> simp [*]

/-- An engine frame of an emission cycle is refused, whatever its pseudocode. -/
theorem exec_engineFrame_busy {i : Instr} {s : State} (hrun : s.halted = false) (hemit : s.emitting = true)
    (heng : engineFrame i = true) : exec i s = .next (takeFault .engineBusy i.opcode s) := by
  rw [exec_eq, heng, runFrame_busy hrun hemit]

/-- A frame of a running CORE that the common checks let through ends as its own pseudocode does (R148 (4)). -/
theorem exec_next_of_not_busy {i : Instr} {s t : State} (hrun : s.halted = false)
    (hfree : (engineFrame i && s.emitting) = false) (h : exec i s = .next t) :
    (∃ c, bodyOf i s = .error (.raise c) ∧ t = takeFault c i.opcode s) ∨ bodyOf i s = .ok t := by
  cases hb : bodyOf i s with
  | ok u =>
    cases (exec_ok hrun hfree hb).symm.trans h
    exact .inr rfl
  | error r =>
    cases r with
    | raise c =>
      cases (exec_raise hrun hfree hb).symm.trans h
      exact .inl ⟨c, rfl, rfl⟩
    | stop f =>
      rw [exec_eq] at h
      simp [runFrame, hrun, hfree, hb] at h

/-- A pseudocode that ends well does not halt the CORE. -/
theorem bodyOf_fcode {i : Instr} {s t : State} (hrun : s.halted = false) (h : bodyOf i s = .ok t) : t.fcode = 0 := by
  have ht : t.halted = false := halted_of_fault (bodyOf_keeps h).fault hrun
  simpa [State.halted] using ht

theorem bodyCode_ne_engineBusy : ∀ c ∈ FaultCode.reservedBits :: engineCodes, c.byte ≠ FaultCode.engineBusy.byte := by
  decide

/-- Only the common check (R148 (3)) gives the code ENGINE_BUSY. -/
theorem busy_of_fcode_engineBusy {i : Instr} {s t : State} (hrun : s.halted = false) (h : exec i s = .next t)
    (hcode : t.fcode = 0x09) : engineFrame i = true ∧ s.emitting = true := by
  by_contra hbusy
  have hfree : (engineFrame i && s.emitting) = false := by simpa using hbusy
  rcases exec_next_of_not_busy hrun hfree h with ⟨c, hc, rfl⟩ | hok
  · rw [takeFault_fcode] at hcode
    exact bodyCode_ne_engineBusy c ((bodyOf_raises i s).1 c hc) hcode
  · rw [bodyOf_fcode hrun hok] at hcode
    exact absurd hcode (by decide)

end Sys2Proof.Machine

namespace Sys2Proof

open Machine

/-- Settles O12: the check of R148 (3) refuses the engine frames, and no pseudocode raises its code. -/
theorem engineFramesAreBusyDuringEmission : Obligations.EngineFramesAreBusyDuringEmission := by
  unfold Obligations.EngineFramesAreBusyDuringEmission
  intro s hrun
  refine ⟨fun hc i hi => ?_, fun i t h hcode => ?_⟩
  · exact exec_engineFrame_busy hrun (emitting_iff.2 hc) ((engineFrame_iff_unit_lt_four i).2 hi)
  · obtain ⟨heng, hemit⟩ := busy_of_fcode_engineBusy hrun h hcode
    exact ⟨emitting_iff.1 hemit, (engineFrame_iff_unit_lt_four i).1 heng⟩

end Sys2Proof
end

section
/-! HOST_SET_TIME (44_controller.md R140) and the rows of CTL_POLL (R130 to R138). A poll's row is the equation of its pseudocode
in that state, with the hold-counter then updated by R131. -/

namespace Sys2Proof.Machine

open Safety

/-! ## HOST_SET_TIME -/

theorem hostSetTimeBody_accepted (b : ClockBytes) {s : State} (h : s.cfg.hasSetTime = true) :
    hostSetTimeBody b s = { s with tset := b, tsetPend := true, hostResult := .accepted } := if_pos h

theorem hostSetTimeBody_rejected (b : ClockBytes) {s : State} (h : s.cfg.hasSetTime = false) :
    hostSetTimeBody b s = { s with hostResult := .rejected } := if_neg (Bool.eq_false_iff.1 h)

theorem exec_hostSetTime (b : ClockBytes) {s : State} (hrun : s.halted = false) :
    exec (.hostSetTime b) s = .next (hostSetTimeBody b s) :=
  exec_ok (i := .hostSetTime b) hrun rfl rfl

/-! ## The hold-counter of a poll (R131) -/

/-- One poll's worth of counting: 1 less, and 0 stays 0. -/
def countDown (h : Byte) : Byte := if 0 < h.toNat then h - 1 else 0

theorem updateHold_unarmed (h : Byte) (s : State) : updateHold h false s = { s with hold := countDown h } := rfl

/-- A poll that does not generate counts down. -/
theorem exec_ctlPoll_unarmed {b : Byte} {s u : State} (hrun : s.halted = false)
    (h : ctlPollBody b s = .ok (updateHold s.hold false u)) :
    exec (.ctlPoll b) s = .next { u with hold := countDown s.hold } := by
  rw [← updateHold_unarmed]
  exact exec_ok (i := .ctlPoll b) hrun rfl h

/-! ## The `IN` byte bit by bit (30_encoding.md R70) -/

theorem reservedBitsSet_of_lt {b : Byte} (h : b.toNat < 8) : reservedBitsSet b = false := by
  revert b
  decide

/-- `triggers_iff` with the bit of the button. -/
theorem triggers_iff_bits {b : Byte} {s : State} :
    triggers b s = true ↔ s.cstate = .waiting ∧ s.tsetPend = false ∧ b.getLsbD 0 = false ∧ s.hold = 0 := by
  rw [triggers_iff, show (pinsOf b).pressed = !b.getLsbD 0 from rfl, Bool.not_eq_true']

/-! ## `Idle` and `Releasing` by their pins (R132, R137) -/

theorem poll_idle_link {b : Byte} {s : State} (hr : reservedBitsSet b = false) (hc : s.cstate = .idle)
    (h : (pinsOf b).link = true) : ctlPollBody b s = .ok (updateHold s.hold false { s with cstate := .waiting }) := by
  rw [poll_idle hr hc, pollIdle, if_pos h]

theorem poll_idle_noLink {b : Byte} {s : State} (hr : reservedBitsSet b = false) (hc : s.cstate = .idle)
    (h : ¬ (pinsOf b).link = true) : ctlPollBody b s = .ok (updateHold s.hold false s) := by
  rw [poll_idle hr hc, pollIdle, if_neg h]

theorem poll_releasing_noSlot {b : Byte} {s : State} (hr : reservedBitsSet b = false) (hc : s.cstate = .releasing)
    (h : ¬ (pinsOf b).slot = true) : ctlPollBody b s = .ok (updateHold s.hold false s) := by
  rw [poll_releasing hr hc, pollReleasing, if_neg h]

/-- The key-up of a digit that is not the last. -/
theorem poll_releasing_slot_more {b : Byte} {s : State} (hr : reservedBitsSet b = false) (hc : s.cstate = .releasing)
    (h : (pinsOf b).slot = true) (hi : s.idx.toNat < 6) :
    ctlPollBody b s = .ok (updateHold s.hold false { emit keyUp s with cstate := .sending }) := by
  rw [poll_releasing hr hc, pollReleasing, if_pos h, if_pos (BitVec.lt_def.2 hi)]

/-- The key-up of the last digit ends the emission cycle. -/
theorem poll_releasing_slot_last {b : Byte} {s : State} (hr : reservedBitsSet b = false) (hc : s.cstate = .releasing)
    (h : (pinsOf b).slot = true) (hi : s.idx.toNat = 6) :
    ctlPollBody b s = .ok (updateHold s.hold false { emit keyUp s with cstate := .waiting }) := by
  have hlast : ¬ s.idx < 6 := by
    rw [BitVec.lt_def, hi]
    decide
  rw [poll_releasing hr hc, pollReleasing, if_pos h, if_neg hlast]

/-! ## The generating row (R133, R134) -/

/-- The time step of a generation fails on an exhausted counter of `MONO` mode, and on nothing else. -/
theorem generateTime_exhausted_or_timed {s : State} (hl : LegalLayout s.cfg) :
    (s.cfg.timeSrc = .mono ∧ storedCounter s.cfg s.nv = 2 ^ 32 - 1 ∧
      generateTime s = .error (.raise .counterExhausted)) ∨
    ∃ c answers draws nv log, generateTime s = .ok (timed c answers draws nv log s) := by
  cases hsrc : s.cfg.timeSrc with
  | ext =>
    obtain ⟨-, answers, draws, c, hu, -⟩ := generateTime_ext_eq hsrc
    exact .inr ⟨c, answers, draws, _, _, hu⟩
  | mono =>
    by_cases hc : storedCounter s.cfg s.nv = 2 ^ 32 - 1
    · exact .inl ⟨rfl, hc, generateTime_exhausted hsrc hl hc⟩
    · exact .inr ⟨_, _, _, _, _, generateTime_mono_eq hsrc hl hc⟩

/-- A triggering poll faults with COUNTER_EXHAUSTED, or leaves what a generation leaves. -/
theorem exec_ctlPoll_triggers {b : Byte} {s : State} (hrun : s.halted = false) (hr : reservedBitsSet b = false)
    (ht : triggers b s = true) (hl : LegalLayout s.cfg) :
    (s.cfg.timeSrc = .mono ∧ storedCounter s.cfg s.nv = 2 ^ 32 - 1 ∧
      exec (.ctlPoll b) s = .next (takeFault .counterExhausted Opcode.ctlPoll s)) ∨
    ∃ c answers draws nv log,
      exec (.ctlPoll b) s = .next (afterGeneration s (timed c answers draws nv log s)) := by
  have hbody := poll_generate hr ht hl
  rcases generateTime_exhausted_or_timed hl with ⟨hsrc, hc, hu⟩ | ⟨c, answers, draws, nv, log, hu⟩
  · rw [hu, error_bind] at hbody
    exact .inl ⟨hsrc, hc, exec_raise (i := .ctlPoll b) hrun rfl hbody⟩
  · rw [hu, ok_bind] at hbody
    exact .inr ⟨c, answers, draws, nv, log, exec_ok (i := .ctlPoll b) hrun rfl hbody⟩

/-! ## HOLD after any frame (R131) -/

theorem afterGeneration_hold {s u : State} (h : generateTime s = .ok u) : (afterGeneration s u).hold = s.cfg.holdArm := by
  show u.cfg.holdArm = _
  rw [generateTime_cfg h]

/-- Outside `Waiting`, and with a request pending, no poll triggers. -/
theorem hold_ite_of_no_trigger {b : Byte} {s : State} (h : ¬ (s.cstate = .waiting ∧ s.tsetPend = false)) :
    (if triggers b s = true then s.cfg.holdArm else countDown s.hold) = countDown s.hold :=
  if_neg fun ht =>
    have ⟨hc, hp, _, _⟩ := triggers_iff.1 ht
    h ⟨hc, hp⟩

/-- The hold-counter after a poll that ends well, row by row. -/
theorem ctlPollBody_hold {b : Byte} {s t : State} (hl : LegalLayout s.cfg) (h : ctlPollBody b s = .ok t) :
    t.hold = if triggers b s = true then s.cfg.holdArm else countDown s.hold := by
  obtain ⟨-, ⟨hc, rfl⟩ | ⟨-, hp, rfl⟩ | ⟨ht, u, hu, rfl⟩ | ⟨-, -, ht, rfl⟩ | ⟨hc, rfl⟩ | ⟨hc, -, rfl⟩ |
    ⟨hc, -, -, rfl⟩ | ⟨hc, rfl⟩⟩ := poll_cases hl h
  case inr.inr.inl => rw [if_pos ht, afterGeneration_hold hu]
  case inr.inr.inr.inl =>
    rw [if_neg (Bool.eq_false_iff.1 ht)]
    rfl
  case inr.inl =>
    rw [hold_ite_of_no_trigger fun hw => by simp [hp] at hw]
    rfl
  all_goals
    rw [hold_ite_of_no_trigger fun hw => by simp [hc] at hw]
    rfl

theorem tcBcdBody_hold (b : ClockBytes) (s : State) : (tcBcdBody b s).hold = s.hold := by
  obtain ⟨c, -, h⟩ := tcBcdBody_eq b s
  rw [h, setTime_hold]

theorem tcMonoBody_hold {s t : State} (h : tcMonoBody s = .ok t) : t.hold = s.hold := by
  obtain ⟨-, -, rfl⟩ := tcMonoBody_eq_ok h
  rw [storeCells_hold, setTime_hold]

theorem hostProvisionBody_hold {secret : List Byte} {s t : State} (hl : LegalLayout s.cfg)
    (h : hostProvisionBody secret s = .ok t) : t.hold = s.hold := by
  by_cases hlen : 1 ≤ secret.length ∧ secret.length ≤ 64
  · cases (hostProvision_accepted hlen hl).symm.trans h
    rfl
  · cases (hostProvision_rejected hlen).symm.trans h
    rfl

theorem hostSetTimeBody_hold (b : ClockBytes) (s : State) : (hostSetTimeBody b s).hold = s.hold := by
  unfold hostSetTimeBody
  split <;> rfl

theorem hostSetCounterBody_hold {cval : Word} {s t : State} (hl : LegalLayout s.cfg)
    (h : hostSetCounterBody cval s = .ok t) : t.hold = s.hold := by
  cases hsrc : s.cfg.timeSrc with
  | mono =>
    cases (hostSetCounter_mono hsrc hl).symm.trans h
    rfl
  | ext =>
    cases (hostSetCounter_ext hsrc).symm.trans h
    rfl

/-- The pseudocode of every frame but the poll keeps `HOLD`. -/
theorem bodyOf_hold {i : Instr} {s t : State} (hl : LegalLayout s.cfg) (hi : ∀ b, i ≠ .ctlPoll b)
    (h : bodyOf i s = .ok t) : t.hold = s.hold := by
  cases i with
  | shaReset =>
    cases h
    rfl
  | shaUpdate data =>
    obtain ⟨-, -, rfl⟩ := absorbState_eq_ok h
    rfl
  | shaDigest =>
    obtain ⟨-, rfl⟩ := shaDigestBody_eq_ok h
    rfl
  | macInit key =>
    obtain ⟨-, rfl⟩ := macInitBody_eq_ok h
    rfl
  | macUpdate data =>
    obtain ⟨-, hok⟩ := macUpdateBody_eq_ok h
    obtain ⟨-, -, rfl⟩ := absorbState_eq_ok hok
    rfl
  | macFinal key =>
    obtain ⟨-, -, -, rfl⟩ := macFinalBody_eq_ok h
    rfl
  | otpTrunc =>
    obtain ⟨-, rfl⟩ := otpTruncBody_eq_ok h
    rfl
  | tcBcd b =>
    cases h
    exact tcBcdBody_hold b s
  | tcMono => exact tcMonoBody_hold h
  | ctlPoll b => exact absurd rfl (hi b)
  | hostProvision secret => exact hostProvisionBody_hold hl h
  | hostSetTime b =>
    cases h
    exact hostSetTimeBody_hold b s
  | hostSetCounter cval => exact hostSetCounterBody_hold hl h

/-- A frame of a running CORE that leaves `FAULT` as it was ran its pseudocode to its end. -/
theorem bodyOf_ok_of_fault_eq {i : Instr} {s t : State} (hrun : s.halted = false) (h : exec i s = .next t)
    (hfault : t.fault = s.fault) : bodyOf i s = .ok t := by
  have ht : t.halted = false := halted_of_fault hfault hrun
  rcases exec_next h with ⟨hhalt, -⟩ | ⟨-, c, rfl⟩ | ⟨-, -, hok⟩
  · simp [hrun] at hhalt
  · simp at ht
  · exact hok

end Sys2Proof.Machine

namespace Sys2Proof

open Machine Safety

/-- Settles O48: the pseudocode raises nothing, and the strap HAS_SET_TIME decides its branch. -/
theorem hostSetTimeRequestsTheClock : Obligations.HostSetTimeRequestsTheClock := by
  unfold Obligations.HostSetTimeRequestsTheClock
  intro s b hrun
  rw [exec_hostSetTime b hrun]
  refine ⟨fun h => ?_, fun h => ?_⟩
  · rw [hostSetTimeBody_accepted b h]
  · rw [hostSetTimeBody_rejected b h]

/-- Settles O38: the equation of the poll's pseudocode in each state; the key-down report of a digit is `keyDown_digit`. -/
theorem pollTransitions : Obligations.PollTransitions := by
  unfold Obligations.PollTransitions
  intro s b hrun hb hcfg pressed slot link hold
  have hr := reservedBitsSet_of_lt hb
  refine ⟨fun hc hlink => ?_, fun hc hlink => ?_, fun hc hp => ?_, fun hc hp hpressed hh => ?_, fun hc hp hquiet => ?_,
    fun hc => ?_, fun hi hc hslot hlo hhi => ?_, fun hc hslot => ?_, fun hc hslot hi => ?_, fun hc hslot hi => ?_,
    fun hc hslot => ?_⟩
  · exact exec_ctlPoll_unarmed hrun (poll_idle_link hr hc hlink)
  · exact exec_ctlPoll_unarmed hrun (poll_idle_noLink hr hc hlink)
  · exact exec_ctlPoll_unarmed hrun (poll_waiting_pending hr hc hp)
  · have ht := triggers_iff_bits.2 ⟨hc, hp, hpressed, hh⟩
    rcases exec_ctlPoll_triggers hrun hr ht (legalLayout hcfg) with hexhausted | ⟨c, answers, draws, nv, log, h⟩
    · exact .inl hexhausted
    · exact .inr ⟨_, h, rfl, rfl, rfl, rfl, rfl, rfl, rfl⟩
  · have ht : triggers b s = false := by
      refine Bool.eq_false_iff.2 fun ht => hquiet ?_
      obtain ⟨-, -, hpressed, hh⟩ := triggers_iff_bits.1 ht
      exact ⟨hpressed, hh⟩
    exact exec_ctlPoll_unarmed hrun (poll_waiting_quiet hr hc hp ht)
  · exact exec_ctlPoll_unarmed hrun (poll_settingTime hr hc)
  · rw [← keyDown_digit ⟨hlo, hhi⟩]
    exact exec_ctlPoll_unarmed hrun (poll_sending_slot hr hc hslot hi)
  · exact exec_ctlPoll_unarmed hrun (poll_sending_noSlot hr hc (Bool.eq_false_iff.2 hslot))
  · exact exec_ctlPoll_unarmed hrun (poll_releasing_slot_more hr hc hslot hi)
  · exact exec_ctlPoll_unarmed hrun (poll_releasing_slot_last hr hc hslot hi)
  · exact exec_ctlPoll_unarmed hrun (poll_releasing_noSlot hr hc hslot)

/-- Settles O39: a frame that does not fault ran its pseudocode, and only a poll's pseudocode writes `HOLD`. -/
theorem holdCountsPollsOnly : Obligations.HoldCountsPollsOnly := by
  unfold Obligations.HoldCountsPollsOnly
  intro i s t hcfg hrun h hfault
  have hl := legalLayout hcfg
  have hok := bodyOf_ok_of_fault_eq hrun h hfault
  refine ⟨?_, fun hi => bodyOf_hold hl hi hok⟩
  rintro b rfl
  exact (ctlPollBody_hold hl hok).trans (if_congr triggers_iff_bits rfl rfl)

end Sys2Proof
end

section
/-! The halted CORE and fault entry (60_exceptions.md R149, R151). A frame that ends in a next state did nothing, took a fault or
ran its pseudocode, and only `takeFault` writes `FAULT`. -/

namespace Sys2Proof.Machine

open Safety

theorem halted_iff {s : State} : s.halted = true ↔ s.fcode ≠ 0 := bne_iff_ne

theorem not_halted_iff {s : State} : s.halted = false ↔ s.fcode = 0 := by
  rw [← Bool.not_eq_true, halted_iff, not_not]

/-- `STATUS[7]` is `FAULTED` (10_state.md R37). -/
theorem status_faulted (s : State) : s.status.getLsbD 7 = s.halted := by
  obtain ⟨-, -, -, -, -, h, -⟩ := status_fields s
  exact h

theorem illegalFrame_halted (opc : Byte) {s : State} (h : s.halted = true) : illegalFrame opc s = .next s := runFrame_halted h

/-- R151: a halted CORE takes a frame, an illegal one included, off the stream and does nothing with it. -/
theorem frameStep_halted {f : StreamFrame} {rest : List Byte} {s : State} (h : s.halted = true) (hf : f.wellFormed = true)
    (hstream : s.stream = encodeFrame f ++ rest) : frameStep s = .next (s.consume rest) := by
  rw [frameStep, hstream, decode_encodeFrame_append rest hf]
  cases f with
  | instr i => exact exec_halted (s := s.consume rest) h
  | illegal opc => exact illegalFrame_halted opc (s := s.consume rest) h

/-- The numbers of R147. -/
theorem faultCode_byte_range (c : FaultCode) : 1 ≤ c.byte ∧ c.byte ≤ 9 := by
  cases c <;> decide

/-- A frame that changes `FAULT` found the CORE running, and took a fault. -/
theorem takeFault_of_fault_ne {i : Instr} {s t : State} (h : exec i s = .next t) (hne : t.fault ≠ s.fault) :
    s.halted = false ∧ ∃ c, t = takeFault c i.opcode s := by
  rcases exec_next h with ⟨-, rfl⟩ | hfault | ⟨-, -, hok⟩
  · exact absurd rfl hne
  · exact hfault
  · exact absurd (bodyOf_keeps hok).fault hne

/-- The same of an illegal opcode. -/
theorem takeFault_of_illegalFrame_fault_ne {opc : Byte} {s t : State} (h : illegalFrame opc s = .next t)
    (hne : t.fault ≠ s.fault) : s.halted = false ∧ t = takeFault .illegalOpcode opc s := by
  cases hs : s.halted with
  | true =>
    cases (illegalFrame_halted opc hs).symm.trans h
    exact absurd rfl hne
  | false =>
    cases (illegalFrame_faults opc hs).symm.trans h
    exact ⟨rfl, rfl⟩

/-- After a fault the CORE stays as the fault left it, whatever frames follow. -/
theorem status_faulted_of_takeFault {c : FaultCode} {opc : Byte} {s u : State} {is : List Instr}
    (h : runFrames is (takeFault c opc s) = .next u) : u.status.getLsbD 7 = true := by
  cases (runFrames_halted (takeFault_halted c opc s)).symm.trans h
  exact (status_faulted _).trans (takeFault_halted c opc s)

end Sys2Proof.Machine

namespace Sys2Proof

open Machine

/-- Settles O11: the check of R148 (0), for a frame and through the stream; power-on reset writes `FAULT` as at reset. -/
theorem haltedCoreDoesNothing : Obligations.HaltedCoreDoesNothing := by
  unfold Obligations.HaltedCoreDoesNothing
  intro s hs
  have hhalted : s.halted = true := halted_iff.2 hs
  refine ⟨fun i => exec_halted hhalted, fun f rest hcfg hpower hf hstream => ?_, rfl, rfl⟩
  rw [step_eq_frameStep hcfg hpower, frameStep_halted hhalted hf hstream]
  rfl

/-- Settles O13: a changed `FAULT` is `takeFault`'s, which writes no other field and halts the CORE. -/
theorem faultsArePrecise : Obligations.FaultsArePrecise := by
  unfold Obligations.FaultsArePrecise
  refine ⟨fun i s t h hne => ?_, fun opc s t h hne => ?_⟩
  · obtain ⟨hrun, c, rfl⟩ := takeFault_of_fault_ne h hne
    obtain ⟨hlo, hhi⟩ := faultCode_byte_range c
    exact ⟨not_halted_iff.1 hrun, takeFault_fopc .., ⟨c.byte, hlo, hhi, takeFault_fcode .., rfl⟩,
      fun is u hu => status_faulted_of_takeFault hu⟩
  · obtain ⟨hrun, rfl⟩ := takeFault_of_illegalFrame_fault_ne h hne
    exact ⟨not_halted_iff.1 hrun, rfl, takeFault_fopc .., takeFault_fcode .., fun is u hu => status_faulted_of_takeFault hu⟩

end Sys2Proof
end

section
/-! The order of the checks (60_exceptions.md R148). `bodyOf_endsWith` compares each pseudocode with the causes R147 lists, and
`exec_faultOf` puts the common checks before it. -/

namespace Sys2Proof.Machine

open Safety

/-- A pseudocode raises the given fault, or, when none is given, ends in a next state. -/
def EndsWith (x : Except Stop State) : Option FaultCode → Prop
  | some c => x = .error (.raise c)
  | none => ∃ t, x = .ok t

/-- One test of R148 after another. -/
theorem EndsWith.ite {p : Prop} [Decidable p] {x : Except Stop State} {o o' : Option FaultCode} (hp : p → EndsWith x o)
    (hn : ¬ p → EndsWith x o') : EndsWith x (if p then o else o') := by
  by_cases h : p
  · rw [if_pos h]
    exact hp h
  · rw [if_neg h]
    exact hn h

/-! ## HashEngine and MacEngine -/

theorem absorbState_raise {data : List Byte} {s : State} {c : FaultCode} (h : absorb data s.hash = .error (.raise c)) :
    absorbState data s = .error (.raise c) := by
  rw [absorbState_eq, h, error_bind]

/-- The two tests of ABSORB, in their order (40_sha1.md R93). -/
theorem absorbState_endsWith (data : List Byte) (s : State) : EndsWith (absorbState data s) (ownFault (.shaUpdate data) s) := by
  refine .ite (fun hphase => absorbState_raise (absorb_not_active hphase)) fun hphase => ?_
  have hactive : s.hash.phase = .active := not_not.1 hphase
  exact .ite (fun hlong => absorbState_raise (absorb_overflow hactive hlong))
    fun hfits => ⟨_, absorbState_ok hactive (Nat.not_lt.1 hfits)⟩

theorem shaDigestBody_raise {s : State} (h : s.hash.phase ≠ .active) :
    shaDigestBody s = .error (.raise .hashNotActive) := by
  rw [shaDigestBody, finalize_not_active h, error_bind]

theorem shaDigestBody_endsWith (s : State) : EndsWith (shaDigestBody s) (ownFault .shaDigest s) :=
  .ite shaDigestBody_raise fun hphase => ⟨_, shaDigestBody_ok (not_not.1 hphase)⟩

theorem macInitBody_endsWith (key : List Byte) (s : State) : EndsWith (macInitBody key s) (ownFault (.macInit key) s) :=
  .ite (fun hlong => if_pos hlong) fun hfits => ⟨_, macInitBody_ok (Nat.not_lt.1 hfits)⟩

/-- In `INNER` the hash is active (41_hmac.md R106), so MAC_UPDATE's own test leaves ABSORB the length alone. -/
theorem macUpdateBody_endsWith (data : List Byte) {s : State} (hinv : Inv s) :
    EndsWith (macUpdateBody data s) (ownFault (.macUpdate data) s) := by
  refine .ite (fun hphase => if_pos hphase) fun hphase => ?_
  have hinner : s.mphase = .inner := not_not.1 hphase
  have habsorb := absorbState_endsWith data s
  rw [ownFault, if_neg (not_not.2 (hinv.innerIsActive hinner))] at habsorb
  rwa [macUpdateBody_inner hinner]

theorem macFinalBody_endsWith (key : List Byte) {s : State} (hinv : Inv s) :
    EndsWith (macFinalBody key s) (ownFault (.macFinal key) s) := by
  refine .ite (fun hlong => if_pos hlong) fun hfits => ?_
  refine .ite (fun hphase => (if_neg hfits).trans (if_pos hphase)) fun hphase => ?_
  have hinner : s.mphase = .inner := not_not.1 hphase
  exact ⟨_, macFinalBody_ok (Nat.not_lt.1 hfits) hinner (hinv.innerIsActive hinner)⟩

/-! ## OtpCodec and TimeCounter -/

theorem otpTruncBody_endsWith (s : State) : EndsWith (otpTruncBody s) (ownFault .otpTrunc s) :=
  .ite (fun hvalid => ⟨_, otpTruncBody_ok hvalid⟩) fun hinvalid => if_pos (Bool.eq_false_iff.2 hinvalid)

theorem wordAt_counterAddr_eq_max_iff (s : State) :
    wordAt (counterAddr s) s.nv = 0xFFFFFFFF ↔ storedCounter s.cfg s.nv = 2 ^ 32 - 1 := by
  rw [← wordAt_toNat, ← BitVec.toNat_inj]
  rfl

theorem tcMonoBody_endsWith {s : State} (hl : LegalLayout s.cfg) : EndsWith (tcMonoBody s) (ownFault .tcMono s) :=
  .ite (fun hmax => tcMonoBody_exhausted hl.timeInside ((wordAt_counterAddr_eq_max_iff s).2 hmax))
    fun hmax => ⟨_, tcMonoBody_ok hl.timeInside (mt (wordAt_counterAddr_eq_max_iff s).1 hmax)⟩

/-! ## TokenController and host channel -/

/-- A poll that does not trigger ends well in every row of R130; a key-down has a digit to type (44_controller.md R136). -/
theorem ctlPollBody_ok_of_not_triggers {b : Byte} {s : State} (hinv : Inv s) (hr : reservedBitsSet b = false)
    (ht : triggers b s = false) : ∃ t, ctlPollBody b s = .ok t := by
  cases hc : s.cstate with
  | idle => exact ⟨_, poll_idle hr hc⟩
  | waiting =>
    cases hp : s.tsetPend with
    | true => exact ⟨_, poll_waiting_pending hr hc hp⟩
    | false => exact ⟨_, poll_waiting_quiet hr hc hp ht⟩
  | settingTime => exact ⟨_, poll_settingTime hr hc⟩
  | sending =>
    cases hs : (pinsOf b).slot with
    | true => exact ⟨_, poll_sending_slot hr hc hs (Nat.lt_succ_of_le (hinv.idxSending hc))⟩
    | false => exact ⟨_, poll_sending_noSlot hr hc hs⟩
  | releasing => exact ⟨_, poll_releasing hr hc⟩

/-- The one fault of a poll's pseudocode is the exhausted counter of its generation. -/
theorem ctlPollBody_endsWith {b : Byte} {s : State} (hinv : Inv s) (hl : LegalLayout s.cfg) (hr : reservedBitsSet b = false) :
    EndsWith (ctlPollBody b s) (ownFault (.ctlPoll b) s) := by
  refine .ite (fun ⟨ht, hsrc, hmax⟩ => ?_) fun hother => ?_
  · show ctlPollBody b s = _
    rw [poll_generate hr ht hl, generateTime_exhausted hsrc hl hmax, error_bind]
  · cases ht : triggers b s with
    | false => exact ctlPollBody_ok_of_not_triggers hinv hr ht
    | true =>
      rcases generateTime_exhausted_or_timed hl with ⟨hsrc, hmax, -⟩ | ⟨c, answers, draws, nv, log, hu⟩
      · exact absurd ⟨ht, hsrc, hmax⟩ hother
      · exact ⟨_, by rw [poll_generate hr ht hl, hu, ok_bind]⟩

theorem hostProvisionBody_ok (secret : List Byte) {s : State} (hl : LegalLayout s.cfg) :
    ∃ t, hostProvisionBody secret s = .ok t := by
  by_cases hlen : 1 ≤ secret.length ∧ secret.length ≤ 64
  · exact ⟨_, hostProvision_accepted hlen hl⟩
  · exact ⟨_, hostProvision_rejected hlen⟩

theorem hostSetCounterBody_ok (cval : Word) {s : State} (hl : LegalLayout s.cfg) :
    ∃ t, hostSetCounterBody cval s = .ok t := by
  cases hsrc : s.cfg.timeSrc with
  | ext => exact ⟨_, hostSetCounter_ext hsrc⟩
  | mono => exact ⟨_, hostSetCounter_mono hsrc hl⟩

/-! ## Every frame -/

theorem reservedBad_ctlPoll (b : Byte) : reservedBad (.ctlPoll b) = reservedBitsSet b := by
  revert b
  decide

/-- R148 (4): the pseudocode of a frame whose reserved bits are 0 raises the fault R147 lists for it, or ends well. -/
theorem bodyOf_endsWith {i : Instr} {s : State} (hinv : Inv s) (hl : LegalLayout s.cfg) (hr : reservedBad i = false) :
    EndsWith (bodyOf i s) (ownFault i s) := by
  cases i with
  | shaReset => exact ⟨_, rfl⟩
  | shaUpdate data => exact absorbState_endsWith data s
  | shaDigest => exact shaDigestBody_endsWith s
  | macInit key => exact macInitBody_endsWith key s
  | macUpdate data => exact macUpdateBody_endsWith data hinv
  | macFinal key => exact macFinalBody_endsWith key hinv
  | otpTrunc => exact otpTruncBody_endsWith s
  | tcBcd b => exact ⟨_, rfl⟩
  | tcMono => exact tcMonoBody_endsWith hl
  | ctlPoll b => exact ctlPollBody_endsWith hinv hl ((reservedBad_ctlPoll b).symm.trans hr)
  | hostProvision secret => exact hostProvisionBody_ok secret hl
  | hostSetTime b => exact ⟨_, rfl⟩
  | hostSetCounter cval => exact hostSetCounterBody_ok cval hl

/-- R148 (2). -/
theorem exec_reservedBad {i : Instr} {s : State} (hrun : s.halted = false) (h : reservedBad i = true) :
    exec i s = .next (takeFault .reservedBits i.opcode s) := by
  cases i with
  | ctlPoll b => exact exec_ctlPoll_reserved hrun ((reservedBad_ctlPoll b).symm.trans h)
  | _ => exact absurd h Bool.false_ne_true

/-- A frame takes the given fault, or, when none is given, ends in a next state with `FAULT` as it was. -/
def FrameEndsWith (i : Instr) (s : State) : Option FaultCode → Prop
  | some c => exec i s = .next (takeFault c i.opcode s)
  | none => ∃ t, exec i s = .next t ∧ t.fault = s.fault

/-- A frame the common checks let through ends as its pseudocode does. -/
theorem FrameEndsWith.of_body {i : Instr} {s : State} {o : Option FaultCode} (hrun : s.halted = false)
    (hfree : (engineFrame i && s.emitting) = false) (h : EndsWith (bodyOf i s) o) : FrameEndsWith i s o := by
  cases o with
  | some c => exact exec_raise hrun hfree h
  | none =>
    obtain ⟨t, ht⟩ := h
    exact ⟨t, exec_ok hrun hfree ht, (bodyOf_keeps ht).fault⟩

/-- R148 (2), (3), (4): the first check that applies decides. -/
theorem exec_faultOf {i : Instr} {s : State} (hinv : Inv s) (hl : LegalLayout s.cfg) (hrun : s.halted = false) :
    FrameEndsWith i s (faultOf i s) := by
  unfold faultOf
  split
  · next hbad => exact exec_reservedBad hrun hbad
  · next hgood =>
    split
    · next hbusy =>
      obtain ⟨heng, hcycle⟩ := hbusy
      exact exec_engineFrame_busy hrun (emitting_iff.2 hcycle) heng
    · next hfree =>
      have hfree : (engineFrame i && s.emitting) = false := by
        rwa [← emitting_iff, ← Bool.and_eq_true, Bool.not_eq_true] at hfree
      exact .of_body hrun hfree (bodyOf_endsWith hinv hl (Bool.eq_false_iff.2 hgood))

end Sys2Proof.Machine

namespace Sys2Proof

open Machine

/-- Settles O14: the checks (0) and (1) by the equations of the halted CORE and of the illegal opcode, the others by
`exec_faultOf`. -/
theorem firstCheckThatAppliesDecides : Obligations.FirstCheckThatAppliesDecides := by
  unfold Obligations.FirstCheckThatAppliesDecides
  refine ⟨⟨rfl, rfl, rfl, rfl, rfl, rfl, rfl, rfl, rfl⟩, fun i opc s hs => ?_, fun opc s hs => ?_,
    fun i s hinv hcfg hs => ?_⟩
  · have hhalted : s.halted = true := halted_iff.2 hs
    exact ⟨exec_halted hhalted, illegalFrame_halted opc hhalted⟩
  · exact illegalFrame_faults opc (not_halted_iff.2 hs)
  · have hends := exec_faultOf (i := i) hinv (legalLayout hcfg) (not_halted_iff.2 hs)
    refine ⟨fun c hc => ?_, fun hnone => ?_⟩
    · rw [hc] at hends
      exact hends
    · rw [hnone] at hends
      exact hends

end Sys2Proof
end

section
/-! Decoding against encoding (30_encoding.md R66 to R76): what the decoder answers is the frame at the head of the bytes, and a step
runs it. -/

namespace Sys2Proof

open Machine

/-- A frame the decoder answers is well-formed and stands at the head of the bytes: a frame does stand there, and the decoder answers
that one. -/
theorem frame_of_decode_eq {f : StreamFrame} {bs rest : List Byte} (h : decode bs = f.decoded rest) :
    f.wellFormed = true ∧ bs = encodeFrame f ++ rest := by
  rcases decode_incomplete_or_frameAtHead bs with hinc | ⟨g, rest', hg, rfl⟩
  · rw [hinc] at h
    cases f with
    | instr i => cases h
    | illegal opc => cases h
  · obtain ⟨rfl, rfl⟩ := StreamFrame.decoded_inj ((decode_encodeFrame_append rest' hg).symm.trans h)
    exact ⟨hg, rfl⟩

theorem decode_eq_incomplete_iff {bs : List Byte} : decode bs = .incomplete ↔ ¬ FrameAtHead bs := by
  constructor
  · rintro hinc ⟨f, rest, hf, rfl⟩
    rw [decode_encodeFrame_append rest hf] at hinc
    cases f with
    | instr i => cases hinc
    | illegal opc => cases hinc
  · exact (decode_incomplete_or_frameAtHead bs).resolve_right

/-- Settles O1: the operands of each format are read back by their decoder. -/
theorem decodeOfEncodeIsTheInstruction : Obligations.DecodeOfEncodeIsTheInstruction := by
  unfold Obligations.DecodeOfEncodeIsTheInstruction
  intro i rest h
  exact decode_encode_append rest h

/-- Settles O2: an answer is the frame at the head, and `incomplete` says that there is none. -/
theorem decodedBytesAreTheEncoding : Obligations.DecodedBytesAreTheEncoding := by
  unfold Obligations.DecodedBytesAreTheEncoding
  intro bs
  refine ⟨fun i rest h => frame_of_decode_eq (f := .instr i) h, fun opc rest h => ?_, ?_⟩
  · obtain ⟨hopc, hbs⟩ := frame_of_decode_eq (f := .illegal opc) h
    exact ⟨StreamFrame.illegal_wellFormed_iff.1 hopc, hbs⟩
  · rw [decode_eq_incomplete_iff]
    simp only [FrameAtHead, not_exists, not_and, ne_eq]

/-- Settles O5: each word by the decoder's own computation. -/
theorem writtenOutWordsDecode : Obligations.WrittenOutWordsDecode := by
  unfold Obligations.WrittenOutWordsDecode
  exact ⟨rfl, rfl, rfl, rfl, rfl, rfl, rfl, rfl, rfl, rfl, rfl⟩

/-- Settles O7: the decoder answers the frame at the head of the stream. -/
theorem stepRunsTheDecodedFrame : Obligations.StepRunsTheDecodedFrame := by
  unfold Obligations.StepRunsTheDecodedFrame
  intro s i rest hcfg hpower hi hstream
  rw [step_eq_frameStep hcfg hpower, frameStep, hstream, decode_encode_append rest hi]
  rfl

end Sys2Proof
end

section
/-! Sequences of SHA_UPDATE frames (10_state.md R41, 40_sha1.md R96, R98, R99). Each frame is ABSORB on the HashEngine, so a sequence
that fits absorbs its bytes at once, and one that does not ends in LEN_OVERFLOW. -/

namespace Sys2Proof.Machine

open Reference Safety

/-- Updates whose bytes fit the bit count leave what one ABSORB of all the bytes leaves. -/
theorem runFrames_shaUpdates {parts : List (List Byte)} {s : State} (hs : engineReady s) (hp : s.hash.phase = .active)
    (hfit : s.hash.bits.toNat + 8 * parts.flatten.length ≤ 0xFFFF) :
    ∃ e, absorb parts.flatten s.hash = .ok e ∧ runFrames (parts.map .shaUpdate) s = .next { s with hash := e } := by
  induction parts generalizing s with
  | nil => exact ⟨s.hash, absorb_nil hp, rfl⟩
  | cons part parts ih =>
    rw [List.flatten_cons, List.length_append] at hfit
    have hwhole := absorb_ok (data := part ++ parts.flatten) hp (by rwa [List.length_append])
    obtain ⟨e, hpart, hrest⟩ := bind_ok ((absorb_append hfit).symm.trans hwhole)
    obtain ⟨hactive, hlen, -⟩ := absorb_eq_ok hrest
    obtain ⟨e', habsorb, hrun⟩ := ih (s := { s with hash := e }) hs hactive hlen
    refine ⟨e', ?_, ?_⟩
    · rw [List.flatten_cons, absorb_append hfit, hpart, ok_bind, habsorb]
    · rw [List.map_cons, runFrames_cons (exec_shaUpdate_ok hs hpart), hrun]

/-- The updates of a HashEngine that holds `m`, while the bytes fit. -/
theorem runFrames_shaUpdates_holding {parts : List (List Byte)} {m : List Byte} {s : State} (hs : engineReady s)
    (hm : s.hash = hashHolding m) (hfit : m.length + parts.flatten.length ≤ 8191) :
    runFrames (parts.map .shaUpdate) s = .next { s with hash := hashHolding (m ++ parts.flatten) } := by
  have habsorb := absorb_holding hfit
  obtain ⟨hp, hlen, -⟩ := absorb_eq_ok habsorb
  obtain ⟨e, he, hrun⟩ := runFrames_shaUpdates (parts := parts) hs (hm ▸ hp) (hm ▸ hlen)
  rw [hm, habsorb] at he
  cases he
  exact hrun

/-- The bit count of a held message of at most 8191 bytes does not wrap. -/
theorem hashHolding_bits {m : List Byte} (h : m.length ≤ 8191) : (hashHolding m).bits.toNat = 8 * m.length := by
  simp only [hashHolding, BitVec.toNat_ofNat]
  omega

theorem absorb_holding_overflow {m data : List Byte} (hm : m.length ≤ 8191) (h : 8191 < m.length + data.length) :
    absorb data (hashHolding m) = .error (.raise .lenOverflow) :=
  absorb_overflow rfl (by rw [hashHolding_bits hm]; omega)

/-- Updates that do not fit: the first that overflows takes the fault, and the halted CORE does nothing with the others. -/
theorem runFrames_shaUpdates_overflow {parts : List (List Byte)} {m : List Byte} {s : State} (hs : engineReady s)
    (hm : s.hash = hashHolding m) (hlen : m.length ≤ 8191) (hlong : 8191 < m.length + parts.flatten.length) :
    ∃ e, runFrames (parts.map .shaUpdate) s = .next (takeFault .lenOverflow Opcode.shaUpdate { s with hash := e }) := by
  induction parts generalizing s m with
  | nil =>
    rw [List.flatten_nil, List.length_nil] at hlong
    omega
  | cons part parts ih =>
    rw [List.flatten_cons, List.length_append] at hlong
    rw [List.map_cons]
    by_cases hfit : m.length + part.length ≤ 8191
    · rw [runFrames_cons (exec_shaUpdate_holding hs hm hfit)]
      exact ih (s := { s with hash := hashHolding (m ++ part) }) hs rfl (by rwa [List.length_append])
        (by rw [List.length_append]; omega)
    · have hraise : exec (.shaUpdate part) s = .next (takeFault .lenOverflow Opcode.shaUpdate s) :=
        exec_shaUpdate_raise hs (by rw [hm]; exact absorb_holding_overflow hlen (Nat.not_le.1 hfit))
      exact ⟨s.hash, by rw [runFrames_cons hraise, runFrames_halted (takeFault_halted ..)]⟩

theorem exec_shaReset {s : State} (hs : engineReady s) : exec .shaReset s = .next (shaResetBody s) :=
  exec_ready (i := .shaReset) hs rfl

/-- SHA_RESET leaves the HashEngine holding the empty message. -/
theorem shaResetBody_holds (s : State) : (shaResetBody s).hash = hashHolding [] := hashReset_holds

/-! ## Two runs from a reset (R99) -/

/-- Two states in which a HashEngine frame does the same: equal HashEngines and phases, the same fault code, no emission cycle. -/
structure SameHash (s s' : State) : Prop where
  hash : s.hash = s'.hash
  mphase : s.mphase = s'.mphase
  fcode : s.fcode = s'.fcode
  emitting : s.emitting = false
  emitting' : s'.emitting = false

theorem SameHash.halted_eq {s s' : State} (h : SameHash s s') : s.halted = s'.halted := by
  rw [State.halted, State.halted, h.fcode]

/-- Both are ready, or both are halted. -/
theorem SameHash.ready_or_halted {s s' : State} (h : SameHash s s') :
    (engineReady s ∧ engineReady s') ∨ (s.halted = true ∧ s'.halted = true) := by
  cases hs : s.halted with
  | false => exact .inl ⟨⟨hs, h.emitting⟩, h.halted_eq ▸ hs, h.emitting'⟩
  | true => exact .inr ⟨rfl, h.halted_eq ▸ hs⟩

theorem SameHash.takeFault {s s' : State} (h : SameHash s s') (c : FaultCode) (opc : Byte) :
    SameHash (takeFault c opc s) (takeFault c opc s') :=
  ⟨h.hash, h.mphase, by rw [takeFault_fcode, takeFault_fcode], h.emitting, h.emitting'⟩

/-- ABSORB never stops the model. -/
theorem absorb_ok_or_raise (data : List Byte) (e : HashEngine) :
    (∃ e', absorb data e = .ok e') ∨ ∃ c, absorb data e = .error (.raise c) := by
  by_cases hp : e.phase = .active
  · by_cases hfit : e.bits.toNat + 8 * data.length ≤ 0xFFFF
    · exact .inl ⟨_, absorb_ok hp hfit⟩
    · exact .inr ⟨_, absorb_overflow hp (Nat.not_le.1 hfit)⟩
  · exact .inr ⟨_, absorb_not_active hp⟩

theorem SameHash.shaUpdate {s s' : State} (h : SameHash s s') (data : List Byte) :
    ∃ t t', exec (.shaUpdate data) s = .next t ∧ exec (.shaUpdate data) s' = .next t' ∧ SameHash t t' := by
  rcases h.ready_or_halted with ⟨hs, hs'⟩ | ⟨hs, hs'⟩
  · rcases absorb_ok_or_raise data s.hash with ⟨e, he⟩ | ⟨c, hc⟩
    · exact ⟨_, _, exec_shaUpdate_ok hs he, exec_shaUpdate_ok hs' (h.hash ▸ he), rfl, h.mphase, h.fcode, h.emitting, h.emitting'⟩
    · exact ⟨_, _, exec_shaUpdate_raise hs hc, exec_shaUpdate_raise hs' (h.hash ▸ hc), h.takeFault c _⟩
  · exact ⟨s, s', exec_halted hs, exec_halted hs', h⟩

theorem SameHash.shaUpdates {s s' : State} (h : SameHash s s') (parts : List (List Byte)) :
    ∃ t t', runFrames (parts.map .shaUpdate) s = .next t ∧ runFrames (parts.map .shaUpdate) s' = .next t' ∧ SameHash t t' := by
  induction parts generalizing s s' with
  | nil => exact ⟨s, s', rfl, rfl, h⟩
  | cons part parts ih =>
    obtain ⟨u, u', hu, hu', hsame⟩ := h.shaUpdate part
    obtain ⟨t, t', ht, ht', hend⟩ := ih hsame
    exact ⟨t, t', (runFrames_cons hu).trans ht, (runFrames_cons hu').trans ht', hend⟩

/-- SHA_DIGEST writes the same digest in both, or faults in both. -/
theorem SameHash.shaDigest {s s' : State} (h : SameHash s s') :
    ∃ t t', exec .shaDigest s = .next t ∧ exec .shaDigest s' = .next t' ∧ SameHash t t' ∧
      (t.fcode = 0 → t.dout = t'.dout ∧ t.doutValid = true ∧ t'.doutValid = true) := by
  rcases h.ready_or_halted with ⟨hs, hs'⟩ | ⟨hs, hs'⟩
  · by_cases hp : s.hash.phase = .active
    · have hhash := h.hash
      refine ⟨_, _, exec_shaDigest_active hs hp, exec_shaDigest_active hs' (hhash ▸ hp),
        ⟨?_, rfl, h.fcode, h.emitting, h.emitting'⟩, fun _ => ⟨?_, rfl, rfl⟩⟩
      · exact congrArg finish hhash
      · exact congrArg (fun e => digestBytes (finish e).h) hhash
    · refine ⟨_, _, exec_shaDigest_not_active hs hp, exec_shaDigest_not_active hs' (h.hash ▸ hp), h.takeFault _ _, fun hcode => ?_⟩
      rw [takeFault_fcode] at hcode
      exact absurd hcode (by decide)
  · exact ⟨s, s', exec_halted hs, exec_halted hs', h, fun hcode => absurd hcode (halted_iff.1 hs)⟩

/-- SHA_RESET leaves two ready states the same HashEngine. -/
theorem sameHash_shaReset {s s' : State} (hs : engineReady s) (hs' : engineReady s') :
    SameHash (shaResetBody s) (shaResetBody s') :=
  ⟨rfl, rfl, (not_halted_iff.1 hs.1).trans (not_halted_iff.1 hs'.1).symm, hs.2, hs'.2⟩

end Sys2Proof.Machine

namespace Sys2Proof

open Machine Safety

/-- Settles O22: the frames make the HashEngine hold the message, chunk by chunk, and finalizing what it holds is SHA-1
(`finish_holding`); the first chunk beyond 8191 bytes overflows. -/
theorem sha1OfEveryMessage : Obligations.Sha1OfEveryMessage := by
  unfold Obligations.Sha1OfEveryMessage
  intro s m hs
  have hready : engineReady (shaResetBody s) := hs
  have hflat := chunks255_flatten m
  rw [Pseudo.expand, runFrames_cons (exec_shaReset hs)]
  refine ⟨fun hfit => ?_, fun hlong => ?_⟩
  · have hrun := runFrames_shaUpdates_holding (parts := chunks255 m) hready (shaResetBody_holds s) (by simpa [hflat] using hfit)
    rw [hflat, List.nil_append] at hrun
    have hdigest := exec_shaDigest_active (s := { shaResetBody s with hash := hashHolding m }) hs rfl
    exact ⟨_, (runFrames_append hrun).trans (runFrames_cons hdigest), finish_holding hfit, rfl, rfl⟩
  · obtain ⟨e, hrun⟩ := runFrames_shaUpdates_overflow (parts := chunks255 m) hready (shaResetBody_holds s) (Nat.zero_le _)
      (by simpa [hflat] using hlong)
    exact ⟨_, (runFrames_append hrun).trans (runFrames_halted (takeFault_halted ..)), rfl⟩

/-- Settles O17: both sequences absorb the same bytes. -/
theorem splitOfAMessageDoesNotMatter : Obligations.SplitOfAMessageDoesNotMatter := by
  unfold Obligations.SplitOfAMessageDoesNotMatter
  intro s parts parts' hs hp hsame hfit
  obtain ⟨e, he, hrun⟩ := runFrames_shaUpdates hs hp hfit
  obtain ⟨e', he', hrun'⟩ := runFrames_shaUpdates (parts := parts') hs hp (hsame ▸ hfit)
  rw [← hsame, he] at he'
  cases he'
  refine ⟨_, hrun, hrun', rfl, ?_⟩
  obtain ⟨-, -, rfl⟩ := absorb_eq_ok he
  exact (BitVec.toNat_ofNat ..).trans (Nat.mod_eq_of_lt (Nat.lt_succ_of_le hfit))

/-- Settles O18: both update frames are ABSORB on the held message. -/
theorem updatesExtendTheHeldMessage : Obligations.UpdatesExtendTheHeldMessage := by
  unfold Obligations.UpdatesExtendTheHeldMessage
  intro s m data hs hm hlen
  refine ⟨fun hfit => ?_, fun hlong => ?_⟩
  · exact ⟨exec_shaUpdate_holding hs hm hfit, fun hinner => exec_macUpdate_holding hs hinner hm hfit⟩
  · have hraise : absorb data s.hash = .error (.raise .lenOverflow) := hm ▸ absorb_holding_overflow hlen hlong
    exact ⟨exec_shaUpdate_raise hs hraise, fun hinner => exec_macUpdate_raise hs hinner hraise⟩

/-- Settles O23: from the reset on, the two runs keep equal HashEngines (`SameHash`). -/
theorem hashIsDeterministicFromReset : Obligations.HashIsDeterministicFromReset := by
  unfold Obligations.HashIsDeterministicFromReset
  intro s s' parts hs hs'
  obtain ⟨u, u', hu, hu', hsame⟩ := (sameHash_shaReset hs hs').shaUpdates parts
  obtain ⟨t, t', ht, ht', hend, hdigest⟩ := hsame.shaDigest
  refine ⟨t, t', ?_, ?_, hend.hash, hend.fcode, hend.mphase, hdigest⟩
  · rw [runFrames_cons (exec_shaReset hs), runFrames_append hu, runFrames_cons ht, runFrames_nil]
  · rw [runFrames_cons (exec_shaReset hs'), runFrames_append hu', runFrames_cons ht', runFrames_nil]

end Sys2Proof
end

section
/-! The block compression written out (40_sha1.md R86 to R90), from the schedule by index and the rounds as a fold. -/

namespace Sys2Proof.Machine

/-- The words of the schedule counted from the newest. -/
theorem schedule_getD (blk : Vector Byte 64) {t : Nat} (ht : t < 80) :
    (schedule blk).getD t 0 = (extendSchedule 64 (List.ofFn (loadWord blk)).reverse).getD (79 - t) 0 :=
  getD_reverse (by rw [extendSchedule_length, List.length_reverse, List.length_ofFn]) ht

/-- The first 16 words are the block's (R88). -/
theorem schedule_loaded (blk : Vector Byte 64) (t : Fin 16) : (schedule blk).getD t 0 = loadWord blk t := by
  have ht := t.isLt
  rw [schedule_getD blk (by omega), show 79 - t.val = 64 + (15 - t.val) by omega, extendSchedule_old,
    getD_reverse (List.length_ofFn) (by omega), show 16 - 1 - (15 - t.val) = t.val by omega, List.getD_eq_getElem _ _ (by simp)]
  exact List.getElem_ofFn ..

/-- Each later word from those 3, 8, 14 and 16 places before it (R88). -/
theorem schedule_recurrence (blk : Vector Byte 64) {t : Nat} (h16 : 16 ≤ t) (h80 : t < 80) :
    (schedule blk).getD t 0 = rotl 1 ((schedule blk).getD (t - 3) 0 ^^^ (schedule blk).getD (t - 8) 0 ^^^
      (schedule blk).getD (t - 14) 0 ^^^ (schedule blk).getD (t - 16) 0) := by
  rw [schedule_getD blk h80, extendSchedule_new 64 _ _ (by omega), schedule_getD blk (by omega), schedule_getD blk (by omega),
    schedule_getD blk (by omega), schedule_getD blk (by omega), show 79 - (t - 3) = 79 - t + 3 by omega,
    show 79 - (t - 8) = 79 - t + 8 by omega, show 79 - (t - 14) = 79 - t + 14 by omega,
    show 79 - (t - 16) = 79 - t + 16 by omega]

/-- The 80 rounds of a compression, by round number. -/
theorem rounds_schedule (blk : Vector Byte 64) (x : Working) :
    rounds 0 (schedule blk) x = (List.range 80).foldl (fun x t => shaRound t ((schedule blk).getD t 0) x) x := by
  rw [rounds_eq_fold, schedule_length]
  simp only [Nat.zero_add]

/-- The feedback of R90, from what the 80 rounds leave. -/
theorem compress_of_rounds {e : HashEngine} {x : Working} (h : rounds 0 (schedule e.blk) (startWorking e.h) = x) :
    compress e = { h := #v[e.h[0] + x.a, e.h[1] + x.b, e.h[2] + x.c, e.h[3] + x.d, e.h[4] + x.e],
                   blk := Vector.replicate 64 0, ofs := 0, bits := e.bits, phase := e.phase } := by
  subst h
  rfl

/-- One round with its rotations as rotations, `K_t` last but one as R89 writes the sum. -/
theorem shaRound_eq (t : Nat) (w : Word) (x : Working) :
    shaRound t w x =
      ⟨x.a.rotateLeft 5 + roundFunction t x.b x.c x.d + x.e + roundConstant t + w, x.a, x.b.rotateLeft 30, x.c, x.d⟩ := by
  rw [shaRound, rotl_eq (by decide), rotl_eq (by decide)]

end Sys2Proof.Machine

namespace Sys2Proof

open Machine

/-- Settles O19: the schedule by index. -/
theorem scheduleFollowsTheRecurrence : Obligations.ScheduleFollowsTheRecurrence := by
  unfold Obligations.ScheduleFollowsTheRecurrence
  intro blk
  refine ⟨schedule_length blk, schedule_loaded blk, fun t h16 h80 => ?_⟩
  rw [schedule_recurrence blk h16 h80, rotl_eq (by decide)]

/-- Settles O20: the rounds are a fold of `shaRound`, whose functions and constants are R86's and R87's by definition. -/
theorem compressionRunsEightyRounds : Obligations.CompressionRunsEightyRounds := by
  unfold Obligations.CompressionRunsEightyRounds
  intro e w round x
  have hround : (fun x t => shaRound t (w.getD t 0) x) = round := funext fun y => funext fun t => shaRound_eq t _ y
  have hx : rounds 0 (schedule e.blk) (startWorking e.h) = x := by
    rw [rounds_schedule, show x = (List.range 80).foldl round (startWorking e.h) from rfl, ← hround]
  exact compress_of_rounds hx

end Sys2Proof
end

section
/-! The value of a MAC (41_hmac.md R109, R110) and of an HOTP (42_otp.md R115): the frames of a MAC hash the inner message, whatever
its split, and MAC_FINAL hashes the outer one. -/

namespace Sys2Proof.Machine

open Reference Safety

/-- The frame that carries a part of a MAC's message: MAC_UPDATE or SHA_UPDATE (R108). -/
def messageFrame (part : Bool × List Byte) : Instr := if part.1 then .macUpdate part.2 else .shaUpdate part.2

/-- `s` with a MAC computation in progress whose inner hash holds `m`. -/
def inMac (m : List Byte) (s : State) : State := { s with hash := hashHolding m, mphase := .inner }

theorem exec_macInit_inMac {k : List Byte} {s : State} (hs : engineReady s) (hk : k.length ≤ 64) :
    exec (.macInit k) s = .next (inMac (keyBlock k ipad) s) := exec_macInit_ok hs hk

/-- In a MAC each message frame appends its part to the message held. -/
theorem exec_messageFrame {part : Bool × List Byte} {m : List Byte} {s : State} (hs : engineReady s)
    (hfit : m.length + part.2.length ≤ 8191) :
    exec (messageFrame part) (inMac m s) = .next (inMac (m ++ part.2) s) := by
  unfold messageFrame
  split
  · exact exec_macUpdate_holding (s := inMac m s) hs rfl rfl hfit
  · exact exec_shaUpdate_holding (s := inMac m s) hs rfl hfit

theorem runFrames_messageFrames {parts : List (Bool × List Byte)} {m : List Byte} {s : State} (hs : engineReady s)
    (hfit : m.length + (parts.map Prod.snd).flatten.length ≤ 8191) :
    runFrames (parts.map messageFrame) (inMac m s) = .next (inMac (m ++ (parts.map Prod.snd).flatten) s) := by
  induction parts generalizing m with
  | nil => simp
  | cons part parts ih =>
    rw [List.map_cons, List.flatten_cons, List.length_append] at hfit
    rw [List.map_cons, runFrames_cons (exec_messageFrame hs (by omega)), ih (by rw [List.length_append]; omega), List.map_cons,
      List.flatten_cons, List.append_assoc]

/-- The value of R109: the two key blocks are RFC 2104's. -/
theorem nestedMac_eq {inner outer m : List Byte} (h : (keyBlock inner ipad ++ m).length ≤ 8191) :
    sha1 (outerMessage outer (digestBytes (finish (hashHolding (keyBlock inner ipad ++ m))).h)) = nestedMac inner outer m := by
  rw [finish_holding h, outerMessage, keyBlock_eq, keyBlock_eq]
  rfl

/-- A MAC computation from its MAC_INIT to its MAC_FINAL. -/
theorem runFrames_mac {k k' : List Byte} {parts : List (Bool × List Byte)} {s : State} (hs : engineReady s) (hk : k.length ≤ 64)
    (hk' : k'.length ≤ 64) (hfit : (parts.map Prod.snd).flatten.length ≤ 8127) :
    ∃ e, e.phase = .final ∧ runFrames (.macInit k :: (parts.map messageFrame ++ [.macFinal k'])) s = .next { s with
      hash := e, mphase := .done, dout := nestedMac k k' (parts.map Prod.snd).flatten, doutValid := true } := by
  have hblock := keyBlock_length ipad hk
  have hmessage := runFrames_messageFrames (parts := parts) (m := keyBlock k ipad) hs (by omega)
  have hfinal := exec_ready (i := .macFinal k') (s := inMac (keyBlock k ipad ++ (parts.map Prod.snd).flatten) s) hs
    (macFinalBody_ok hk' rfl rfl)
  rw [inMac, nestedMac_eq (by rw [List.length_append]; omega)] at hfinal
  rw [runFrames_cons (exec_macInit_inMac hs hk), runFrames_append hmessage]
  exact ⟨_, finish_phase _, runFrames_cons hfinal⟩

theorem hmac_expand (k m : List Byte) :
    (Pseudo.hmac k m).expand =
      .macInit k :: (((chunks255 m).map (Prod.mk true)).map messageFrame ++ [.macFinal k]) := by
  rw [Pseudo.expand, List.map_map]
  rfl

theorem chunks255_parts_flatten (m : List Byte) : (((chunks255 m).map (Prod.mk true)).map Prod.snd).flatten = m := by
  rw [List.map_map, Function.comp_def, List.map_id', chunks255_flatten]

/-- The frames of `hmac K, M` (R110). -/
theorem runFrames_hmac {k m : List Byte} {s : State} (hs : engineReady s) (hk : k.length ≤ 64) (hm : m.length ≤ 8127) :
    ∃ e, runFrames (Pseudo.hmac k m).expand s = .next { s with
      hash := e, mphase := .done, dout := hmac k m, doutValid := true } := by
  obtain ⟨e, -, hrun⟩ := runFrames_mac (parts := (chunks255 m).map (Prod.mk true)) hs hk hk
    (by rwa [chunks255_parts_flatten])
  rw [chunks255_parts_flatten, ← hmac_expand] at hrun
  exact ⟨e, hrun⟩

/-- The message of `hotp K, c` is RFC 4226's counter. -/
theorem counterBytes_eq (c : Word) : counterBytes c.toNat = [0, 0, 0, 0] ++ be32 c := by
  have hc := c.isLt
  have hzero : ∀ k, 32 ≤ k → BitVec.ofNat 8 (c.toNat / 2 ^ k) = 0 := fun k hk => by
    rw [Nat.div_eq_of_lt (Nat.lt_of_lt_of_le hc (Nat.pow_le_pow_right (by decide) hk))]
    rfl
  have hbyte : ∀ k, BitVec.ofNat 8 (c.toNat / 2 ^ k) = c.extractLsb' k 8 := fun k => by
    apply BitVec.eq_of_toNat_eq
    rw [extract_byte_toNat, BitVec.toNat_ofNat]
  show [BitVec.ofNat 8 (c.toNat / 2 ^ 56), BitVec.ofNat 8 (c.toNat / 2 ^ 48), BitVec.ofNat 8 (c.toNat / 2 ^ 40),
    BitVec.ofNat 8 (c.toNat / 2 ^ 32), BitVec.ofNat 8 (c.toNat / 2 ^ 24), BitVec.ofNat 8 (c.toNat / 2 ^ 16),
    BitVec.ofNat 8 (c.toNat / 2 ^ 8), BitVec.ofNat 8 (c.toNat / 2 ^ 0)] = _
  rw [hzero 56 (by decide), hzero 48 (by decide), hzero 40 (by decide), hzero 32 (by decide), hbyte, hbyte, hbyte, hbyte]
  rfl

theorem hotp_expand (k : List Byte) (c : Word) :
    (Pseudo.hotp k c).expand = (Pseudo.hmac k (counterBytes c.toNat)).expand ++ [.otpTrunc] := by
  simp [counterBytes_eq, Pseudo.expand]

/-! ## The mask of OTP_TRUNC (42_otp.md R113) -/

theorem and_7FFFFFFF_toNat (p : Word) : (p &&& 0x7FFFFFFF).toNat = p.toNat % 2 ^ 31 := by
  rw [BitVec.toNat_and]
  exact Nat.and_two_pow_sub_one_eq_mod p.toNat 31

/-- The mask clears bit 31. -/
theorem truncWindow_mask (d : Digest) : truncWindow true d = truncWindow false d &&& 0x7FFFFFFF := by
  apply BitVec.eq_of_toNat_eq
  rw [and_7FFFFFFF_toNat, truncWindow, truncWindow, readBE32_toNat, readBE32_toNat, if_pos rfl, if_neg (by decide),
    and_7F_toNat]
  omega

/-- Bit 31 of the window without the mask is bit 7 of its first byte. -/
theorem truncWindow_high_iff (d : Digest) :
    2 ^ 31 ≤ (truncWindow false d).toNat ↔ (0x80 : Byte) ≤ d.toList.getD (d[19].toNat % 16) 0 := by
  have hlt := (d.toList.getD (d[19].toNat % 16 + 1) 0).isLt
  have hlt' := (d.toList.getD (d[19].toNat % 16 + 2) 0).isLt
  have hlt'' := (d.toList.getD (d[19].toNat % 16 + 3) 0).isLt
  have h80 : (0x80 : Byte).toNat = 0x80 := rfl
  simp only [truncWindow_toNat, truncate, BitVec.le_def, h80, Nat.add_zero, Bool.false_eq_true, if_false]
  omega

end Sys2Proof.Machine

namespace Sys2Proof

open Machine Safety

/-- Settles O27: `runFrames_mac`, with the parts in either update frame. -/
theorem macOfTwoKeys : Obligations.MacOfTwoKeys := by
  unfold Obligations.MacOfTwoKeys
  intro s k k' parts hs hk hk' hfit
  obtain ⟨e, he, hrun⟩ := runFrames_mac hs hk hk' hfit
  exact ⟨_, hrun, rfl, he, rfl⟩

/-- Settles O28: the MAC of one key over the chunks of the message. -/
theorem hmacOfEveryKeyAndMessage : Obligations.HmacOfEveryKeyAndMessage := by
  unfold Obligations.HmacOfEveryKeyAndMessage
  intro s k m hs hk hm
  obtain ⟨e, hrun⟩ := runFrames_hmac hs hk hm
  exact ⟨_, hrun, rfl, rfl⟩

/-- Settles O32: the frames of `hmac` over the counter, then OTP_TRUNC; the password renders the truncation as decimal digits. -/
theorem hotpOfEveryKeyAndCounter : Obligations.HotpOfEveryKeyAndCounter := by
  unfold Obligations.HotpOfEveryKeyAndCounter
  intro s k c hs hk
  have hcounter : (Reference.counterBytes c.toNat).length ≤ 8127 := by
    simp [counterBytes_eq]
  obtain ⟨e, hmac⟩ := runFrames_hmac hs hk hcounter
  have hready : ∀ d, engineReady { s with hash := e, mphase := .done, dout := d, doutValid := true } := fun _ => hs
  have htrunc := exec_otpTrunc_valid (hready (Reference.hmac k (Reference.counterBytes c.toNat))) rfl
  rw [hotp_expand, runFrames_append hmac, runFrames_cons htrunc, runFrames_nil]
  refine ⟨_, rfl, rfl, renderPassword_digits _, ?_, rfl⟩
  rw [decimalValue_renderPassword (Nat.mod_lt _ (by decide)), truncWindow_toNat]
  rfl

/-- Settles O31: the mask clears bit 31, which is set exactly when bit 7 of the first window byte is. -/
theorem truncMaskClearsOneBit : Obligations.TruncMaskClearsOneBit := by
  unfold Obligations.TruncMaskClearsOneBit
  intro s hs hvalid
  have hready : ∀ cfg, engineReady { s with cfg := cfg } := fun _ => hs
  have hmask := and_7FFFFFFF_toNat (truncWindow false s.dout)
  rw [← truncWindow_mask] at hmask
  refine ⟨_, _, exec_otpTrunc_valid (hready _) hvalid, exec_otpTrunc_valid (hready _) hvalid, ?_, truncWindow_mask s.dout, ?_,
    rfl, rfl⟩
  · show (truncWindow true s.dout).toNat ≤ _
    omega
  · show truncWindow true s.dout ≠ truncWindow false s.dout ↔ _
    have hlt := (truncWindow false s.dout).isLt
    refine Iff.trans ?_ (truncWindow_high_iff s.dout)
    rw [BitVec.toNat_ne, hmask]
    omega

end Sys2Proof
end

section
/-! The invariant (Sys2Proof/Safety.lean): a first power-on and every power-on reset meet it, and every frame keeps it, row by row of
44_controller.md R130 for a poll. In the invariant and a legal configuration no frame stops the model. -/

namespace Sys2Proof.Machine

open Reference Safety

/-! ## Reset -/

theorem inv_initial (c : Config) {image : Memory} (hwf : Memory.wf image = true) (hin : Memory.inside c.nvSize image = true) :
    Inv (State.initial c image) where
  storeCanonical := hwf
  storeInside := hin
  idxRange := Nat.zero_le _
  idxSending := fun h => nomatch h
  idxReleasing := fun h => nomatch h
  emittingHasPassword := fun h => nomatch h
  passwordDigits := fun h => nomatch h
  passwordValue := fun h => nomatch h
  codeRange := Nat.zero_lt_succ _
  passwordHasDigest := fun h => nomatch h
  timeBufferValue := fun h => nomatch h
  innerIsActive := fun h => nomatch h
  hashCount := fun h => nomatch h
  finalHasDigest := fun h => nomatch h
  settingHasRequest := fun h => nomatch h
  requestNeedsSetTime := fun h => nomatch h
  holdRange := Nat.zero_le _
  faultCodes := ⟨Nat.zero_le _, fun _ => (by decide : (0 : BitVec 16).extractLsb' 8 8 = 0)⟩

/-- A power-on reset meets the invariant as soon as the store it leaves does (70_reset_and_hazards.md R162). -/
theorem inv_powerOnReset {s : State} (hwf : Memory.wf s.nv = true) (hin : Memory.inside s.cfg.nvSize s.nv = true) :
    Inv (powerOnReset s) := { inv_initial s.cfg hwf hin with }

/-- Taking a frame off the stream keeps the invariant. -/
theorem inv_consume {s : State} (h : Inv s) (rest : List Byte) : Inv (s.consume rest) := { h with }

/-! ## Engine frames -/

theorem inv_shaReset {s : State} (h : Inv s) : Inv (shaResetBody s) :=
  { h with
    innerIsActive := fun hh => (nomatch hh), hashCount := fun _ => shaResetBody_holds s ▸ hashHolding_counts
    finalHasDigest := fun hh => (nomatch hh) }

/-- A consumed hash, with a digest, outside `INNER`. -/
theorem inv_finish {s : State} (h : Inv s) (e : HashEngine) (d : Digest) {m : MPhase} (hm : m ≠ .inner) :
    Inv { s with hash := finish e, mphase := m, dout := d, doutValid := true } :=
  { h with
    passwordHasDigest := fun _ => rfl, innerIsActive := fun hh => absurd hh hm, hashCount := fun hh => (nomatch hh)
    finalHasDigest := fun _ => rfl }

theorem inv_shaDigest {s t : State} (h : Inv s) (ht : shaDigestBody s = .ok t) : Inv t := by
  obtain ⟨-, rfl⟩ := shaDigestBody_eq_ok ht
  exact inv_finish h s.hash _ (by decide)

theorem inv_macInit {key : List Byte} {s t : State} (h : Inv s) (ht : macInitBody key s = .ok t) : Inv t := by
  obtain ⟨-, rfl⟩ := macInitBody_eq_ok ht
  exact { h with innerIsActive := fun _ => rfl, hashCount := fun _ => hashHolding_counts, finalHasDigest := fun hh => (nomatch hh) }

theorem inv_macFinal {key : List Byte} {s t : State} (h : Inv s) (ht : macFinalBody key s = .ok t) : Inv t := by
  obtain ⟨-, -, -, rfl⟩ := macFinalBody_eq_ok ht
  exact inv_finish h _ _ (by decide)

theorem inv_otpTrunc {s t : State} (h : Inv s) (ht : otpTruncBody s = .ok t) : Inv t := by
  obtain ⟨hvalid, rfl⟩ := otpTruncBody_eq_ok ht
  exact { inv_truncate h s.dout with passwordHasDigest := fun _ => hvalid, finalHasDigest := fun _ => hvalid }

theorem inv_tcBcd (b : ClockBytes) {s : State} (h : Inv s) : Inv (tcBcdBody b s) := by
  obtain ⟨c, -, he⟩ := tcBcdBody_eq b s
  rw [he]
  exact inv_setTime (s := { s with draws := if (bcdCounter b).isSome then s.draws else s.draws + 1 }) { h with } c

theorem inv_tcMono {s t : State} (h : Inv s) (ht : tcMonoBody s = .ok t) : Inv t := by
  obtain ⟨-, hinside, rfl⟩ := tcMonoBody_eq_ok ht
  refine inv_storeCells (inv_setTime h _) fun c hc => ?_
  have hcell := (mem_cellsAt hc).2
  rw [be32_length] at hcell
  exact Nat.lt_of_lt_of_le hcell hinside

/-! ## TokenController -/

/-- `Waiting` asks nothing of the other registers. -/
theorem inv_waiting {s : State} (h : Inv s) : Inv { s with cstate := .waiting } :=
  { h with
    idxSending := fun hh => (nomatch hh), idxReleasing := fun hh => (nomatch hh), emittingHasPassword := fun hh => (nomatch hh)
    settingHasRequest := fun hh => (nomatch hh) }

theorem inv_pollIdle (p : Pins) {s : State} (h : Inv s) : Inv (pollIdle p s) := by
  unfold pollIdle
  split
  · exact inv_waiting h
  · exact h

theorem inv_enterSettingTime {s : State} (h : Inv s) (hp : s.tsetPend = true) : Inv { s with cstate := .settingTime } :=
  { h with
    idxSending := fun hh => (nomatch hh), idxReleasing := fun hh => (nomatch hh), emittingHasPassword := fun hh => (nomatch hh)
    settingHasRequest := fun _ => hp }

theorem inv_pollSettingTime {s : State} (h : Inv s) : Inv (pollSettingTime s) :=
  { inv_waiting h with settingHasRequest := fun hh => (nomatch hh), requestNeedsSetTime := fun hh => (nomatch hh) }

/-- A generation leaves a password to type, from its first digit on. -/
theorem inv_afterGeneration {s u : State} (h : Inv s) (hl : LegalLayout s.cfg) (hu : generateTime s = .ok u) :
    Inv (afterGeneration s u) := by
  obtain ⟨hinv, hcfg, -⟩ := inv_generateTime h hu
  have hgen := inv_generated hinv (hcfg ▸ hl)
  exact inv_updateHold (t := { generated u with idx := 0, cstate := .sending }) { hgen with
    idxRange := Nat.zero_le _, idxSending := fun _ => Nat.zero_le _, idxReleasing := fun hh => (nomatch hh)
    emittingHasPassword := fun _ => rfl, settingHasRequest := fun hh => (nomatch hh) } hcfg h.holdRange true

/-- The key-down of a digit: `IDX` goes from 0 to 5 up to 1 to 6. -/
theorem inv_keyDown {s : State} (h : Inv s) (hc : s.cstate = .sending) (r : Report) :
    Inv { emit r s with idx := s.idx + 1, cstate := .releasing } := by
  have hidx := h.idxSending hc
  have hnext : (s.idx + 1).toNat = s.idx.toNat + 1 := by
    rw [BitVec.toNat_add, show (1 : BitVec 3).toNat = 1 from rfl]
    omega
  exact { h with
    idxRange := hnext.trans_le (Nat.succ_le_succ hidx), idxSending := fun hh => (nomatch hh)
    idxReleasing := fun _ => hnext ▸ Nat.le_add_left ..
    emittingHasPassword := fun _ => h.emittingHasPassword (emitting_iff.2 (.inl hc))
    settingHasRequest := fun hh => (nomatch hh) }

theorem inv_pollReleasing (p : Pins) {s : State} (h : Inv s) (hc : s.cstate = .releasing) : Inv (pollReleasing p s) := by
  unfold pollReleasing
  split
  · split
    · next hmore =>
      exact { h with
        idxSending := fun _ => Nat.le_of_lt_succ (BitVec.lt_def.1 hmore), idxReleasing := fun hh => (nomatch hh)
        emittingHasPassword := fun _ => h.emittingHasPassword (emitting_iff.2 (.inr hc))
        settingHasRequest := fun hh => (nomatch hh) }
    · exact { inv_waiting h with }
  · exact h

theorem inv_ctlPoll {b : Byte} {s t : State} (h : Inv s) (hl : LegalLayout s.cfg) (ht : ctlPollBody b s = .ok t) : Inv t := by
  have hhold := h.holdRange
  obtain ⟨-, ⟨-, rfl⟩ | ⟨-, hp, rfl⟩ | ⟨-, u, hu, rfl⟩ | ⟨-, -, -, rfl⟩ | ⟨-, rfl⟩ | ⟨-, -, rfl⟩ | ⟨hc, -, -, rfl⟩ |
    ⟨hc, rfl⟩⟩ := poll_cases hl ht
  · refine inv_updateHold (inv_pollIdle _ h) ?_ hhold false
    unfold pollIdle
    split <;> rfl
  · exact inv_updateHold (inv_enterSettingTime h hp) rfl hhold false
  · exact inv_afterGeneration h hl hu
  · exact inv_updateHold h rfl hhold false
  · exact inv_updateHold (inv_pollSettingTime h) rfl hhold false
  · exact inv_updateHold h rfl hhold false
  · exact inv_updateHold (inv_keyDown h hc _) rfl hhold false
  · refine inv_updateHold (inv_pollReleasing _ h hc) ?_ hhold false
    unfold pollReleasing
    split <;> rfl

/-! ## Host channel -/

theorem inv_hostProvision {secret : List Byte} {s t : State} (h : Inv s) (hl : LegalLayout s.cfg)
    (ht : hostProvisionBody secret s = .ok t) : Inv t := by
  by_cases hlen : 1 ≤ secret.length ∧ secret.length ≤ 64
  · cases (hostProvision_accepted hlen hl).symm.trans ht
    refine { inv_storeCells h (fun c hc => ?_) with }
    have hlenIn := hl.lenInside
    have hsecretIn := hl.secretInside
    rcases List.mem_append.1 hc with hc | hc
    · have hcell := (mem_cellsAt hc).2
      rw [List.length_singleton] at hcell
      omega
    · have hcell := (mem_cellsAt hc).2
      omega
  · cases (hostProvision_rejected hlen).symm.trans ht
    exact { h with }

theorem inv_hostSetTime (b : ClockBytes) {s : State} (h : Inv s) : Inv (hostSetTimeBody b s) := by
  cases hset : s.cfg.hasSetTime with
  | true =>
    rw [hostSetTimeBody_accepted b hset]
    exact { h with settingHasRequest := fun _ => rfl, requestNeedsSetTime := fun _ => hset }
  | false =>
    rw [hostSetTimeBody_rejected b hset]
    exact { h with }

theorem inv_hostSetCounter {cval : Word} {s t : State} (h : Inv s) (hl : LegalLayout s.cfg)
    (ht : hostSetCounterBody cval s = .ok t) : Inv t := by
  cases hsrc : s.cfg.timeSrc with
  | ext =>
    cases (hostSetCounter_ext hsrc).symm.trans ht
    exact { h with }
  | mono =>
    cases (hostSetCounter_mono hsrc hl).symm.trans ht
    refine { inv_storeCells h (fun c hc => ?_) with }
    exact Nat.lt_of_lt_of_le (mem_cellsAt hc).2 hl.timeInside

/-! ## Every frame and every step -/

theorem inv_bodyOf {i : Instr} {s t : State} (h : Inv s) (hl : LegalLayout s.cfg) (ht : bodyOf i s = .ok t) : Inv t := by
  cases i with
  | shaReset =>
    cases ht
    exact inv_shaReset h
  | shaUpdate data => exact inv_absorb h ht
  | shaDigest => exact inv_shaDigest h ht
  | macInit key => exact inv_macInit h ht
  | macUpdate data => exact inv_absorb h (macUpdateBody_eq_ok ht).2
  | macFinal key => exact inv_macFinal h ht
  | otpTrunc => exact inv_otpTrunc h ht
  | tcBcd b =>
    cases ht
    exact inv_tcBcd b h
  | tcMono => exact inv_tcMono h ht
  | ctlPoll b => exact inv_ctlPoll h hl ht
  | hostProvision secret => exact inv_hostProvision h hl ht
  | hostSetTime b =>
    cases ht
    exact inv_hostSetTime b h
  | hostSetCounter cval => exact inv_hostSetCounter h hl ht

/-- A frame that ends in a next state keeps the invariant: it did nothing, took a fault or ran its pseudocode. -/
theorem inv_exec {i : Instr} {s t : State} (h : Inv s) (hl : LegalLayout s.cfg) (ht : exec i s = .next t) : Inv t := by
  rcases exec_next ht with ⟨-, rfl⟩ | ⟨-, c, rfl⟩ | ⟨-, -, hok⟩
  · exact h
  · exact inv_takeFault h c _
  · exact inv_bodyOf h hl hok

theorem inv_illegalFrame {opc : Byte} {s t : State} (h : Inv s) (ht : illegalFrame opc s = .next t) : Inv t := by
  rcases runFrame_next ht with ⟨-, rfl⟩ | ⟨-, c, rfl⟩ | ⟨-, -, hok⟩
  · exact h
  · exact inv_takeFault h c opc
  · cases hok

theorem inv_frameStep {s t : State} (h : Inv s) (hl : LegalLayout s.cfg) (ht : frameStep s = .next t) : Inv t := by
  unfold frameStep at ht
  split at ht
  · exact inv_exec (inv_consume h _) hl ht
  · exact inv_illegalFrame (inv_consume h _) ht
  · cases ht

/-- No frame of the stream changes the configuration. -/
theorem frameStep_cfg {s t : State} (ht : frameStep s = .next t) : t.cfg = s.cfg := by
  unfold frameStep at ht
  split at ht
  · exact (exec_keeps ht).cfg
  · rcases runFrame_next ht with ⟨-, rfl⟩ | ⟨-, c, rfl⟩ | ⟨-, -, hok⟩
    · rfl
    · rfl
    · cases hok
  · cases ht

/-- A torn byte keeps the store canonical and inside its size, when the writes still to come are. -/
theorem tearByte_nv (torn : Bool) {pending : List Host.Cell} {s : State} (hwf : Memory.wf s.nv = true)
    (hin : Memory.inside s.cfg.nvSize s.nv = true) (hc : ∀ c ∈ pending, c.1 < s.cfg.nvSize) :
    Memory.wf (tearByte torn pending s).nv = true ∧
      Memory.inside (tearByte torn pending s).cfg.nvSize (tearByte torn pending s).nv = true := by
  unfold tearByte
  split
  · exact ⟨Memory.wf_write _ _ hwf, Memory.inside_write _ (hc _ List.mem_cons_self) hin⟩
  · exact ⟨hwf, hin⟩
  · exact ⟨hwf, hin⟩

/-- A frame cut short leaves a power-on reset over the first of its writes (70_reset_and_hazards.md R165). -/
theorem inv_cutShort (done : Nat) (torn : Bool) {s t : State} (h : Inv s) (hl : LegalLayout s.cfg) (ht : frameStep s = .next t) :
    Inv (cutShort done torn s t) := by
  have hcells := frameStep_inside hl ht
  rw [← frameStep_cfg ht] at hcells
  have hin : Memory.inside t.cfg.nvSize s.nv = true := frameStep_cfg ht ▸ h.storeInside
  obtain ⟨hwf, hin⟩ := tearByte_nv torn (pending := t.storeLog.drop done)
    (s := { t with
      nv := Memory.writeAll (t.storeLog.take done) s.nv
      reports := s.reports ++ (t.reports.drop s.reports.length).take done
      clockWrites := s.clockWrites ++ (t.clockWrites.drop s.clockWrites.length).take done })
    (Memory.wf_writeAll _ h.storeCanonical)
    (Memory.inside_writeAll (fun c hc => hcells c (List.mem_of_mem_take hc)) hin)
    fun c hc => hcells c (List.mem_of_mem_drop hc)
  exact inv_powerOnReset hwf hin

theorem inv_powerLossStep {loss : PowerLoss} {s t : State} (h : Inv s) (hl : LegalLayout s.cfg)
    (ht : powerLossStep loss s = .next t) : Inv t := by
  have hreset : Inv (powerOnReset s) := inv_powerOnReset h.storeCanonical h.storeInside
  cases loss with
  | between =>
    cases ht
    exact hreset
  | within done torn =>
    rw [powerLossStep] at ht
    cases hframe : frameStep s with
    | next u =>
      rw [hframe] at ht
      cases ht
      exact inv_cutShort done torn h hl hframe
    | fault f =>
      rw [hframe] at ht
      cases ht
    | refused r =>
      rw [hframe] at ht
      cases ht
      exact hreset

/-! ## Where a legal machine stops -/

/-- In the invariant every frame ends in a next state (20_memory.md R50, 44_controller.md R136). -/
theorem exec_total (i : Instr) {s : State} (h : Inv s) (hl : LegalLayout s.cfg) : ∃ t, exec i s = .next t := by
  cases hs : s.halted with
  | true => exact ⟨s, exec_halted hs⟩
  | false =>
    have hends := exec_faultOf (i := i) h hl hs
    cases hf : faultOf i s with
    | some c =>
      rw [hf] at hends
      exact ⟨_, hends⟩
    | none =>
      rw [hf] at hends
      obtain ⟨t, ht, -⟩ := hends
      exact ⟨t, ht⟩

/-- Taking the next frame ends in a next state, or the stream has not delivered one. -/
theorem frameStep_total {s : State} (h : Inv s) (hl : LegalLayout s.cfg) :
    (∃ t, frameStep s = .next t) ∨ (decode s.stream = .incomplete ∧ frameStep s = .refused .incompleteFrame) := by
  unfold frameStep
  cases decode s.stream with
  | frame i rest => exact .inl (exec_total i (inv_consume h rest) hl)
  | illegalOpcode opc rest => exact .inl (illegalFrame_next opc (s.consume rest))
  | incomplete => exact .inr ⟨rfl, rfl⟩

/-- A power loss always ends in a next state. -/
theorem powerLossStep_total (loss : PowerLoss) {s : State} (h : Inv s) (hl : LegalLayout s.cfg) :
    ∃ t, powerLossStep loss s = .next t := by
  cases loss with
  | between => exact ⟨_, rfl⟩
  | within done torn =>
    rcases frameStep_total h hl with ⟨t, ht⟩ | ⟨-, hrefused⟩
    · exact ⟨_, by rw [powerLossStep, ht]⟩
    · exact ⟨_, by rw [powerLossStep, hrefused]⟩

/-- In a legal configuration with power lost over the step, the step is the power loss. -/
theorem step_eq_powerLossStep {loss : PowerLoss} {s : State} (hcfg : configLegal s.cfg = true) (hpower : s.power = some loss) :
    step s = powerLossStep loss s := by
  rw [step, if_pos hcfg, hpower]

end Sys2Proof.Machine

namespace Sys2Proof

open Machine Safety

/-- Settles O58: a step is refused in an illegal configuration, and in a legal one each of its frames and power losses keeps the
invariant. -/
theorem everyStepKeepsTheInvariant : Obligations.EveryStepKeepsTheInvariant := by
  unfold Obligations.EveryStepKeepsTheInvariant
  intro s t h ht
  by_cases hcfg : configLegal s.cfg = true
  · have hl := legalLayout hcfg
    cases hpower : s.power with
    | none => exact inv_frameStep h hl ((step_eq_frameStep hcfg hpower).symm.trans ht)
    | some loss => exact inv_powerLossStep h hl ((step_eq_powerLossStep hcfg hpower).symm.trans ht)
  · rw [step, if_neg hcfg] at ht
    cases ht

/-- Settles O57: `State.reset` is a first power-on with an empty store. -/
theorem resetMeetsTheInvariant : Obligations.ResetMeetsTheInvariant := by
  unfold Obligations.ResetMeetsTheInvariant
  exact ⟨inv_initial Config.standard rfl rfl, fun c image hwf hin => inv_initial c hwf hin⟩

/-- Settles O10: the invariant keeps every access in range, so the only step refused is one without a frame. -/
theorem legalMachineNeverStops : Obligations.LegalMachineNeverStops := by
  unfold Obligations.LegalMachineNeverStops
  intro s h hcfg
  have hl := legalLayout hcfg
  refine ⟨fun i => exec_total i h hl, ?_⟩
  cases hpower : s.power with
  | none =>
    rw [step_eq_frameStep hcfg hpower]
    exact (frameStep_total h hl).imp_right fun hrefused => ⟨rfl, hrefused⟩
  | some loss =>
    rw [step_eq_powerLossStep hcfg hpower]
    exact .inl (powerLossStep_total loss h hl)

/-- Settles O54: `powerOnReset` writes the registers of `State.initial`, and a loss between frames is it. -/
theorem powerOnResetClearsTheCore : Obligations.PowerOnResetClearsTheCore := by
  unfold Obligations.PowerOnResetClearsTheCore
  intro s
  refine ⟨fun hcfg hpower => ?_, rfl, rfl, rfl, rfl, rfl, rfl, rfl, rfl, rfl, rfl, rfl, rfl, rfl, rfl, rfl, rfl, rfl, rfl⟩
  exact step_eq_powerLossStep hcfg hpower

end Sys2Proof
end

section
/-! What a frame can leave, said once for the pseudocode of every frame (`Effect`), and what follows about the registers, the reports
and the polls that do not generate (10_state.md sections 2 to 8, 44_controller.md R60, R143). -/

namespace Sys2Proof.Machine

open Safety

/-! ## The opcodes of R72 -/

@[simp] theorem opcode_shaReset : Instr.shaReset.opcode = 0x01 := rfl
@[simp] theorem opcode_shaUpdate (data : List Byte) : (Instr.shaUpdate data).opcode = 0x02 := rfl
@[simp] theorem opcode_shaDigest : Instr.shaDigest.opcode = 0x03 := rfl
@[simp] theorem opcode_macInit (key : List Byte) : (Instr.macInit key).opcode = 0x11 := rfl
@[simp] theorem opcode_macUpdate (data : List Byte) : (Instr.macUpdate data).opcode = 0x12 := rfl
@[simp] theorem opcode_macFinal (key : List Byte) : (Instr.macFinal key).opcode = 0x13 := rfl
@[simp] theorem opcode_otpTrunc : Instr.otpTrunc.opcode = 0x21 := rfl
@[simp] theorem opcode_tcBcd (b : ClockBytes) : (Instr.tcBcd b).opcode = 0x31 := rfl
@[simp] theorem opcode_tcMono : Instr.tcMono.opcode = 0x32 := rfl
@[simp] theorem opcode_ctlPoll (b : Byte) : (Instr.ctlPoll b).opcode = 0x41 := rfl
@[simp] theorem opcode_hostProvision (secret : List Byte) : (Instr.hostProvision secret).opcode = 0x51 := rfl
@[simp] theorem opcode_hostSetTime (b : ClockBytes) : (Instr.hostSetTime b).opcode = 0x52 := rfl
@[simp] theorem opcode_hostSetCounter (cval : Word) : (Instr.hostSetCounter cval).opcode = 0x53 := rfl

/-! ## The effect of a frame -/

/-- What the time step of a generation used and wrote: the clock's counter and no store byte, or the stored counter, not exhausted,
and the four bytes of the next one (44_controller.md R134 (1)). -/
def TimeStep (s : State) (c : Word) (answers : List ClockBytes) (draws : Nat) (cells : List Host.Cell) : Prop :=
  (s.cfg.timeSrc = .ext ∧ cells = []) ∨
  (s.cfg.timeSrc = .mono ∧ storedCounter s.cfg s.nv ≠ 2 ^ 32 - 1 ∧ c = wordAt (s.cfg.nvTimeOfs + 4) s.nv ∧
    answers = s.clockAnswers ∧ draws = s.draws ∧ cells = cellsAt (s.cfg.nvTimeOfs + 4) (be32 (c + 1)))

/-- The state after a poll that generated with the counter `c`, from the store writes of its time step. -/
def generatedFrom (s : State) (c : Word) (answers : List ClockBytes) (draws : Nat) (cells : List Host.Cell) : State :=
  afterGeneration s (timed c answers draws (Memory.writeAll cells s.nv) (s.storeLog ++ cells) s)

section

variable (s : State) (c : Word) (answers : List ClockBytes) (draws : Nat) (cells : List Host.Cell)

@[simp] theorem generatedFrom_cfg : (generatedFrom s c answers draws cells).cfg = s.cfg := rfl
@[simp] theorem generatedFrom_doutValid : (generatedFrom s c answers draws cells).doutValid = true := rfl
@[simp] theorem generatedFrom_pwValid : (generatedFrom s c answers draws cells).pwValid = true := rfl
@[simp] theorem generatedFrom_tbufValid : (generatedFrom s c answers draws cells).tbufValid = true := rfl
@[simp] theorem generatedFrom_cstate : (generatedFrom s c answers draws cells).cstate = .sending := rfl
@[simp] theorem generatedFrom_tset : (generatedFrom s c answers draws cells).tset = s.tset := rfl
@[simp] theorem generatedFrom_tsetPend : (generatedFrom s c answers draws cells).tsetPend = s.tsetPend := rfl
@[simp] theorem generatedFrom_hostResult : (generatedFrom s c answers draws cells).hostResult = s.hostResult := rfl
@[simp] theorem generatedFrom_fault : (generatedFrom s c answers draws cells).fault = s.fault := rfl
@[simp] theorem generatedFrom_reports : (generatedFrom s c answers draws cells).reports = s.reports := rfl
@[simp] theorem generatedFrom_clockWrites : (generatedFrom s c answers draws cells).clockWrites = s.clockWrites := rfl
@[simp] theorem generatedFrom_stream : (generatedFrom s c answers draws cells).stream = s.stream := rfl
@[simp] theorem generatedFrom_power : (generatedFrom s c answers draws cells).power = s.power := rfl

end

theorem generateTime_eq_ok {s u : State} (hl : LegalLayout s.cfg) (h : generateTime s = .ok u) :
    ∃ c answers draws cells, TimeStep s c answers draws cells ∧
      u = timed c answers draws (Memory.writeAll cells s.nv) (s.storeLog ++ cells) s := by
  cases hsrc : s.cfg.timeSrc with
  | ext =>
    obtain ⟨-, answers, draws, c, hu, -⟩ := generateTime_ext_eq hsrc
    cases hu.symm.trans h
    exact ⟨c, answers, draws, [], .inl ⟨hsrc, rfl⟩, by rw [Memory.writeAll_nil, List.append_nil]⟩
  | mono =>
    by_cases hmax : storedCounter s.cfg s.nv = 2 ^ 32 - 1
    · cases (generateTime_exhausted hsrc hl hmax).symm.trans h
    · cases (generateTime_mono_eq hsrc hl hmax).symm.trans h
      exact ⟨_, _, _, _, .inr ⟨hsrc, hmax, rfl, rfl, rfl, rfl⟩, rfl⟩

/-- Everything the pseudocode of a frame can leave, as far as the frame condition of every register needs it: one constructor for
each frame, and one for each row of R130 for a poll. -/
inductive Effect (s : State) : Instr → State → Prop
  | shaReset : Effect s .shaReset (shaResetBody s)
  | shaUpdate (data : List Byte) (e : HashEngine) : Effect s (.shaUpdate data) { s with hash := e }
  | shaDigest (e : HashEngine) (d : Digest) :
    Effect s .shaDigest { s with hash := e, mphase := .idle, dout := d, doutValid := true }
  | macInit (key : List Byte) (e : HashEngine) : Effect s (.macInit key) { s with hash := e, mphase := .inner }
  | macUpdate (data : List Byte) (e : HashEngine) : Effect s (.macUpdate data) { s with hash := e }
  | macFinal (key : List Byte) (e : HashEngine) (d : Digest) :
    Effect s (.macFinal key) { s with hash := e, mphase := .done, dout := d, doutValid := true }
  | otpTrunc (p code : Word) (pw : Vector Byte 6) :
    Effect s .otpTrunc { s with truncP := p, code := code, pw := pw, pwValid := true }
  | tcBcd (b : ClockBytes) (c : Word) (draws : Nat) : Effect s (.tcBcd b) (setTime c { s with draws := draws })
  | tcMono (h : storedCounter s.cfg s.nv ≠ 2 ^ 32 - 1) :
    Effect s .tcMono (storeCells (cellsAt (s.cfg.nvTimeOfs + 4) (be32 (wordAt (s.cfg.nvTimeOfs + 4) s.nv + 1)))
      (setTime (wordAt (s.cfg.nvTimeOfs + 4) s.nv) s))
  | pollStays (b hold : Byte) : Effect s (.ctlPoll b) { s with hold := hold }
  | pollLinks (b hold : Byte) (h : s.cstate = .idle) : Effect s (.ctlPoll b) { s with cstate := .waiting, hold := hold }
  | pollTakesRequest (b hold : Byte) (h : s.cstate = .waiting) :
    Effect s (.ctlPoll b) { s with cstate := .settingTime, hold := hold }
  | pollGenerates (b : Byte) (c : Word) (answers : List ClockBytes) (draws : Nat) (cells : List Host.Cell)
    (hr : reservedBitsSet b = false) (ht : triggers b s = true) (hc : TimeStep s c answers draws cells) :
    Effect s (.ctlPoll b) (generatedFrom s c answers draws cells)
  | pollSetsTime (b hold : Byte) (h : s.cstate = .settingTime) :
    Effect s (.ctlPoll b)
      { s with clockWrites := s.clockWrites ++ [s.tset], tsetPend := false, cstate := .waiting, hold := hold }
  | pollReports (b hold : Byte) (r : Report) (idx : BitVec 3) (c : CState) (h : s.emitting = true) (hc : c ≠ .idle) :
    Effect s (.ctlPoll b) { s with reports := s.reports ++ [r], idx := idx, cstate := c, hold := hold }
  | hostProvisionAccepted (secret : List Byte) (cells : List Host.Cell)
    (h : ∀ c ∈ cells, c.1 = s.cfg.nvLenOfs ∨ (s.cfg.nvSecretOfs ≤ c.1 ∧ c.1 < s.cfg.nvSecretOfs + 64)) :
    Effect s (.hostProvision secret) { storeCells cells s with hostResult := .accepted }
  | hostProvisionRejected (secret : List Byte) : Effect s (.hostProvision secret) { s with hostResult := .rejected }
  | hostSetTimeAccepted (b : ClockBytes) :
    Effect s (.hostSetTime b) { s with tset := b, tsetPend := true, hostResult := .accepted }
  | hostSetTimeRejected (b : ClockBytes) : Effect s (.hostSetTime b) { s with hostResult := .rejected }
  | hostSetCounterAccepted (cval : Word) (cells : List Host.Cell) :
    Effect s (.hostSetCounter cval) { storeCells cells s with hostResult := .accepted }
  | hostSetCounterRejected (cval : Word) : Effect s (.hostSetCounter cval) { s with hostResult := .rejected }

theorem effect_tcMono {s t : State} (h : tcMonoBody s = .ok t) : Effect s .tcMono t := by
  obtain ⟨hne, -, rfl⟩ := tcMonoBody_eq_ok h
  exact .tcMono (mt (wordAt_counterAddr_eq_max_iff s).2 hne)

theorem effect_ctlPoll {b : Byte} {s t : State} (hl : LegalLayout s.cfg) (h : ctlPollBody b s = .ok t) :
    Effect s (.ctlPoll b) t := by
  obtain ⟨hr, ⟨hc, rfl⟩ | ⟨hc, -, rfl⟩ | ⟨ht, u, hu, rfl⟩ | ⟨-, -, -, rfl⟩ | ⟨hc, rfl⟩ | ⟨-, -, rfl⟩ | ⟨hc, -, -, rfl⟩ |
    ⟨hc, rfl⟩⟩ := poll_cases hl h
  · unfold pollIdle
    split
    · exact .pollLinks b _ hc
    · exact .pollStays b _
  · exact .pollTakesRequest b _ hc
  · obtain ⟨c, answers, draws, cells, hstep, rfl⟩ := generateTime_eq_ok hl hu
    exact .pollGenerates b c answers draws cells hr ht hstep
  · exact .pollStays b _
  · exact .pollSetsTime b _ hc
  · exact .pollStays b _
  · exact .pollReports b _ _ _ .releasing (emitting_iff.2 (.inl hc)) (by decide)
  · have hemit : s.emitting = true := emitting_iff.2 (.inr hc)
    unfold pollReleasing
    split
    · split
      · exact .pollReports b _ keyUp s.idx .sending hemit (by decide)
      · exact .pollReports b _ keyUp s.idx .waiting hemit (by decide)
    · exact .pollStays b _

theorem effect_hostProvision {secret : List Byte} {s t : State} (hl : LegalLayout s.cfg)
    (h : hostProvisionBody secret s = .ok t) : Effect s (.hostProvision secret) t := by
  by_cases hlen : 1 ≤ secret.length ∧ secret.length ≤ 64
  · cases (hostProvision_accepted hlen hl).symm.trans h
    refine .hostProvisionAccepted secret _ fun c hc => ?_
    rcases List.mem_append.1 hc with hc | hc
    · have hcell := mem_cellsAt hc
      rw [List.length_singleton] at hcell
      omega
    · have hcell := mem_cellsAt hc
      omega
  · cases (hostProvision_rejected hlen).symm.trans h
    exact .hostProvisionRejected secret

theorem effect_hostSetTime (b : ClockBytes) (s : State) : Effect s (.hostSetTime b) (hostSetTimeBody b s) := by
  unfold hostSetTimeBody
  split
  · exact .hostSetTimeAccepted b
  · exact .hostSetTimeRejected b

theorem effect_hostSetCounter {cval : Word} {s t : State} (hl : LegalLayout s.cfg) (h : hostSetCounterBody cval s = .ok t) :
    Effect s (.hostSetCounter cval) t := by
  cases hsrc : s.cfg.timeSrc with
  | ext =>
    cases (hostSetCounter_ext hsrc).symm.trans h
    exact .hostSetCounterRejected cval
  | mono =>
    cases (hostSetCounter_mono hsrc hl).symm.trans h
    exact .hostSetCounterAccepted cval _

theorem bodyOf_effect {i : Instr} {s t : State} (hl : LegalLayout s.cfg) (h : bodyOf i s = .ok t) : Effect s i t := by
  cases i with
  | shaReset =>
    cases h
    exact .shaReset
  | shaUpdate data =>
    obtain ⟨-, -, rfl⟩ := absorbState_eq_ok h
    exact .shaUpdate data _
  | shaDigest =>
    obtain ⟨-, rfl⟩ := shaDigestBody_eq_ok h
    exact .shaDigest _ _
  | macInit key =>
    obtain ⟨-, rfl⟩ := macInitBody_eq_ok h
    exact .macInit key _
  | macUpdate data =>
    obtain ⟨-, hok⟩ := macUpdateBody_eq_ok h
    obtain ⟨-, -, rfl⟩ := absorbState_eq_ok hok
    exact .macUpdate data _
  | macFinal key =>
    obtain ⟨-, -, -, rfl⟩ := macFinalBody_eq_ok h
    exact .macFinal key _ _
  | otpTrunc =>
    obtain ⟨-, rfl⟩ := otpTruncBody_eq_ok h
    exact .otpTrunc _ _ _
  | tcBcd b =>
    cases h
    obtain ⟨c, -, he⟩ := tcBcdBody_eq b s
    rw [he]
    exact .tcBcd b c _
  | tcMono => exact effect_tcMono h
  | ctlPoll b => exact effect_ctlPoll hl h
  | hostProvision secret => exact effect_hostProvision hl h
  | hostSetTime b =>
    cases h
    exact effect_hostSetTime b s
  | hostSetCounter cval => exact effect_hostSetCounter hl h

/-- A frame that ends in a next state wrote `FAULT` at most, or left its effect. -/
theorem exec_effect {i : Instr} {s t : State} (hl : LegalLayout s.cfg) (h : exec i s = .next t) :
    (∃ f, t = { s with fault := f }) ∨ Effect s i t := by
  rcases exec_next h with ⟨-, rfl⟩ | ⟨-, c, rfl⟩ | ⟨-, -, hok⟩
  · exact .inl ⟨t.fault, rfl⟩
  · exact .inl ⟨_, rfl⟩
  · exact .inr (bodyOf_effect hl hok)

/-- A report is sent only by a frame that found an emission cycle (44_controller.md R60). -/
theorem exec_reports {i : Instr} {s t : State} (hl : LegalLayout s.cfg) (h : exec i s = .next t) :
    t.reports = s.reports ∨ s.emitting = true ∧ ∃ r, t.reports = s.reports ++ [r] := by
  rcases exec_effect hl h with ⟨f, rfl⟩ | heffect
  · exact .inl rfl
  · cases heffect with
    | pollReports b hold r idx c hemit hc => exact .inr ⟨hemit, r, rfl⟩
    | _ => exact .inl rfl

/-- A poll that does not trigger changes no register of an engine, no result register and no byte of the store. -/
theorem exec_ctlPoll_not_triggers {b : Byte} {s t : State} (hl : LegalLayout s.cfg) (ht : triggers b s = false)
    (h : exec (.ctlPoll b) s = .next t) :
    t = { s with cstate := t.cstate, idx := t.idx, hold := t.hold, tsetPend := t.tsetPend, fault := t.fault,
                 reports := t.reports, clockWrites := t.clockWrites } ∧
    (t.cstate = .sending → s.emitting = true) := by
  rcases exec_effect hl h with ⟨f, rfl⟩ | heffect
  · exact ⟨rfl, fun hc => emitting_iff.2 (.inl hc)⟩
  · cases heffect with
    | pollStays _ hold => exact ⟨rfl, fun hc => emitting_iff.2 (.inl hc)⟩
    | pollLinks _ hold hc => exact ⟨rfl, fun hc => nomatch hc⟩
    | pollTakesRequest _ hold hc => exact ⟨rfl, fun hc => nomatch hc⟩
    | pollGenerates _ c answers draws cells hr htrue hstep => exact absurd htrue (Bool.eq_false_iff.1 ht)
    | pollSetsTime _ hold hc => exact ⟨rfl, fun hc => nomatch hc⟩
    | pollReports _ hold r idx c hemit hc => exact ⟨rfl, fun _ => hemit⟩

end Sys2Proof.Machine

namespace Sys2Proof

open Machine Safety

/-- Settles O44: such a poll does not trigger. -/
theorem noGenerationWhileHeldOrEmitting : Obligations.NoGenerationWhileHeldOrEmitting := by
  unfold Obligations.NoGenerationWhileHeldOrEmitting
  intro s t b hcfg hheld h
  have ht : triggers b s = false := Bool.eq_false_iff.2 fun ht => by
    obtain ⟨hwaiting, -, -, hhold⟩ := triggers_iff.1 ht
    exact hheld.elim (absurd hhold) (absurd hwaiting)
  obtain ⟨hframe, hsending⟩ := exec_ctlPoll_not_triggers (legalLayout hcfg) ht h
  exact ⟨hframe, fun hc => emitting_iff.1 (hsending hc)⟩

/-- Settles O51: a fault changes `FAULT` alone, and the effect of each frame writes only the registers its opcode is named for. -/
theorem registersChangeOnlyByTheirFrames : Obligations.RegistersChangeOnlyByTheirFrames := by
  unfold Obligations.RegistersChangeOnlyByTheirFrames
  intro i s t hcfg h poll
  rcases exec_effect (legalLayout hcfg) h with ⟨f, rfl⟩ | heffect
  · simp_all
  · cases heffect with
    | _ => simp_all [poll]

end Sys2Proof
end

section
/-! The generation of a password (44_controller.md R134, R60) and the stored counter over every frame (43_timecounter.md R124, R126). -/

namespace Sys2Proof.Machine

open Reference Safety

/-! ## The store after a generation -/

theorem generatedFrom_nv (s : State) (c : Word) (answers : List ClockBytes) (draws : Nat) (cells : List Host.Cell) :
    (generatedFrom s c answers draws cells).nv =
      Memory.writeAll (cellsAt s.cfg.nvPwOfs (generatedFrom s c answers draws cells).pw.toList)
        (Memory.writeAll cells s.nv) := rfl

theorem generatedFrom_storeLog (s : State) (c : Word) (answers : List ClockBytes) (draws : Nat) (cells : List Host.Cell) :
    (generatedFrom s c answers draws cells).storeLog =
      s.storeLog ++ (cells ++ cellsAt s.cfg.nvPwOfs (generatedFrom s c answers draws cells).pw.toList) := by
  rw [← List.append_assoc]
  rfl

/-- The last-password region does not overlap the counter. -/
theorem storedCounter_write_password {c : Config} (hl : LegalLayout c) (pw : Vector Byte 6) {m : Memory}
    (h : Memory.wf m = true) :
    storedCounter c (Memory.writeAll (cellsAt c.nvPwOfs pw.toList) m) = storedCounter c m := by
  have hapart := hl.timePw
  exact storedCounter_congr fun a _ _ => read_writeAll_outside h (by rw [Vector.length_toList]; omega)

/-- Nor does the secret overlap the counter. -/
theorem storedSecret_write_counter {c : Config} (hl : LegalLayout c) (v : Word) {m : Memory} (h : Memory.wf m = true) :
    storedSecret c (Memory.writeAll (cellsAt (c.nvTimeOfs + 4) (be32 v)) m) = storedSecret c m := by
  have hlen := hl.lenTime
  have hsecret := hl.secretTime
  refine storedSecret_congr (read_writeAll_outside h ?_) fun a _ _ => read_writeAll_outside h ?_
  · rw [be32_length]
    omega
  · rw [be32_length]
    omega

/-- The bytes of the next counter, as the statements write them. -/
theorem wordAt_succ (c : Config) (m : Memory) :
    wordAt (c.nvTimeOfs + 4) m + 1 = BitVec.ofNat 32 (storedCounter c m + 1) := by
  rw [← wordAt_toNat, BitVec.ofNat_add, BitVec.ofNat_toNat, BitVec.setWidth_eq]
  rfl

theorem cellsAt_be32_eq_zip (a : Nat) (v : Word) :
    cellsAt a (be32 v) = List.zip ((List.range 4).map (a + ·)) (be32 v) := cellsAt_eq_zip a (be32 v)

theorem storedPassword_generatedFrom {s : State} (h : Memory.wf s.nv = true) (c : Word) (answers : List ClockBytes) (draws : Nat)
    (cells : List Host.Cell) :
    storedPassword s.cfg (generatedFrom s c answers draws cells).nv = (generatedFrom s c answers draws cells).pw.toList :=
  storedPassword_write s.cfg _ (Memory.wf_writeAll cells h)

/-- Outside the password a generation leaves the store as its time step left it. -/
theorem read_generatedFrom {s : State} (h : Memory.wf s.nv = true) {a : Nat} (ha : ¬ (s.cfg.nvPwOfs ≤ a ∧ a < s.cfg.nvPwOfs + 6))
    (c : Word) (answers : List ClockBytes) (draws : Nat) (cells : List Host.Cell) :
    Memory.read a (generatedFrom s c answers draws cells).nv = Memory.read a (Memory.writeAll cells s.nv) :=
  read_writeAll_outside (Memory.wf_writeAll cells h) (by rwa [Vector.length_toList])

/-- The counter after a generation: the one before with the clock, the next one in `MONO`. -/
theorem storedCounter_generatedFrom {s : State} (hl : LegalLayout s.cfg) (h : Memory.wf s.nv = true) {c : Word}
    {answers : List ClockBytes} {draws : Nat} {cells : List Host.Cell} (hc : TimeStep s c answers draws cells) :
    (s.cfg.timeSrc = .ext ∧ storedCounter s.cfg (generatedFrom s c answers draws cells).nv = storedCounter s.cfg s.nv) ∨
    (s.cfg.timeSrc = .mono ∧ c.toNat = storedCounter s.cfg s.nv ∧
      storedCounter s.cfg (generatedFrom s c answers draws cells).nv = storedCounter s.cfg s.nv + 1) := by
  rw [generatedFrom_nv, storedCounter_write_password hl _ (Memory.wf_writeAll cells h)]
  rcases hc with ⟨hsrc, rfl⟩ | ⟨hsrc, hmax, rfl, -, -, rfl⟩
  · exact .inl ⟨hsrc, rfl⟩
  · exact .inr ⟨hsrc, wordAt_toNat .., by rw [storedCounter_write _ _ h, nextCounter_toNat hmax]⟩

/-! ## The poll that generates -/

theorem exec_ctlPoll_ext {b : Byte} {s : State} (hrun : s.halted = false) (hr : reservedBitsSet b = false)
    (ht : triggers b s = true) (hl : LegalLayout s.cfg) (hsrc : s.cfg.timeSrc = .ext) :
    ∃ answer answers draws c, exec (.ctlPoll b) s = .next (generatedFrom s c answers draws []) ∧
      (s.clockAnswers = answer :: answers ∨ (s.clockAnswers = [] ∧ answers = [])) ∧
      (∀ c', bcdCounter answer = some c' → c = c') := by
  obtain ⟨answer, answers, draws, c, hu, hanswer, hc⟩ := generateTime_ext_eq hsrc
  refine ⟨answer, answers, draws, c, ?_, hanswer, hc⟩
  rw [generatedFrom, Memory.writeAll_nil, List.append_nil]
  exact exec_ok (i := .ctlPoll b) hrun rfl ((poll_generate hr ht hl).trans (by rw [hu, ok_bind]))

/-- The writes of a generation's time step in `MONO` mode: the bytes of the next counter. -/
def counterCells (s : State) : List Host.Cell :=
  cellsAt (s.cfg.nvTimeOfs + 4) (be32 (wordAt (s.cfg.nvTimeOfs + 4) s.nv + 1))

/-- The state after a generation in `MONO` mode. -/
def generatedMono (s : State) : State :=
  generatedFrom s (wordAt (s.cfg.nvTimeOfs + 4) s.nv) s.clockAnswers s.draws (counterCells s)

theorem timeStep_mono {s : State} (hsrc : s.cfg.timeSrc = .mono) (hmax : storedCounter s.cfg s.nv ≠ 2 ^ 32 - 1) :
    TimeStep s (wordAt (s.cfg.nvTimeOfs + 4) s.nv) s.clockAnswers s.draws (counterCells s) :=
  .inr ⟨hsrc, hmax, rfl, rfl, rfl, rfl⟩

theorem exec_ctlPoll_mono {b : Byte} {s : State} (hrun : s.halted = false) (hr : reservedBitsSet b = false)
    (ht : triggers b s = true) (hl : LegalLayout s.cfg) (hsrc : s.cfg.timeSrc = .mono)
    (hmax : storedCounter s.cfg s.nv ≠ 2 ^ 32 - 1) : exec (.ctlPoll b) s = .next (generatedMono s) :=
  exec_ok (i := .ctlPoll b) hrun rfl ((poll_generate hr ht hl).trans (by rw [generateTime_mono_eq hsrc hl hmax, ok_bind]; rfl))

theorem exec_ctlPoll_exhausted {b : Byte} {s : State} (hrun : s.halted = false) (hr : reservedBitsSet b = false)
    (ht : triggers b s = true) (hl : LegalLayout s.cfg) (hsrc : s.cfg.timeSrc = .mono)
    (hmax : storedCounter s.cfg s.nv = 2 ^ 32 - 1) :
    exec (.ctlPoll b) s = .next (takeFault .counterExhausted Opcode.ctlPoll s) :=
  exec_raise (i := .ctlPoll b) hrun rfl ((poll_generate hr ht hl).trans (by rw [generateTime_exhausted hsrc hl hmax, error_bind]))

/-! ## The stored counter over a frame -/

/-- What a frame other than HOST_SET_COUNTER does to the stored counter (R126). -/
theorem effect_storedCounter {i : Instr} {s t : State} (hl : LegalLayout s.cfg) (h : Memory.wf s.nv = true)
    (hi : ∀ v, i ≠ .hostSetCounter v) (ht : Effect s i t) :
    storedCounter s.cfg t.nv = storedCounter s.cfg s.nv ∨
      (storedCounter s.cfg t.nv = storedCounter s.cfg s.nv + 1 ∧ t.tcount.toNat = storedCounter s.cfg s.nv ∧
        (i = .tcMono ∨ ∃ b, i = .ctlPoll b ∧ reservedBitsSet b = false ∧ triggers b s = true ∧ s.cfg.timeSrc = .mono ∧
          storedCounter s.cfg s.nv ≠ 2 ^ 32 - 1)) := by
  cases ht with
  | tcMono hmax =>
    refine .inr ⟨?_, wordAt_toNat .., .inl rfl⟩
    exact (storedCounter_write s.cfg _ h).trans (nextCounter_toNat hmax)
  | pollGenerates b c answers draws cells hr htrue hstep =>
    rcases storedCounter_generatedFrom hl h hstep with ⟨-, hsame⟩ | ⟨hsrc, hc, hnext⟩
    · exact .inl hsame
    · rcases hstep with ⟨hext, -⟩ | ⟨-, hmax, -⟩
      · rw [hext] at hsrc
        cases hsrc
      · exact .inr ⟨hnext, hc, .inr ⟨b, rfl, hr, htrue, hsrc, hmax⟩⟩
  | hostProvisionAccepted secret cells hcells =>
    have hlen := hl.lenTime
    have hsecret := hl.secretTime
    refine .inl (storedCounter_congr fun a _ _ => Memory.read_writeAll_other _ fun c hc => ?_)
    have := hcells c hc
    omega
  | hostSetCounterAccepted cval cells => exact absurd rfl (hi cval)
  | _ => exact .inl rfl

/-- The store stays canonical over any frame. -/
theorem exec_wf {i : Instr} {s t : State} (h : Memory.wf s.nv = true) (ht : exec i s = .next t) : Memory.wf t.nv = true := by
  obtain ⟨cells, -, hnv⟩ := (exec_keeps ht).store
  rw [hnv]
  exact Memory.wf_writeAll cells h

theorem exec_cfg {i : Instr} {s t : State} (ht : exec i s = .next t) : t.cfg = s.cfg := (exec_keeps ht).cfg

/-- The same of any sequence of frames. -/
theorem runFrames_legal {is : List Instr} {s t : State} (hl : LegalLayout s.cfg) (h : Memory.wf s.nv = true)
    (ht : runFrames is s = .next t) : t.cfg = s.cfg ∧ LegalLayout t.cfg ∧ Memory.wf t.nv = true := by
  have hkeep := runFrames_keeps (P := fun u => u.cfg = s.cfg ∧ Memory.wf u.nv = true)
    (fun i _ u v hu hv => ⟨(exec_cfg hv).trans hu.1, exec_wf hu.2 hv⟩) ⟨rfl, h⟩ ht
  exact ⟨hkeep.1, hkeep.1 ▸ hl, hkeep.2⟩

theorem exec_storedCounter_le {i : Instr} {s t : State} (hl : LegalLayout s.cfg) (h : Memory.wf s.nv = true)
    (hi : ∀ v, i ≠ .hostSetCounter v) (ht : exec i s = .next t) : storedCounter s.cfg s.nv ≤ storedCounter t.cfg t.nv := by
  rw [exec_cfg ht]
  rcases exec_effect hl ht with ⟨f, rfl⟩ | heffect
  · exact le_rfl
  · rcases effect_storedCounter hl h hi heffect with hsame | ⟨hnext, -⟩
    · exact hsame.ge
    · exact (Nat.le_succ _).trans hnext.ge

theorem runFrames_storedCounter_le {is : List Instr} {s t : State} (hl : LegalLayout s.cfg) (h : Memory.wf s.nv = true)
    (hi : ∀ v, .hostSetCounter v ∉ is) (ht : runFrames is s = .next t) :
    storedCounter s.cfg s.nv ≤ storedCounter t.cfg t.nv := by
  induction is generalizing s with
  | nil =>
    cases ht
    exact le_rfl
  | cons i is ih =>
    obtain ⟨u, hu, ht⟩ := runFrames_cons_next ht
    have hfirst := exec_storedCounter_le hl h (fun v heq => hi v (heq ▸ List.mem_cons_self)) hu
    exact hfirst.trans (ih (exec_cfg hu ▸ hl) (exec_wf h hu) (fun v hv => hi v (List.mem_cons_of_mem i hv)) ht)

/-! ## Generations of `MONO` mode -/

theorem generates_iff {i : Instr} {s : State} :
    generates i s = true ↔ ∃ b, i = .ctlPoll b ∧ s.halted = false ∧ b.toNat < 8 ∧ triggers b s = true ∧
      (s.cfg.timeSrc = .ext ∨ storedCounter s.cfg s.nv ≠ 2 ^ 32 - 1) := by
  cases i with
  | ctlPoll b => simp [generates, and_assoc]
  | _ => simp [generates]

theorem lt_eight_of_not_reserved {b : Byte} : reservedBitsSet b = false → b.toNat < 8 := by
  revert b
  decide

/-- A frame that generates uses the stored counter and stores the next one. -/
theorem exec_generates_mono {i : Instr} {s : State} (hl : LegalLayout s.cfg) (h : Memory.wf s.nv = true)
    (hsrc : s.cfg.timeSrc = .mono) (hg : generates i s = true) :
    ∃ t, exec i s = .next t ∧ t.tcount.toNat = storedCounter s.cfg s.nv ∧
      storedCounter t.cfg t.nv = storedCounter s.cfg s.nv + 1 := by
  obtain ⟨b, rfl, hrun, hb, ht, hcounter⟩ := generates_iff.1 hg
  have hmax : storedCounter s.cfg s.nv ≠ 2 ^ 32 - 1 := hcounter.resolve_left (by simp [hsrc])
  rcases storedCounter_generatedFrom hl h (timeStep_mono hsrc hmax) with ⟨hext, -⟩ | ⟨-, hc, hnext⟩
  · rw [hext] at hsrc
    cases hsrc
  · exact ⟨_, exec_ctlPoll_mono hrun (reservedBitsSet_of_lt hb) ht hl hsrc hmax, hc, hnext⟩

/-- A frame that does not generate, and is neither HOST_SET_COUNTER nor TC_MONO, leaves the stored counter. -/
theorem exec_not_generates_mono {i : Instr} {s t : State} (hl : LegalLayout s.cfg) (h : Memory.wf s.nv = true)
    (hi : ∀ v, i ≠ .hostSetCounter v) (hi' : i ≠ .tcMono) (hg : ¬ generates i s = true) (ht : exec i s = .next t) :
    storedCounter t.cfg t.nv = storedCounter s.cfg s.nv := by
  rw [exec_cfg ht]
  rcases exec_next ht with ⟨-, rfl⟩ | ⟨-, c, rfl⟩ | ⟨hrun, -, hok⟩
  · rfl
  · rfl
  · rcases effect_storedCounter hl h hi (bodyOf_effect hl hok) with hsame | ⟨-, -, rfl | ⟨b, rfl, hr, htrue, -, hmax⟩⟩
    · exact hsame
    · exact absurd rfl hi'
    · exact absurd (generates_iff.2 ⟨b, rfl, hrun, lt_eight_of_not_reserved hr, htrue, .inr hmax⟩) hg

theorem generations_cons {i : Instr} {is : List Instr} {s t : State} (h : exec i s = .next t) :
    generations (i :: is) s = (if generates i s then 1 else 0) + generations is t := by
  simp [generations, h]

/-- R126: each generation takes the stored counter one further, and no other of these frames moves it. -/
theorem runFrames_storedCounter {is : List Instr} {s t : State} (hl : LegalLayout s.cfg) (h : Memory.wf s.nv = true)
    (hsrc : s.cfg.timeSrc = .mono) (hi : ∀ v, .hostSetCounter v ∉ is) (hi' : .tcMono ∉ is) (ht : runFrames is s = .next t) :
    storedCounter t.cfg t.nv = storedCounter s.cfg s.nv + generations is s := by
  induction is generalizing s with
  | nil =>
    cases ht
    rw [generations, Nat.add_zero]
  | cons i is ih =>
    obtain ⟨u, hu, ht⟩ := runFrames_cons_next ht
    have hcfg := exec_cfg hu
    have hrest := ih (hcfg ▸ hl) (exec_wf h hu) (hcfg ▸ hsrc) (fun v hv => hi v (List.mem_cons_of_mem i hv))
      (fun hv => hi' (List.mem_cons_of_mem i hv)) ht
    rw [hrest, generations_cons hu]
    by_cases hg : generates i s = true
    · obtain ⟨u', hu', -, hnext⟩ := exec_generates_mono hl h hsrc hg
      cases hu.symm.trans hu'
      rw [hnext, if_pos hg, Nat.add_assoc]
    · rw [exec_not_generates_mono hl h (fun v heq => hi v (heq ▸ List.mem_cons_self))
        (fun heq => hi' (heq ▸ List.mem_cons_self)) hg hu, if_neg hg, Nat.zero_add]

end Sys2Proof.Machine

namespace Sys2Proof

open Machine Safety

/-- Settles O36: the effect of each frame on the stored counter, and induction over the frames. -/
theorem monotonicCounterNeverDecreases : Obligations.MonotonicCounterNeverDecreases := by
  unfold Obligations.MonotonicCounterNeverDecreases
  refine ⟨fun i s t hcfg hwf hi h => ?_, fun is s t hcfg hwf hi h => runFrames_storedCounter_le (legalLayout hcfg) hwf hi h⟩
  rw [exec_cfg h]
  rcases exec_effect (legalLayout hcfg) h with ⟨f, rfl⟩ | heffect
  · exact .inl rfl
  · rcases effect_storedCounter (legalLayout hcfg) hwf hi heffect with hsame | ⟨hnext, hcount, hwhich⟩
    · exact .inl hsame
    · exact .inr ⟨hnext, hcount, hwhich.imp_right fun ⟨b, hb, _, ht, hsrc, _⟩ => ⟨b, hb, ht, hsrc⟩⟩

/-- Settles O37: `runFrames_storedCounter`, and the next generation by `exec_generates_mono`. -/
theorem counterCountsGenerations : Obligations.CounterCountsGenerations := by
  unfold Obligations.CounterCountsGenerations
  intro is s t hcfg hwf hsrc hi hi' h
  have hcount := runFrames_storedCounter (legalLayout hcfg) hwf hsrc hi hi' h
  obtain ⟨htcfg, hl, htwf⟩ := runFrames_legal (legalLayout hcfg) hwf h
  refine ⟨hcount, fun i hg => ?_⟩
  rw [← hcount]
  exact exec_generates_mono hl htwf (htcfg ▸ hsrc) hg

/-- Settles O41: the generation with the clock writes the password region alone. -/
theorem generationFromTheClock : Obligations.GenerationFromTheClock := by
  unfold Obligations.GenerationFromTheClock
  intro s b hrun hcfg hwf hb ht hsrc
  obtain ⟨answer, answers, draws, c, h, hanswer, hc⟩ :=
    exec_ctlPoll_ext hrun (reservedBitsSet_of_lt hb) ht (legalLayout hcfg) hsrc
  exact ⟨_, answer, c, h, hanswer, hc, afterGeneration_fields rfl, storedPassword_generatedFrom hwf _ _ _ _, fun a ha =>
    read_generatedFrom hwf ha _ _ _ _⟩

/-- Settles O42: the generation with the stored counter writes the next counter, then the password; neither overlaps the secret. -/
theorem generationFromTheCounter : Obligations.GenerationFromTheCounter := by
  unfold Obligations.GenerationFromTheCounter
  intro s b hrun hcfg hwf hb ht hsrc
  have hl := legalLayout hcfg
  have hr := reservedBitsSet_of_lt hb
  refine ⟨exec_ctlPoll_exhausted hrun hr ht hl hsrc, fun hmax => ?_⟩
  obtain ⟨hc, hnext⟩ : _ ∧ storedCounter s.cfg (generatedMono s).nv = storedCounter s.cfg s.nv + 1 :=
    ((storedCounter_generatedFrom hl hwf (timeStep_mono hsrc hmax)).resolve_left (by simp [hsrc])).2
  refine ⟨_, _, exec_ctlPoll_mono hrun hr ht hl hsrc hmax, hc, afterGeneration_fields (storedSecret_write_counter hl _ hwf), rfl,
    rfl, hnext, storedPassword_generatedFrom hwf _ _ _ _, fun a hpw hcounter => ?_⟩
  exact (read_generatedFrom hwf hpw ..).trans (read_writeAll_outside hwf (by rw [be32_length]; omega))

/-- Settles O43: the writes in the order of the generation's log, and no report but from an emission cycle. -/
theorem counterIsPersistedBeforeThePassword : Obligations.CounterIsPersistedBeforeThePassword := by
  unfold Obligations.CounterIsPersistedBeforeThePassword
  refine ⟨fun s t b hcfg ht hsrc hrun h hfault => ?_, fun i s t hcfg h hne => ?_⟩
  · have hl := legalLayout hcfg
    have hok := bodyOf_ok_of_fault_eq hrun h hfault
    obtain ⟨hr, -⟩ := poll_cases hl hok
    have hmax : storedCounter s.cfg s.nv ≠ 2 ^ 32 - 1 := fun hmax => by
      cases (exec_ctlPoll_exhausted hrun hr ht hl hsrc hmax).symm.trans h
      have hhalt := halted_of_fault hfault hrun
      rw [takeFault_halted] at hhalt
      cases hhalt
    cases (exec_ctlPoll_mono hrun hr ht hl hsrc hmax).symm.trans h
    have hlog : (generatedMono s).storeLog = s.storeLog ++ (counterCells s ++ cellsAt s.cfg.nvPwOfs (generatedMono s).pw.toList) :=
      generatedFrom_storeLog ..
    refine ⟨rfl, ?_, ?_⟩
    · rw [hlog, counterCells, wordAt_succ, cellsAt_be32_eq_zip, cellsAt_eq_zip, Vector.length_toList]
    · rw [hlog, List.drop_left, Memory.writeAll_append]
      exact generatedFrom_nv ..
  · rcases exec_reports (legalLayout hcfg) h with hsame | ⟨hemit, -⟩
    · exact absurd hsame hne
    · exact emitting_iff.1 hemit

end Sys2Proof
end

section
/-! TC_BCD and TC_MONO (43_timecounter.md R116 to R125), NVWrite (20_memory.md R56, R57) and the host-channel frames that write the
store (44_controller.md R139, R141). -/

namespace Sys2Proof.Machine

open Reference Safety

/-! ## TC_BCD -/

/-- TC_BCD of a ready engine: some counter, the decoded one for a month of 1 to 12. -/
theorem exec_tcBcd (b : ClockBytes) {s : State} (hs : engineReady s) :
    ∃ c, exec (.tcBcd b) s = .next (setTime c { s with
        draws := if 1 ≤ bcd b.month ∧ bcd b.month ≤ 12 then s.draws else s.draws + 1 }) ∧
      ∀ c', bcdCounter b = some c' → c = c' := by
  obtain ⟨c, hc, he⟩ := tcBcdBody_eq b s
  refine ⟨c, ?_, hc⟩
  have hbody : bodyOf (.tcBcd b) s = .ok _ := congrArg Except.ok he
  simpa only [bcdCounter_isSome] using exec_ready hs hbody

/-- The seconds of a clock value whose month has the entry `cum` in the table (R118, R119). -/
def clockSeconds (b : ClockBytes) (cum : Nat) : Nat :=
  secondsCount (dayCount (bcd b.year) (bcd b.month) (bcd b.day) cum) (bcd b.hours) (bcd b.minutes) (bcd b.seconds)

theorem exec_tcBcd_tcount {b : ClockBytes} {cum : Nat} {s : State} (hs : engineReady s) (h : cumDays (bcd b.month) = some cum) :
    ∃ t, exec (.tcBcd b) s = .next t ∧ t.tcount.toNat = clockSeconds b cum / 30 % 2 ^ 32 := by
  obtain ⟨c, hexec, hc⟩ := exec_tcBcd b hs
  refine ⟨_, hexec, ?_⟩
  show c.toNat = _
  rw [hc _ (bcdCounter_eq h), BitVec.toNat_ofNat]
  rfl

/-! ## The calendar of 2000 to 2099 (R125) -/

/-- In these years every fourth year is a leap year, 2000 included. -/
theorem isLeapYear_2000 {y : Nat} (h : y < 100) : isLeapYear (2000 + y) = decide (y % 4 = 0) := by
  have h4 : (2000 + y) % 4 = y % 4 := by omega
  have h100 : (2000 + y) % 100 = y := by omega
  have h400 : (2000 + y) % 400 = y := by omega
  have hcentury : (y != 0 || y == 0) = true := Bool.not_or_self _
  rw [isLeapYear, h4, h100, h400, hcentury, Bool.and_true]
  rfl

theorem daysBeforeYear_succ {y : Nat} (h : 1970 ≤ y) :
    daysBeforeYear (y + 1) = daysBeforeYear y + if isLeapYear y then 366 else 365 := by
  obtain ⟨k, rfl⟩ := Nat.exists_eq_add_of_le h
  rw [daysBeforeYear, daysBeforeYear, show 1970 + k + 1 - 1970 = k + 1 by omega, show 1970 + k - 1970 = k by omega,
    List.range_succ, List.map_append, List.sum_append]
  simp

theorem daysBeforeYear_2000 {y : Nat} (h : y < 100) : daysBeforeYear (2000 + y) = 10957 + 365 * y + (y + 3) / 4 := by
  induction y with
  | zero => decide
  | succ y ih =>
    rw [← Nat.add_assoc, daysBeforeYear_succ (by omega), ih (by omega), isLeapYear_2000 (by omega)]
    by_cases h4 : y % 4 = 0
    · simp only [h4, decide_true, if_true]
      omega
    · simp only [h4, decide_false, Bool.false_eq_true, if_false]
      omega

/-- The table of R117 with the leap day of R118 counts the days before a month. -/
theorem daysBeforeMonth_2000 {y m : Nat} (hy : y < 100) (h1 : 1 ≤ m) (h12 : m ≤ 12) :
    cumDays m = some (daysBeforeMonth (2000 + y) m - leapDay y m) ∧ leapDay y m ≤ daysBeforeMonth (2000 + y) m := by
  have hleap := isLeapYear_2000 hy
  by_cases h4 : y % 4 = 0
  · simp only [h4, decide_true] at hleap
    interval_cases m <;> simp [daysBeforeMonth, daysInMonth, List.range_succ, hleap, leapDay, h4, cumDays]
  · simp only [h4, decide_false] at hleap
    interval_cases m <;> simp [daysBeforeMonth, daysInMonth, List.range_succ, hleap, leapDay, h4, cumDays]

theorem daysBeforeMonth_le {y m : Nat} (h : m ≤ 12) : daysBeforeMonth y m ≤ 335 := by
  cases hleap : isLeapYear y <;> interval_cases m <;> simp [daysBeforeMonth, daysInMonth, List.range_succ, hleap]

theorem daysInMonth_le (y m : Nat) : daysInMonth y m ≤ 31 := by
  unfold daysInMonth
  split
  · split <;> decide
  all_goals decide

/-- S of R119 is Unix time. -/
theorem secondsCount_eq_unixTime {y m d h mi sec cum : Nat} (hy : y < 100) (h1 : 1 ≤ m) (h12 : m ≤ 12) (hd : 1 ≤ d)
    (hcum : cumDays m = some cum) : secondsCount (dayCount y m d cum) h mi sec = unixTime (2000 + y) m d h mi sec := by
  obtain ⟨hmonth, hle⟩ := daysBeforeMonth_2000 hy h1 h12
  cases hcum.symm.trans hmonth
  have hdays : dayCount y m d (daysBeforeMonth (2000 + y) m - leapDay y m) =
      daysBeforeYear (2000 + y) + daysBeforeMonth (2000 + y) m + (d - 1) := by
    rw [dayCount, daysBeforeYear_2000 hy]
    omega
  rw [secondsCount, hdays, unixTime]

theorem unixTime_lt {y m d h mi sec : Nat} (hy : y < 100) (h12 : m ≤ 12) (hd : d ≤ daysInMonth (2000 + y) m) (hh : h < 24)
    (hmi : mi < 60) (hsec : sec < 60) : unixTime (2000 + y) m d h mi sec < 2 ^ 32 := by
  have hyear := daysBeforeYear_2000 hy
  have hmonth := daysBeforeMonth_le (y := 2000 + y) h12
  have hday := daysInMonth_le (2000 + y) m
  rw [unixTime]
  omega

/-! ## TC_MONO and the store -/

/-- The writes of one sequence after another. -/
theorem cellsAt_append (a : Nat) (x y : List Byte) : cellsAt a (x ++ y) = cellsAt a x ++ cellsAt (a + x.length) y := by
  induction x generalizing a with
  | nil => rfl
  | cons b x ih =>
    rw [List.cons_append, cellsAt, ih, cellsAt, List.cons_append, List.length_cons, Nat.add_assoc, Nat.add_comm 1]

/-- A read of what was just written. -/
theorem nvRead_storeCells {a : Nat} {v : List Byte} {s : State} (h : Memory.wf s.nv = true) (hin : a + v.length ≤ s.cfg.nvSize) :
    nvRead a v.length (storeCells (cellsAt a v) s) = .ok v := by
  rw [nvRead_ok (s := storeCells (cellsAt a v) s) hin]
  refine congrArg Except.ok (List.ext_getElem (by simp) fun i hi hi' => ?_)
  rw [List.getElem_map, List.getElem_range, storeCells_nv, read_writeAll_cellsAt h, if_pos (by omega), Nat.add_sub_cancel_left,
    List.getD_eq_getElem _ _ hi']

/-- The length byte and the secret read back after HOST_PROVISION. -/
theorem storedSecret_write {c : Config} (hl : LegalLayout c) {secret : List Byte} (hlen : secret.length ≤ 64) {m : Memory}
    (h : Memory.wf m = true) (hm : (Memory.read c.nvLenOfs m).toNat = secret.length) :
    (Memory.read c.nvLenOfs (Memory.writeAll (cellsAt c.nvSecretOfs secret) m)).toNat = secret.length ∧
      storedSecret c (Memory.writeAll (cellsAt c.nvSecretOfs secret) m) = secret := by
  have hapart := hl.lenSecret
  have hlength : (Memory.read c.nvLenOfs (Memory.writeAll (cellsAt c.nvSecretOfs secret) m)).toNat = secret.length := by
    rw [read_writeAll_outside h (by omega), hm]
  refine ⟨hlength, ?_⟩
  rw [storedSecret, hlength, Nat.min_eq_left hlen]
  refine List.ext_getElem (by simp) fun i hi hi' => ?_
  rw [List.getElem_map, List.getElem_range, read_writeAll_cellsAt h, if_pos (by omega), Nat.add_sub_cancel_left,
    List.getD_eq_getElem _ _ hi']

theorem exec_hostProvision_accepted {secret : List Byte} {s : State} (hrun : s.halted = false) (hl : LegalLayout s.cfg)
    (h : 1 ≤ secret.length ∧ secret.length ≤ 64) :
    exec (.hostProvision secret) s = .next { storeCells
      (cellsAt s.cfg.nvLenOfs [BitVec.ofNat 8 secret.length] ++ cellsAt s.cfg.nvSecretOfs secret) s with
        hostResult := .accepted } :=
  exec_ok (i := .hostProvision secret) hrun rfl (hostProvision_accepted h hl)

theorem exec_hostSetCounter_mono (cval : Word) {s : State} (hrun : s.halted = false) (hl : LegalLayout s.cfg)
    (h : s.cfg.timeSrc = .mono) :
    exec (.hostSetCounter cval) s = .next { storeCells (cellsAt s.cfg.nvTimeOfs ([0, 0, 0, 0] ++ be32 cval)) s with
      hostResult := .accepted } :=
  exec_ok (i := .hostSetCounter cval) hrun rfl (hostSetCounter_mono h hl)

end Sys2Proof.Machine

namespace Sys2Proof

open Machine Safety

/-- Settles O33: the nibbles of R116 as arithmetic, the table of R117 by its index. -/
theorem tcBcdDecodesTheClock : Obligations.TcBcdDecodesTheClock := by
  unfold Obligations.TcBcdDecodesTheClock
  intro s b hs
  simp only [← bcd_eq]
  obtain ⟨c, hexec, hc⟩ := exec_tcBcd b hs
  refine ⟨c, hexec, fun h1 h12 => ?_⟩
  rw [hc _ (bcdCounter_eq (cumDays_eq ⟨h1, h12⟩)), BitVec.toNat_ofNat]
  rfl

/-- Settles O34: `S` is Unix time in these years, and it is below `2 ^ 32`. -/
theorem tcBcdIsUnixTimeOverThirty : Obligations.TcBcdIsUnixTimeOverThirty := by
  unfold Obligations.TcBcdIsUnixTimeOverThirty
  intro s y m d h mi sec weekday hs hy h1 h12 hd hdm hh hmi hsec
  have hlt := unixTime_lt hy h12 hdm hh hmi hsec
  have hd31 := hdm.trans (daysInMonth_le _ _)
  have hcum := cumDays_eq ⟨h1, h12⟩
  have hmonth : bcd (Reference.toBcd m) = m := bcd_toBcd (by omega)
  obtain ⟨t, ht, hcount⟩ := exec_tcBcd_tcount (b := ⟨Reference.toBcd sec, Reference.toBcd mi, Reference.toBcd h, weekday,
    Reference.toBcd d, Reference.toBcd m, Reference.toBcd y⟩) hs (hmonth.symm ▸ hcum)
  refine ⟨t, ht, ?_, hlt⟩
  rw [hcount, clockSeconds]
  simp only [bcd_toBcd hy, hmonth, bcd_toBcd (show d < 100 by omega), bcd_toBcd (show h < 100 by omega),
    bcd_toBcd (show mi < 100 by omega), bcd_toBcd (show sec < 100 by omega), secondsCount_eq_unixTime hy h1 h12 hd hcum]
  omega

/-- Settles O35: the equations of TC_MONO's pseudocode, and the counter read back. -/
theorem tcMonoUsesAndAdvancesTheCounter : Obligations.TcMonoUsesAndAdvancesTheCounter := by
  unfold Obligations.TcMonoUsesAndAdvancesTheCounter
  intro s hs hcfg hwf
  have htime := (legalLayout hcfg).timeInside
  refine ⟨fun hmax => ?_, fun hmax => ?_⟩
  · exact exec_ready_raise (i := .tcMono) hs (tcMonoBody_exhausted htime ((wordAt_counterAddr_eq_max_iff s).2 hmax))
  · refine ⟨_, wordAt (s.cfg.nvTimeOfs + 4) s.nv,
      exec_ready (i := .tcMono) hs (tcMonoBody_ok htime (mt (wordAt_counterAddr_eq_max_iff s).1 hmax)), wordAt_toNat .., ?_, ?_,
      fun a ha => ?_⟩
    · rw [← wordAt_succ, ← cellsAt_be32_eq_zip]
      rfl
    · exact (storedCounter_write s.cfg _ hwf).trans (nextCounter_toNat hmax)
    · exact read_writeAll_outside hwf (by rw [be32_length, counterAddr]; omega)

/-- Settles O47: the two writes of an accepted secret, and what reads back. -/
theorem hostProvisionWritesTheSecret : Obligations.HostProvisionWritesTheSecret := by
  unfold Obligations.HostProvisionWritesTheSecret
  intro s secret hrun hcfg hwf
  have hl := legalLayout hcfg
  refine ⟨fun hlen => ?_, fun h1 h64 => ?_⟩
  · exact exec_ok (i := .hostProvision secret) hrun rfl (hostProvision_rejected hlen)
  have hbyte : (BitVec.ofNat 8 secret.length).toNat = secret.length := length_byte (by simp [dataFits]; omega)
  have hfirst : Memory.wf (Memory.writeAll (cellsAt s.cfg.nvLenOfs [BitVec.ofNat 8 secret.length]) s.nv) = true :=
    Memory.wf_writeAll _ hwf
  have hread : (Memory.read s.cfg.nvLenOfs
      (Memory.writeAll (cellsAt s.cfg.nvLenOfs [BitVec.ofNat 8 secret.length]) s.nv)).toNat = secret.length := by
    rw [read_writeAll_cellsAt hwf, if_pos (by simp), Nat.sub_self]
    exact hbyte
  obtain ⟨hlength, hsecret⟩ := storedSecret_write hl h64 hfirst hread
  rw [← Memory.writeAll_append] at hlength hsecret
  refine ⟨_, exec_hostProvision_accepted hrun hl ⟨h1, h64⟩, ?_, hlength, hsecret, fun a hlen ha => ?_⟩
  · rw [← cellsAt_eq_zip]
    rfl
  · show Memory.read a (Memory.writeAll _ s.nv) = _
    rw [Memory.writeAll_append, read_writeAll_outside hfirst (by omega),
      read_writeAll_outside hwf (by rw [List.length_singleton]; omega)]

/-- Settles O49: the eight bytes of the time region are four zeros and the counter. -/
theorem hostSetCounterWritesTheCounter : Obligations.HostSetCounterWritesTheCounter := by
  unfold Obligations.HostSetCounterWritesTheCounter
  intro s cval hrun hcfg hwf
  refine ⟨fun hsrc => exec_ok (i := .hostSetCounter cval) hrun rfl (hostSetCounter_ext hsrc), fun hsrc => ?_⟩
  refine ⟨_, exec_hostSetCounter_mono cval hrun (legalLayout hcfg) hsrc, ?_, ?_, fun k hk => ?_, fun a ha => ?_⟩
  · rw [show List.range 8 = List.range ([0, 0, 0, 0] ++ be32 cval).length from rfl, ← cellsAt_eq_zip]
    rfl
  · show storedCounter s.cfg (Memory.writeAll (cellsAt s.cfg.nvTimeOfs ([0, 0, 0, 0] ++ be32 cval)) s.nv) = _
    rw [cellsAt_append, Memory.writeAll_append]
    exact storedCounter_write s.cfg cval (Memory.wf_writeAll _ hwf)
  · refine (read_writeAll_cellsAt hwf).trans ?_
    rw [if_pos (by simp; omega), Nat.add_sub_cancel_left]
    interval_cases k <;> rfl
  · exact read_writeAll_outside hwf ha

/-- Settles O53: NVWrite is its single-byte writes, and NVRead reads them back. -/
theorem nvReadReturnsTheMostRecentWrite : Obligations.NvReadReturnsTheMostRecentWrite := by
  unfold Obligations.NvReadReturnsTheMostRecentWrite
  intro s a v hwf hin
  refine ⟨_, nvWrite_ok hin, ?_, fun x hx => read_writeAll_outside hwf hx, nvRead_storeCells hwf hin, Memory.wf_writeAll _ hwf⟩
  rw [← cellsAt_eq_zip]
  rfl

end Sys2Proof
end

section
/-! Emission cycles over sequences of frames (44_controller.md R142), and the button held down (R144). -/

namespace Sys2Proof.Machine

open Reference Safety

/-! ## A cycle with any frames between its polls -/

theorem typed_zero {s : State} (hrun : s.halted = false) (hc : s.cstate = .sending) (hi : s.idx = 0) : Typed s 0 s where
  cfg := rfl
  halted := hrun
  pw := rfl
  idx := congrArg BitVec.toNat hi
  cstate := hc
  reports := (List.append_nil _).symm

theorem Typed.emitting {s u : State} {n : Nat} (h : Typed s n u) : u.emitting = true := by
  rw [emitting_iff, h.cstate]
  split
  · exact .inl rfl
  · exact .inr rfl

/-- A frame of a cycle: a poll with a slot sends the next report, every other leaves the cycle where it is. -/
theorem typed_step {s u : State} {n : Nat} {i : Instr} (hcfg : configLegal s.cfg = true) (hd : asciiDigits s.pw)
    (h : Typed s n u) (hi : cycleFrame i = true) (hn : slotPoll i = true → n ≤ 10) :
    ∃ t, exec i u = .next t ∧ Typed s (n + if slotPoll i then 1 else 0) t := by
  cases hs : slotPoll i with
  | false => exact typed_other hcfg h hi hs
  | true =>
    cases i with
    | ctlPoll b =>
      have hr : reservedBitsSet b = false := by
        rw [← reservedBad_ctlPoll]
        simpa [cycleFrame, engineFrame] using hi
      have hle := hn hs
      obtain ⟨t, ht, hnext, -⟩ := typed_slot hd h (Nat.le_succ_of_le hle) hr hs
      exact ⟨t, ht, hnext hle⟩
    | _ => cases hs

/-- Up to the eleventh report the polls with a slot count the reports. -/
theorem typed_run {s u : State} {n : Nat} {is : List Instr} (hcfg : configLegal s.cfg = true) (hd : asciiDigits s.pw)
    (h : Typed s n u) (his : ∀ i ∈ is, cycleFrame i = true) (hn : n + (is.filter slotPoll).length ≤ 11) :
    ∃ t, runFrames is u = .next t ∧ Typed s (n + (is.filter slotPoll).length) t := by
  induction is generalizing n u with
  | nil => exact ⟨u, rfl, h⟩
  | cons i is ih =>
    have hcount : ((i :: is).filter slotPoll).length = (if slotPoll i then 1 else 0) + (is.filter slotPoll).length := by
      rw [List.filter_cons]
      split
      · rw [List.length_cons, Nat.add_comm]
      · rw [Nat.zero_add]
    rw [hcount, ← Nat.add_assoc] at hn ⊢
    obtain ⟨v, hv, hnext⟩ := typed_step hcfg hd h (his i List.mem_cons_self) fun hs => by
      rw [if_pos hs] at hn
      omega
    obtain ⟨t, ht, hend⟩ := ih hnext (fun j hj => his j (List.mem_cons_of_mem i hj)) hn
    exact ⟨t, (runFrames_cons hv).trans ht, hend⟩

/-! ## The button held down -/

/-- `n` polls after a generation of `s`, with the button, a slot and the link in each: the hold-counter has counted down from
`HOLD_ARM`, and the emission cycle has sent `n` reports or has ended. -/
structure Held (s : State) (n : Nat) (u : State) : Prop where
  cfg : u.cfg = s.cfg
  halted : u.halted = false
  tsetPend : u.tsetPend = false
  hold : u.hold.toNat = s.cfg.holdArm.toNat - n
  ended : 12 ≤ n → u.cstate = .waiting
  running : n < 12 → u.idx.toNat = (n + 1) / 2 ∧ u.cstate = if n % 2 = 0 then .sending else .releasing

theorem countDown_toNat (h : Byte) : (countDown h).toNat = h.toNat - 1 := by
  unfold countDown
  split
  · rw [BitVec.toNat_sub, show (1 : Byte).toNat = 1 from rfl]
    omega
  · rw [show (0 : Byte).toNat = 0 from rfl]
    omega

/-- Such a poll triggers when the cycle has ended and the hold-counter has run out. -/
theorem Held.triggers_iff {s u : State} {n : Nat} (h : Held s n u) :
    triggers 0x06 u = true ↔ 12 ≤ n ∧ s.cfg.holdArm.toNat ≤ n := by
  have hhold : u.hold = 0 ↔ s.cfg.holdArm.toNat ≤ n := by
    rw [← BitVec.toNat_inj, h.hold, show (0 : Byte).toNat = 0 from rfl]
    omega
  rw [triggers_iff_bits, hhold]
  constructor
  · rintro ⟨hc, -, -, hle⟩
    refine ⟨Nat.not_lt.1 fun hlt => ?_, hle⟩
    have hcycle := (h.running hlt).2
    rw [hc] at hcycle
    split at hcycle
    · cases hcycle
    · cases hcycle
  · rintro ⟨h12, hle⟩
    exact ⟨h.ended h12, h.tsetPend, rfl, hle⟩

/-- One more poll, when this one does not trigger: the rows of R130 for the button held down. -/
theorem Held.step {s u : State} {n : Nat} (h : Held s n u) (hn : ¬ (12 ≤ n ∧ s.cfg.holdArm.toNat ≤ n)) :
    ∃ t, exec (.ctlPoll 0x06) u = .next t ∧ Held s (n + 1) t := by
  have hr : reservedBitsSet 0x06 = false := rfl
  have hhold : (countDown u.hold).toNat = s.cfg.holdArm.toNat - (n + 1) := by
    rw [countDown_toNat, h.hold]
    omega
  by_cases hlt : n < 12
  · obtain ⟨hidx, hcycle⟩ := h.running hlt
    rcases Nat.mod_two_eq_zero_or_one n with heven | hodd
    · have hc : u.cstate = .sending := hcycle.trans (if_pos heven)
      have hnext : (u.idx + 1).toNat = (n + 1 + 1) / 2 := by
        rw [BitVec.toNat_add, hidx, show (1 : BitVec 3).toNat = 1 from rfl]
        omega
      refine ⟨_, exec_ctlPoll_unarmed h.halted (poll_sending_slot hr hc rfl (by omega)),
        h.cfg, h.halted, h.tsetPend, hhold, fun _ => by omega, fun _ => ⟨hnext, (if_neg (by omega)).symm⟩⟩
    · have hc : u.cstate = .releasing := hcycle.trans (if_neg (by omega))
      by_cases hlast : n = 11
      · exact ⟨_, exec_ctlPoll_unarmed h.halted (poll_releasing_slot_last hr hc rfl (by omega)),
          h.cfg, h.halted, h.tsetPend, hhold, fun _ => rfl, fun _ => by omega⟩
      · exact ⟨_, exec_ctlPoll_unarmed h.halted (poll_releasing_slot_more hr hc rfl (by omega)),
          h.cfg, h.halted, h.tsetPend, hhold, fun _ => by omega, fun _ => ⟨hidx.trans (by omega), (if_pos (by omega)).symm⟩⟩
  · have ht : triggers 0x06 u = false := Bool.eq_false_iff.2 (mt h.triggers_iff.1 hn)
    have hc := h.ended (Nat.not_lt.1 hlt)
    exact ⟨_, exec_ctlPoll_unarmed h.halted (poll_waiting_quiet hr hc h.tsetPend ht),
      h.cfg, h.halted, h.tsetPend, hhold, fun _ => hc, fun _ => by omega⟩

theorem Held.run {s u : State} {n : Nat} (h : Held s 0 u) (hn : n ≤ max s.cfg.holdArm.toNat 12) :
    ∃ t, runFrames (List.replicate n (.ctlPoll 0x06)) u = .next t ∧ Held s n t := by
  induction n with
  | zero => exact ⟨u, rfl, h⟩
  | succ n ih =>
    obtain ⟨v, hv, hheld⟩ := ih (by omega)
    obtain ⟨t, ht, hnext⟩ := hheld.step (by omega)
    exact ⟨t, by rw [List.replicate_succ', runFrames_append hv, runFrames_cons ht, runFrames_nil], hnext⟩

/-- The triggering poll starts the count. -/
theorem held_zero {s : State} (hrun : s.halted = false) (hl : LegalLayout s.cfg) (ht : triggers 0x06 s = true)
    (hmax : s.cfg.timeSrc = .mono → storedCounter s.cfg s.nv ≠ 2 ^ 32 - 1) :
    ∃ t, exec (.ctlPoll 0x06) s = .next t ∧ Held s 0 t := by
  obtain ⟨-, hp, -⟩ := triggers_iff.1 ht
  rcases exec_ctlPoll_triggers hrun rfl ht hl with ⟨hsrc, hcounter, -⟩ | ⟨c, answers, draws, nv, log, h⟩
  · exact absurd hcounter (hmax hsrc)
  · exact ⟨_, h, rfl, hrun, hp, rfl, fun h12 => absurd h12 (by decide), fun _ => ⟨rfl, rfl⟩⟩

end Sys2Proof.Machine

namespace Sys2Proof

open Machine Safety

/-- Settles O45: `typed_run` up to the eleventh report, `typed_slot` for the twelfth. -/
theorem emissionCycleIsTwelveReports : Obligations.EmissionCycleIsTwelveReports := by
  unfold Obligations.EmissionCycleIsTwelveReports
  intro s is hcfg hrun hc hi hd his hn
  obtain ⟨t, ht, h⟩ := typed_run hcfg hd (typed_zero hrun hc hi) his (by omega)
  rw [Nat.zero_add] at h
  refine ⟨t, ht, h.halted, h.pw, h.emitting, h.reports, fun h11 b hb hslot => ?_⟩
  rw [h11] at h
  obtain ⟨u, hu, -, hlast⟩ := typed_slot hd h le_rfl (reservedBitsSet_of_lt hb) hslot
  obtain ⟨hreports, hwaiting, hidx, hpw⟩ := hlast rfl
  exact ⟨u, hu, hreports, hwaiting, hidx, hpw⟩

/-- Settles O46: the first poll generates, and the `n` polls after it count as `Held` says. -/
theorem heldButtonRetriggers : Obligations.HeldButtonRetriggers := by
  unfold Obligations.HeldButtonRetriggers
  intro s k hcfg hrun hc hp hh hmax period hk
  have htrigger : triggers 0x06 s = true := triggers_iff_bits.2 ⟨hc, hp, rfl, hh⟩
  cases k with
  | zero => exact ⟨s, rfl, iff_of_true htrigger (.inl rfl)⟩
  | succ n =>
    obtain ⟨u, hu, hstart⟩ := held_zero hrun (legalLayout hcfg) htrigger hmax
    obtain ⟨t, ht, hend⟩ := hstart.run (n := n) (by omega)
    refine ⟨t, by rw [List.replicate_succ, runFrames_cons hu, ht], hend.triggers_iff.trans ?_⟩
    omega

end Sys2Proof
end

section
/-! The store outside the four regions (20_memory.md R48): no frame writes it, and every pseudocode commutes with a change of a byte
there (`poke`), so that what the byte holds makes no difference. -/

namespace Sys2Proof.Machine

open Safety

/-- A sequence of pseudocode commutes with `f` when its continuation does. -/
theorem bind_map_congr {α : Type} {x : Except Stop α} {k k' : α → Except Stop State} {f : State → State}
    (h : ∀ a, x = .ok a → k' a = (k a).map f) : (x >>= k') = (x >>= k).map f := by
  cases x with
  | error r => rfl
  | ok a => exact h a rfl

/-- `s` with the byte `v` at the address `a`. -/
def poke (a : Nat) (v : Byte) (s : State) : State := { s with nv := Memory.write a v s.nv }

/-- A write apart from an address commutes with a write to it. -/
theorem writeAll_write_comm {a : Nat} (v : Byte) {cells : List Host.Cell} {m : Memory} (h : Memory.wf m = true)
    (hc : ∀ c ∈ cells, c.1 ≠ a) :
    Memory.writeAll cells (Memory.write a v m) = Memory.write a v (Memory.writeAll cells m) := by
  induction cells generalizing m with
  | nil => rfl
  | cons c cells ih =>
    have hswap : Memory.write c.1 c.2 (Memory.write a v m) = Memory.write a v (Memory.write c.1 c.2 m) := by
      refine Memory.ext_of_wf (Memory.wf_write _ _ (Memory.wf_write _ _ h)) (Memory.wf_write _ _ (Memory.wf_write _ _ h))
        fun x => ?_
      have hne := hc c List.mem_cons_self
      rw [Memory.read_write _ _ _ (Memory.wf_write _ _ h), Memory.read_write _ _ _ h,
        Memory.read_write _ _ _ (Memory.wf_write _ _ h), Memory.read_write _ _ _ h]
      by_cases hx : x = c.1
      · rw [if_pos hx, if_neg (hx ▸ hne), if_pos hx]
      · rw [if_neg hx, if_neg hx]
    rw [Memory.writeAll_cons, hswap, ih (Memory.wf_write _ _ h) fun d hd => hc d (List.mem_cons_of_mem c hd), Memory.writeAll_cons]

section

variable {a : Nat} {v : Byte} {s : State} (hl : LegalLayout s.cfg) (hwf : Memory.wf s.nv = true) (ha : ¬ inRegion s.cfg a)

theorem poke_storeCells {cells : List Host.Cell} {u : State} (h : Memory.wf u.nv = true) (hc : ∀ c ∈ cells, c.1 ≠ a) :
    storeCells cells (poke a v u) = poke a v (storeCells cells u) := by
  rw [storeCells, poke, poke, storeCells, writeAll_write_comm v h hc]

include ha in
/-- A byte of a region reads the same. -/
theorem read_poke {x : Nat} (hx : inRegion s.cfg x) (m : Memory) : Memory.read x (Memory.write a v m) = Memory.read x m :=
  Memory.read_write_other v m fun heq => ha (heq ▸ hx)

include ha in
theorem wordAt_poke (m : Memory) : wordAt (s.cfg.nvTimeOfs + 4) (Memory.write a v m) = wordAt (s.cfg.nvTimeOfs + 4) m := by
  have hread : ∀ k, k < 4 → Memory.read (s.cfg.nvTimeOfs + 4 + k) (Memory.write a v m) =
      Memory.read (s.cfg.nvTimeOfs + 4 + k) m := fun k hk => read_poke ha (by unfold inRegion; omega) m
  rw [wordAt, hread 1 (by decide), hread 2 (by decide), hread 3 (by decide)]
  exact congrArg (readBE32 · _ _ _) (hread 0 (by decide))

include ha in
theorem storedSecret_poke (m : Memory) : storedSecret s.cfg (Memory.write a v m) = storedSecret s.cfg m :=
  storedSecret_congr (read_poke ha (.inl rfl) m) fun _ hlo hhi => read_poke ha (.inr (.inl ⟨hlo, hhi⟩)) m

/-! ## The pseudocodes -/

theorem tcBcdBody_poke (b : ClockBytes) (s : State) : tcBcdBody b (poke a v s) = poke a v (tcBcdBody b s) := by
  unfold tcBcdBody
  cases bcdCounter b with
  | none => rfl
  | some c => rfl

include hl hwf ha in
theorem tcMonoBody_poke : tcMonoBody (poke a v s) = (tcMonoBody s).map (poke a v) := by
  have hword : wordAt (counterAddr (poke a v s)) (poke a v s).nv = wordAt (counterAddr s) s.nv := wordAt_poke ha s.nv
  by_cases hmax : wordAt (counterAddr s) s.nv = 0xFFFFFFFF
  · rw [tcMonoBody_exhausted hl.timeInside hmax, tcMonoBody_exhausted (s := poke a v s) hl.timeInside (hword.trans hmax)]
    rfl
  · rw [tcMonoBody_ok hl.timeInside hmax, tcMonoBody_ok (s := poke a v s) hl.timeInside (hword ▸ hmax), hword]
    refine congrArg Except.ok (poke_storeCells (u := setTime _ s) hwf fun c hc heq => ha ?_)
    exact heq ▸ inRegion_counter c hc

theorem clockRead_nil {s : State} (h : s.clockAnswers = []) :
    clockRead s = (Config.freeClock s.draws, { s with draws := s.draws + 1 }) := by
  simp only [clockRead, h]

theorem clockRead_cons {s : State} {b : ClockBytes} {bs : List ClockBytes} (h : s.clockAnswers = b :: bs) :
    clockRead s = (b, { s with clockAnswers := bs }) := by
  simp only [clockRead, h]

theorem clockRead_poke (s : State) : clockRead (poke a v s) = ((clockRead s).1, poke a v (clockRead s).2) := by
  cases h : s.clockAnswers with
  | nil => rw [clockRead_nil h, clockRead_nil (s := poke a v s) h]; rfl
  | cons b bs => rw [clockRead_cons h, clockRead_cons (s := poke a v s) h]; rfl

include hl hwf ha in
theorem generateTime_poke : generateTime (poke a v s) = (generateTime s).map (poke a v) := by
  cases hsrc : s.cfg.timeSrc with
  | ext =>
    rw [generateTime_ext hsrc, generateTime_ext (s := poke a v s) hsrc, clockRead_poke, tcBcdBody_poke]
    rfl
  | mono =>
    rw [generateTime_mono hsrc, generateTime_mono (s := poke a v s) hsrc]
    exact tcMonoBody_poke hl hwf ha

include ha in
/-- Steps (2) to (5) of a generation read the secret alone and write the password alone. -/
theorem afterGeneration_poke {u : State} (hcfg : u.cfg = s.cfg) (hu : Memory.wf u.nv = true) :
    afterGeneration (poke a v s) (poke a v u) = poke a v (afterGeneration s u) := by
  have hcells : ∀ (pw : Vector Byte 6), ∀ c ∈ cellsAt u.cfg.nvPwOfs pw.toList, c.1 ≠ a := fun pw c hc heq => ha <| by
    have hcell := mem_cellsAt hc
    rw [Vector.length_toList, hcfg] at hcell
    exact heq ▸ .inr (.inr (.inr hcell))
  have hsecret : storedSecret (poke a v u).cfg (poke a v u).nv = storedSecret u.cfg u.nv := by
    show storedSecret u.cfg (Memory.write a v u.nv) = _
    rw [hcfg, storedSecret_poke ha]
  unfold afterGeneration generated
  rw [hsecret]
  simp only [storeCells, poke, updateHold, writeAll_write_comm v hu (hcells _)]
  rfl

theorem pollIdle_poke (p : Pins) (s : State) : pollIdle p (poke a v s) = poke a v (pollIdle p s) := by
  unfold pollIdle
  split <;> rfl

theorem pollReleasing_poke (p : Pins) (s : State) : pollReleasing p (poke a v s) = poke a v (pollReleasing p s) := by
  unfold pollReleasing
  split <;> rfl

theorem poll_sending_stop {b : Byte} {s : State} (hr : reservedBitsSet b = false) (hc : s.cstate = .sending)
    (hs : (pinsOf b).slot = true) (hi : ¬ s.idx.toNat < 6) :
    ctlPollBody b s = .error (.stop .digitIndexOutOfRange) := by
  simp [ctlPollBody, hr, pollCase, hc, pollSending, hs, hi]

include hl hwf ha in
theorem ctlPollBody_poke (b : Byte) : ctlPollBody b (poke a v s) = (ctlPollBody b s).map (poke a v) := by
  cases hr : reservedBitsSet b with
  | true =>
    rw [poll_reserved hr, poll_reserved hr]
    rfl
  | false =>
    cases hc : s.cstate with
    | idle =>
      rw [poll_idle hr hc, poll_idle (s := poke a v s) hr hc, pollIdle_poke]
      rfl
    | waiting =>
      cases hp : s.tsetPend with
      | true =>
        rw [poll_waiting_pending hr hc hp, poll_waiting_pending (s := poke a v s) hr hc hp]
        rfl
      | false =>
        cases ht : triggers b s with
        | true =>
          rw [poll_generate hr ht hl, poll_generate (s := poke a v s) hr ht hl, generateTime_poke hl hwf ha]
          cases hu : generateTime s with
          | error r => rfl
          | ok u =>
            obtain ⟨cells, -, hnv⟩ := (keeps_generateTime s u hu).store
            have hwf' : Memory.wf u.nv = true := hnv ▸ Memory.wf_writeAll cells hwf
            exact congrArg Except.ok (afterGeneration_poke ha (generateTime_cfg hu) hwf')
        | false =>
          rw [poll_waiting_quiet hr hc hp ht, poll_waiting_quiet (s := poke a v s) hr hc hp ht]
          rfl
    | settingTime =>
      rw [poll_settingTime hr hc, poll_settingTime (s := poke a v s) hr hc]
      rfl
    | sending =>
      cases hs : (pinsOf b).slot with
      | true =>
        by_cases hi : s.idx.toNat < 6
        · rw [poll_sending_slot hr hc hs hi, poll_sending_slot (s := poke a v s) hr hc hs hi]
          rfl
        · rw [poll_sending_stop hr hc hs hi, poll_sending_stop (s := poke a v s) hr hc hs hi]
          rfl
      | false =>
        rw [poll_sending_noSlot hr hc hs, poll_sending_noSlot (s := poke a v s) hr hc hs]
        rfl
    | releasing =>
      rw [poll_releasing hr hc, poll_releasing (s := poke a v s) hr hc, pollReleasing_poke]
      rfl

include hl hwf ha in
theorem hostProvisionBody_poke (secret : List Byte) :
    hostProvisionBody secret (poke a v s) = (hostProvisionBody secret s).map (poke a v) := by
  by_cases hlen : 1 ≤ secret.length ∧ secret.length ≤ 64
  · have hregion : ∀ c ∈ cellsAt s.cfg.nvLenOfs [BitVec.ofNat 8 secret.length] ++ cellsAt s.cfg.nvSecretOfs secret,
        c.1 ≠ a := fun c hc heq => ha <| by
      unfold inRegion
      rcases List.mem_append.1 hc with hc | hc
      · have hcell := mem_cellsAt hc
        rw [List.length_singleton] at hcell
        omega
      · have hcell := mem_cellsAt hc
        omega
    rw [hostProvision_accepted hlen hl, hostProvision_accepted (s := poke a v s) hlen hl]
    exact congrArg (fun u => Except.ok { u with hostResult := .accepted }) (poke_storeCells hwf hregion)
  · rw [hostProvision_rejected hlen, hostProvision_rejected hlen]
    rfl

theorem hostSetTimeBody_poke (b : ClockBytes) (s : State) : hostSetTimeBody b (poke a v s) = poke a v (hostSetTimeBody b s) := by
  unfold hostSetTimeBody
  rw [apply_ite (poke a v)]
  rfl

include hl hwf ha in
theorem hostSetCounterBody_poke (cval : Word) :
    hostSetCounterBody cval (poke a v s) = (hostSetCounterBody cval s).map (poke a v) := by
  cases hsrc : s.cfg.timeSrc with
  | ext =>
    rw [hostSetCounter_ext hsrc, hostSetCounter_ext (s := poke a v s) hsrc]
    rfl
  | mono =>
    have hregion : ∀ c ∈ cellsAt s.cfg.nvTimeOfs ([0, 0, 0, 0] ++ be32 cval), c.1 ≠ a := fun c hc heq =>
      ha (heq ▸ .inr (.inr (.inl (mem_cellsAt hc))))
    rw [hostSetCounter_mono hsrc hl, hostSetCounter_mono (s := poke a v s) hsrc hl]
    exact congrArg (fun u => Except.ok { u with hostResult := .accepted }) (poke_storeCells hwf hregion)

/-! ## Every frame -/

theorem absorbState_poke (data : List Byte) (s : State) : absorbState data (poke a v s) = (absorbState data s).map (poke a v) :=
  bind_map_congr fun _ _ => rfl

include hl hwf ha in
theorem bodyOf_poke (i : Instr) : bodyOf i (poke a v s) = (bodyOf i s).map (poke a v) := by
  cases i with
  | shaReset => rfl
  | shaUpdate data => exact absorbState_poke data s
  | shaDigest => exact bind_map_congr (x := finalize s.hash) fun _ _ => rfl
  | macInit key =>
    show macInitBody key (poke a v s) = (macInitBody key s).map _
    unfold macInitBody
    split
    · rfl
    · exact bind_map_congr fun _ _ => rfl
  | macUpdate data =>
    show macUpdateBody data (poke a v s) = (macUpdateBody data s).map _
    by_cases hm : s.mphase = .inner
    · rw [macUpdateBody_inner hm, macUpdateBody_inner (s := poke a v s) hm, absorbState_poke]
    · rw [macUpdateBody, macUpdateBody, if_pos hm, if_pos (show (poke a v s).mphase ≠ .inner from hm)]
      rfl
  | macFinal key =>
    show macFinalBody key (poke a v s) = (macFinalBody key s).map _
    unfold macFinalBody
    split
    · rfl
    · show (if s.mphase ≠ .inner then _ else _) = _
      split
      · rfl
      · exact bind_map_congr fun _ _ => bind_map_congr fun _ _ => bind_map_congr fun _ _ => bind_map_congr fun _ _ => rfl
  | otpTrunc =>
    show otpTruncBody (poke a v s) = (otpTruncBody s).map _
    cases hv : s.doutValid with
    | true =>
      rw [otpTruncBody_ok hv, otpTruncBody_ok (s := poke a v s) hv]
      rfl
    | false =>
      rw [otpTruncBody, otpTruncBody, if_pos hv, if_pos (show (poke a v s).doutValid = false from hv)]
      rfl
  | tcBcd b => exact congrArg Except.ok (tcBcdBody_poke b s)
  | tcMono => exact tcMonoBody_poke hl hwf ha
  | ctlPoll b => exact ctlPollBody_poke hl hwf ha b
  | hostProvision secret => exact hostProvisionBody_poke hl hwf ha secret
  | hostSetTime b => exact congrArg Except.ok (hostSetTimeBody_poke b s)
  | hostSetCounter cval => exact hostSetCounterBody_poke hl hwf ha cval

include hl hwf ha in
theorem exec_poke {i : Instr} {t : State} (h : exec i s = .next t) : exec i (poke a v s) = .next (poke a v t) := by
  have hbody := bodyOf_poke (v := v) hl hwf ha i
  cases hs : s.halted with
  | true =>
    cases (exec_halted hs).symm.trans h
    exact exec_halted (s := poke a v s) hs
  | false =>
    cases hbusy : engineFrame i && s.emitting with
    | true =>
      obtain ⟨heng, hemit⟩ := Bool.and_eq_true_iff.1 hbusy
      cases (exec_engineFrame_busy hs hemit heng).symm.trans h
      exact exec_engineFrame_busy (s := poke a v s) hs hemit heng
    | false =>
      rcases exec_next_of_not_busy hs hbusy h with ⟨c, hc, rfl⟩ | hok
      · rw [hc] at hbody
        exact exec_raise (s := poke a v s) hs hbusy hbody
      · rw [hok] at hbody
        exact exec_ok (s := poke a v s) hs hbusy hbody

end

end Sys2Proof.Machine

namespace Sys2Proof

open Machine Safety

/-- Settles O52: every write lies in a region, and every frame commutes with `poke`. -/
theorem storeOutsideTheRegionsDoesNotMatter : Obligations.StoreOutsideTheRegionsDoesNotMatter := by
  unfold Obligations.StoreOutsideTheRegionsDoesNotMatter
  intro i s t a v hcfg hwf ha h
  have hl := legalLayout hcfg
  obtain ⟨cells, -, hnv, hregion⟩ := exec_writes hl h
  refine ⟨?_, exec_poke hl hwf ha h⟩
  rw [hnv]
  exact Memory.read_writeAll_other _ fun c hc heq => ha (heq ▸ hregion c hc)

end Sys2Proof
end

section
/-! Registers without a value (10_state.md R46): every pseudocode does on the scrubbed state what it does on the state itself, since it
reads such a register under its guard alone. -/

namespace Sys2Proof.Machine

open Safety

/-! ## What `scrub` keeps -/

theorem scrub_hash {s : State} (h : s.hash.phase ≠ .uninit) : (scrub s).hash = s.hash := if_neg h

theorem scrub_pw {s : State} (h : s.pwValid = true) : (scrub s).pw = s.pw := if_pos h

theorem scrub_phase (s : State) : (scrub s).hash.phase = s.hash.phase := by
  by_cases h : s.hash.phase = .uninit
  · exact (congrArg HashEngine.phase (if_pos h)).trans h.symm
  · rw [scrub_hash h]

theorem scrub_active {s : State} (h : s.hash.phase = .active) : (scrub s).hash = s.hash :=
  scrub_hash (by rw [h]; decide)

/-- A scrubbed register stays as it is. -/
theorem ite_ite_same {α : Type} (p : Prop) [Decidable p] (a b : α) :
    (if p then (if p then a else b) else b) = if p then a else b := by
  by_cases h : p
  · rw [if_pos h]
  · rw [if_neg h, if_neg h]

theorem scrub_scrub (s : State) : scrub (scrub s) = scrub s := by
  have hhash : (scrub (scrub s)).hash = (scrub s).hash := by
    by_cases h : s.hash.phase = .uninit
    · exact (if_pos ((scrub_phase s).trans h)).trans (if_pos h).symm
    · exact scrub_hash ((scrub_phase s).symm ▸ h)
  have hdout : (scrub (scrub s)).dout = (scrub s).dout := ite_ite_same ..
  have htruncP : (scrub (scrub s)).truncP = (scrub s).truncP := ite_ite_same ..
  have hcode : (scrub (scrub s)).code = (scrub s).code := ite_ite_same ..
  have hpw : (scrub (scrub s)).pw = (scrub s).pw := ite_ite_same ..
  have htbuf : (scrub (scrub s)).tbuf = (scrub s).tbuf := ite_ite_same ..
  have htcount : (scrub (scrub s)).tcount = (scrub s).tcount := ite_ite_same ..
  have htset : (scrub (scrub s)).tset = (scrub s).tset := ite_ite_same ..
  calc scrub (scrub s) = { scrub s with
          hash := (scrub (scrub s)).hash, dout := (scrub (scrub s)).dout, truncP := (scrub (scrub s)).truncP,
          code := (scrub (scrub s)).code, pw := (scrub (scrub s)).pw, tbuf := (scrub (scrub s)).tbuf,
          tcount := (scrub (scrub s)).tcount, tset := (scrub (scrub s)).tset } := rfl
    _ = scrub s := by rw [hhash, hdout, htruncP, hcode, hpw, htbuf, htcount, htset]

/-! ## What `scrub` does to the writes of the pseudocodes -/

theorem scrub_withHash {e : HashEngine} (h : e.phase ≠ .uninit) (s : State) (m : MPhase) :
    scrub { s with hash := e, mphase := m } = { scrub s with hash := e, mphase := m } := by
  simp only [scrub, if_neg h]

theorem scrub_withDigest {e : HashEngine} (h : e.phase ≠ .uninit) (s : State) (d : Digest) (m : MPhase) :
    scrub { s with hash := e, mphase := m, dout := d, doutValid := true } =
      { scrub s with hash := e, mphase := m, dout := d, doutValid := true } := by
  simp only [scrub, if_neg h, if_true]

theorem scrub_updateHold (hold0 : Byte) (armed : Bool) (s : State) :
    scrub (updateHold hold0 armed s) = updateHold hold0 armed (scrub s) := rfl

/-! ## The engine frames -/

theorem absorb_phase {data : List Byte} {e e' : HashEngine} (h : absorb data e = .ok e') : e'.phase = .active := by
  obtain ⟨hactive, -, rfl⟩ := absorb_eq_ok h
  exact (absorbBytes_bits data e).2.trans hactive

theorem absorb_scrub (data : List Byte) (s : State) : absorb data (scrub s).hash = absorb data s.hash := by
  by_cases h : s.hash.phase = .active
  · rw [scrub_active h]
  · rw [absorb_not_active h, absorb_not_active ((scrub_phase s).symm ▸ h)]

theorem finalize_scrub (s : State) : finalize (scrub s).hash = finalize s.hash := by
  by_cases h : s.hash.phase = .active
  · rw [scrub_active h]
  · rw [finalize_not_active h, finalize_not_active ((scrub_phase s).symm ▸ h)]

theorem finalize_phase {e : HashEngine} {r : Digest × HashEngine} (h : finalize e = .ok r) : r.2.phase = .final := by
  obtain ⟨-, rfl⟩ := finalize_eq_ok h
  rfl

theorem absorbState_scrub (data : List Byte) (s : State) : absorbState data (scrub s) = (absorbState data s).map scrub := by
  unfold absorbState
  rw [absorb_scrub]
  exact bind_map_congr fun e he => congrArg Except.ok
    (scrub_withHash (by rw [absorb_phase he]; decide) s s.mphase).symm

theorem shaDigestBody_scrub (s : State) : shaDigestBody (scrub s) = (shaDigestBody s).map scrub := by
  unfold shaDigestBody
  rw [finalize_scrub]
  exact bind_map_congr fun r hr => congrArg Except.ok
    (scrub_withDigest (by rw [finalize_phase hr]; decide) s r.1 .idle).symm

theorem macInitBody_scrub (key : List Byte) (s : State) : macInitBody key (scrub s) = (macInitBody key s).map scrub := by
  unfold macInitBody
  split
  · rfl
  · exact bind_map_congr fun e he => congrArg Except.ok
      (scrub_withHash (by rw [absorb_phase he]; decide) s .inner).symm

theorem macUpdateBody_scrub (data : List Byte) (s : State) : macUpdateBody data (scrub s) = (macUpdateBody data s).map scrub := by
  by_cases hm : s.mphase = .inner
  · rw [macUpdateBody_inner hm, macUpdateBody_inner (s := scrub s) hm, absorbState_scrub]
  · rw [macUpdateBody, macUpdateBody, if_pos hm, if_pos (show (scrub s).mphase ≠ .inner from hm)]
    rfl

theorem macFinalBody_scrub (key : List Byte) (s : State) : macFinalBody key (scrub s) = (macFinalBody key s).map scrub := by
  unfold macFinalBody
  rw [finalize_scrub]
  split
  · rfl
  · by_cases hm : s.mphase = .inner
    · rw [if_neg (not_not_intro hm), if_neg (not_not_intro (show (scrub s).mphase = .inner from hm))]
      exact bind_map_congr fun _ _ => bind_map_congr fun _ _ => bind_map_congr fun _ _ => bind_map_congr fun r hr =>
        congrArg Except.ok (scrub_withDigest (by rw [finalize_phase hr]; decide) s r.1 .done).symm
    · rw [if_pos hm, if_pos (show (scrub s).mphase ≠ .inner from hm)]
      rfl

theorem otpTruncBody_scrub (s : State) : otpTruncBody (scrub s) = (otpTruncBody s).map scrub := by
  cases hv : s.doutValid with
  | true =>
    rw [otpTruncBody_ok hv, otpTruncBody_ok (s := scrub s) hv]
    simp only [scrub, hv, if_true, Except.map]
  | false =>
    rw [otpTruncBody, otpTruncBody, if_pos hv, if_pos (show (scrub s).doutValid = false from hv)]
    rfl

theorem tcBcdBody_scrub (b : ClockBytes) (s : State) : tcBcdBody b (scrub s) = scrub (tcBcdBody b s) := by
  unfold tcBcdBody
  cases bcdCounter b with
  | none => rfl
  | some c => rfl

theorem tcMonoBody_scrub {s : State} (hl : LegalLayout s.cfg) : tcMonoBody (scrub s) = (tcMonoBody s).map scrub := by
  by_cases hmax : wordAt (counterAddr s) s.nv = 0xFFFFFFFF
  · rw [tcMonoBody_exhausted hl.timeInside hmax, tcMonoBody_exhausted (s := scrub s) hl.timeInside hmax]
    rfl
  · rw [tcMonoBody_ok hl.timeInside hmax, tcMonoBody_ok (s := scrub s) hl.timeInside hmax]
    rfl

/-! ## The poll -/

theorem clockRead_scrub (s : State) : clockRead (scrub s) = ((clockRead s).1, scrub (clockRead s).2) := by
  cases h : s.clockAnswers with
  | nil => rw [clockRead_nil h, clockRead_nil (s := scrub s) h]; rfl
  | cons b bs => rw [clockRead_cons h, clockRead_cons (s := scrub s) h]; rfl

theorem generateTime_scrub {s : State} (hl : LegalLayout s.cfg) : generateTime (scrub s) = (generateTime s).map scrub := by
  cases hsrc : s.cfg.timeSrc with
  | ext =>
    rw [generateTime_ext hsrc, generateTime_ext (s := scrub s) hsrc, clockRead_scrub, tcBcdBody_scrub]
    rfl
  | mono =>
    rw [generateTime_mono hsrc, generateTime_mono (s := scrub s) hsrc]
    exact tcMonoBody_scrub hl

/-- Steps (2) to (5) of a generation read the time buffer alone, which step (1) wrote, and write every register they leave. -/
theorem afterGeneration_scrub (s : State) {u : State} (hu : u.tbufValid = true) :
    afterGeneration (scrub s) (scrub u) = scrub (afterGeneration s u) := by
  unfold afterGeneration generated
  simp only [scrub, updateHold, storeCells, hu, if_true]
  rfl

theorem pollIdle_scrub (p : Pins) (s : State) : pollIdle p (scrub s) = scrub (pollIdle p s) := by
  unfold pollIdle
  split <;> rfl

theorem pollReleasing_scrub (p : Pins) (s : State) : pollReleasing p (scrub s) = scrub (pollReleasing p s) := by
  unfold pollReleasing
  split <;> rfl

/-- The clock gets the requested time from both, and the register has no value afterwards. -/
theorem pollSettingTime_scrub {s : State} (h : s.tsetPend = true) :
    scrub (pollSettingTime (scrub s)) = scrub (pollSettingTime s) := by
  have hrun : pollSettingTime (scrub s) = { scrub (pollSettingTime s) with tset := s.tset } := by
    simp only [pollSettingTime, scrub, clockWrite, h, if_true]
  rw [hrun]
  exact scrub_scrub (pollSettingTime s)

/-- What equality up to `scrub` follows from. -/
theorem map_scrub_of_eq {x y : Except Stop State} (h : x = y.map scrub) : x.map scrub = y.map scrub := by
  subst h
  cases y with
  | error r => rfl
  | ok t => exact congrArg Except.ok (scrub_scrub t)

theorem ctlPollBody_scrub (b : Byte) {s : State} (h : Inv s) (hl : LegalLayout s.cfg) :
    (ctlPollBody b (scrub s)).map scrub = (ctlPollBody b s).map scrub := by
  cases hr : reservedBitsSet b with
  | true => rw [poll_reserved hr, poll_reserved hr]
  | false =>
    cases hc : s.cstate with
    | idle =>
      refine map_scrub_of_eq ?_
      rw [poll_idle hr hc, poll_idle (s := scrub s) hr hc, pollIdle_scrub]
      rfl
    | waiting =>
      refine map_scrub_of_eq ?_
      cases hp : s.tsetPend with
      | true =>
        rw [poll_waiting_pending hr hc hp, poll_waiting_pending (s := scrub s) hr hc hp]
        rfl
      | false =>
        cases ht : triggers b s with
        | true =>
          rw [poll_generate hr ht hl, poll_generate (s := scrub s) hr ht hl, generateTime_scrub hl]
          cases hu : generateTime s with
          | error r => rfl
          | ok u =>
            obtain ⟨c, answers, draws, cells, -, rfl⟩ := generateTime_eq_ok hl hu
            exact congrArg Except.ok (afterGeneration_scrub s rfl)
        | false =>
          rw [poll_waiting_quiet hr hc hp ht, poll_waiting_quiet (s := scrub s) hr hc hp ht]
          rfl
    | settingTime =>
      rw [poll_settingTime hr hc, poll_settingTime (s := scrub s) hr hc]
      refine congrArg Except.ok ?_
      rw [scrub_updateHold, scrub_updateHold, pollSettingTime_scrub (h.settingHasRequest hc)]
      rfl
    | sending =>
      refine map_scrub_of_eq ?_
      have hpw : (scrub s).pw = s.pw := scrub_pw (h.emittingHasPassword (by rw [State.emitting, hc]))
      cases hs : (pinsOf b).slot with
      | true =>
        have hi : s.idx.toNat < 6 := Nat.lt_succ_of_le (h.idxSending hc)
        rw [poll_sending_slot hr hc hs hi, poll_sending_slot (s := scrub s) hr hc hs hi]
        simp only [hpw]
        rfl
      | false =>
        rw [poll_sending_noSlot hr hc hs, poll_sending_noSlot (s := scrub s) hr hc hs]
        rfl
    | releasing =>
      refine map_scrub_of_eq ?_
      rw [poll_releasing hr hc, poll_releasing (s := scrub s) hr hc, pollReleasing_scrub]
      rfl

/-! ## The host-channel frames -/

theorem hostProvisionBody_scrub (secret : List Byte) {s : State} (hl : LegalLayout s.cfg) :
    hostProvisionBody secret (scrub s) = (hostProvisionBody secret s).map scrub := by
  by_cases hlen : 1 ≤ secret.length ∧ secret.length ≤ 64
  · rw [hostProvision_accepted hlen hl, hostProvision_accepted (s := scrub s) hlen hl]
    rfl
  · rw [hostProvision_rejected hlen, hostProvision_rejected hlen]
    rfl

theorem hostSetTimeBody_scrub (b : ClockBytes) (s : State) : hostSetTimeBody b (scrub s) = scrub (hostSetTimeBody b s) := by
  unfold hostSetTimeBody
  rw [apply_ite scrub]
  rfl

theorem hostSetCounterBody_scrub (cval : Word) {s : State} (hl : LegalLayout s.cfg) :
    hostSetCounterBody cval (scrub s) = (hostSetCounterBody cval s).map scrub := by
  cases hsrc : s.cfg.timeSrc with
  | ext =>
    rw [hostSetCounter_ext hsrc, hostSetCounter_ext (s := scrub s) hsrc]
    rfl
  | mono =>
    rw [hostSetCounter_mono hsrc hl, hostSetCounter_mono (s := scrub s) hsrc hl]
    rfl

/-! ## Every frame -/

theorem bodyOf_scrub (i : Instr) {s : State} (h : Inv s) (hl : LegalLayout s.cfg) :
    (bodyOf i (scrub s)).map scrub = (bodyOf i s).map scrub := by
  cases i with
  | shaReset => exact map_scrub_of_eq rfl
  | shaUpdate data => exact map_scrub_of_eq (absorbState_scrub data s)
  | shaDigest => exact map_scrub_of_eq (shaDigestBody_scrub s)
  | macInit key => exact map_scrub_of_eq (macInitBody_scrub key s)
  | macUpdate data => exact map_scrub_of_eq (macUpdateBody_scrub data s)
  | macFinal key => exact map_scrub_of_eq (macFinalBody_scrub key s)
  | otpTrunc => exact map_scrub_of_eq (otpTruncBody_scrub s)
  | tcBcd b => exact map_scrub_of_eq (congrArg Except.ok (tcBcdBody_scrub b s))
  | tcMono => exact map_scrub_of_eq (tcMonoBody_scrub hl)
  | ctlPoll b => exact ctlPollBody_scrub b h hl
  | hostProvision secret => exact map_scrub_of_eq (hostProvisionBody_scrub secret hl)
  | hostSetTime b => exact map_scrub_of_eq (congrArg Except.ok (hostSetTimeBody_scrub b s))
  | hostSetCounter cval => exact map_scrub_of_eq (hostSetCounterBody_scrub cval hl)

theorem map_eq_ok {α β : Type} {x : Except Stop α} {f : α → β} {b : β} (h : x.map f = .ok b) : ∃ a, x = .ok a ∧ f a = b := by
  cases x with
  | error r => cases h
  | ok a => exact ⟨a, rfl, Except.ok.inj h⟩

theorem map_eq_error {α β : Type} {x : Except Stop α} {f : α → β} {r : Stop} (h : x.map f = .error r) : x = .error r := by
  cases x with
  | error r' => exact congrArg Except.error (Except.error.inj h)
  | ok a => cases h

/-- How the pseudocode's end becomes the frame's, once the common checks have let it run. -/
def outcomeOf (opc : Byte) (s : State) : Except Stop State → Host.Outcome State Fault Refusal
  | .ok t => .next t
  | .error (.raise c) => .next (takeFault c opc s)
  | .error (.stop f) => .fault f

theorem runFrame_free {opc : Byte} {engine : Bool} {body : State → Except Stop State} {s : State} (hs : s.halted = false)
    (hfree : (engine && s.emitting) = false) : runFrame opc engine body s = outcomeOf opc s (body s) := by
  rw [runFrame, hs, hfree]
  rfl

/-- The outcome of a frame, up to `scrub`, is that of its pseudocode, up to `scrub`. -/
theorem scrubOutcome_runFrame (opc : Byte) (engine : Bool) {body : State → Except Stop State} {s : State}
    (h : (body (scrub s)).map scrub = (body s).map scrub) :
    scrubOutcome (runFrame opc engine body s) = scrubOutcome (runFrame opc engine body (scrub s)) := by
  have hfault : ∀ c, scrub (takeFault c opc s) = scrub (takeFault c opc (scrub s)) := fun c =>
    (scrub_scrub (takeFault c opc s)).symm
  cases hs : s.halted with
  | true =>
    rw [runFrame_halted hs, runFrame_halted (s := scrub s) hs]
    exact congrArg Host.Outcome.next (scrub_scrub s).symm
  | false =>
    cases hbusy : engine && s.emitting with
    | true =>
      obtain ⟨rfl, hemit⟩ := Bool.and_eq_true_iff.1 hbusy
      rw [runFrame_busy hs hemit, runFrame_busy (s := scrub s) hs hemit]
      exact congrArg Host.Outcome.next (hfault .engineBusy)
    | false =>
      rw [runFrame_free hs hbusy, runFrame_free (s := scrub s) hs hbusy]
      cases hb : body s with
      | ok t =>
        rw [hb] at h
        obtain ⟨t', ht', hscrub⟩ := map_eq_ok h
        rw [ht']
        exact congrArg Host.Outcome.next hscrub.symm
      | error r =>
        rw [hb] at h
        rw [map_eq_error h]
        cases r with
        | raise c => exact congrArg Host.Outcome.next (hfault c)
        | stop f => rfl

end Sys2Proof.Machine

namespace Sys2Proof

open Machine Safety

/-- Settles O59: up to `scrub`, every pseudocode does the same from the scrubbed state. -/
theorem noFrameReadsAValuelessRegister : Obligations.NoFrameReadsAValuelessRegister := by
  unfold Obligations.NoFrameReadsAValuelessRegister
  intro i s h hcfg
  rw [exec_eq, exec_eq]
  exact scrubOutcome_runFrame _ _ (bodyOf_scrub i h (legalLayout hcfg))

end Sys2Proof

end

section
/-! Power lost inside a frame (70_reset_and_hazards.md R165): what `cutShort` leaves of the frame's reports, clock writes and store
writes, and what that means for a generation of `MONO` mode (R166). -/

namespace Sys2Proof.Machine

open Safety

/-! ## A frame cut short -/

/-- Tearing a byte changes at most the byte that was to be written next. -/
theorem tearByte_cases (torn : Bool) (pending : List Host.Cell) (s : State) :
    tearByte torn pending s = s ∨
      torn = true ∧ ∃ c v, pending[0]? = some c ∧
        tearByte torn pending s = { s with nv := Memory.write c.1 v s.nv, draws := s.draws + 1 } := by
  unfold tearByte
  split
  · exact .inr ⟨rfl, _, _, rfl, rfl⟩
  · exact .inl rfl
  · exact .inl rfl

section

variable (done : Nat) (torn : Bool) (s t : State)

theorem cutShort_cfg : (cutShort done torn s t).cfg = t.cfg := by
  unfold cutShort tearByte
  split <;> rfl

theorem cutShort_stream : (cutShort done torn s t).stream = t.stream := by
  unfold cutShort tearByte
  split <;> rfl

theorem cutShort_reports :
    (cutShort done torn s t).reports = s.reports ++ (t.reports.drop s.reports.length).take done := by
  unfold cutShort tearByte
  split <;> rfl

theorem cutShort_clockWrites :
    (cutShort done torn s t).clockWrites = s.clockWrites ++ (t.clockWrites.drop s.clockWrites.length).take done := by
  unfold cutShort tearByte
  split <;> rfl

variable {s}

theorem cutShort_wf (h : Memory.wf s.nv = true) : Memory.wf (cutShort done torn s t).nv = true := by
  unfold cutShort tearByte
  split
  · exact Memory.wf_write _ _ (Memory.wf_writeAll _ h)
  · exact Memory.wf_writeAll _ h
  · exact Memory.wf_writeAll _ h

/-- The store keeps the byte writes that completed; the byte being written is the only other one that may differ. -/
theorem read_cutShort {a : Nat} (ha : torn = true → ∀ c, t.storeLog[done]? = some c → c.1 ≠ a) :
    Memory.read a (cutShort done torn s t).nv = Memory.read a (Memory.writeAll (t.storeLog.take done) s.nv) := by
  unfold cutShort
  rcases tearByte_cases torn (t.storeLog.drop done)
    { t with
      nv := Memory.writeAll (t.storeLog.take done) s.nv
      reports := s.reports ++ (t.reports.drop s.reports.length).take done
      clockWrites := s.clockWrites ++ (t.clockWrites.drop s.clockWrites.length).take done } with h | ⟨htorn, c, v, hc, h⟩
  · rw [h]
    rfl
  · rw [h]
    rw [List.getElem?_drop] at hc
    exact Memory.read_write_other _ _ fun heq => ha htorn c hc heq.symm

end

/-- In a legal configuration, power lost inside the frame at the head of the stream cuts that frame short. -/
theorem step_within {s t : State} {i : Instr} {rest : List Byte} {done : Nat} {torn : Bool} (hcfg : configLegal s.cfg = true)
    (hpower : s.power = some (.within done torn)) (hi : i.wellFormed = true) (hstream : s.stream = encode i ++ rest)
    (h : exec i (s.consume rest) = .next t) : step s = .next (cutShort done torn s t) := by
  have hframe : frameStep s = .next t := by rw [frameStep, hstream, decode_encode_append rest hi]; exact h
  rw [step_eq_powerLossStep hcfg hpower, powerLossStep, hframe]

/-- A frame adds to the reports sent. -/
theorem exec_appends_reports {i : Instr} {s t : State} (hl : LegalLayout s.cfg) (h : exec i s = .next t) :
    ∃ sent, t.reports = s.reports ++ sent := by
  rcases exec_reports hl h with hsame | ⟨-, r, hr⟩
  · exact ⟨[], hsame.trans (List.append_nil _).symm⟩
  · exact ⟨[r], hr⟩

/-- A frame adds to the clock writes made. -/
theorem exec_appends_clockWrites {i : Instr} {s t : State} (hl : LegalLayout s.cfg) (h : exec i s = .next t) :
    ∃ made, t.clockWrites = s.clockWrites ++ made := by
  rcases exec_effect hl h with ⟨f, rfl⟩ | heffect
  · exact ⟨[], (List.append_nil _).symm⟩
  · cases heffect with
    | pollSetsTime b hold hc => exact ⟨[s.tset], rfl⟩
    | _ => exact ⟨[], (List.append_nil _).symm⟩

/-! ## A generation of MONO mode cut short -/

/-- The address of the write number `n` of consecutive bytes. -/
theorem address_of_getElem?_cellsAt {a n : Nat} {v : List Byte} {c : Host.Cell} (h : (cellsAt a v)[n]? = some c) :
    c.1 = a + n := by
  rw [cellsAt_eq_zip, List.getElem?_zip_eq_some] at h
  obtain ⟨haddr, -⟩ := h
  rw [List.getElem?_map, Option.map_eq_some_iff] at haddr
  obtain ⟨m, hm, haddr⟩ := haddr
  obtain ⟨hlt, hm⟩ := List.getElem?_eq_some_iff.1 hm
  rw [List.getElem_range hlt] at hm
  exact haddr.symm.trans (congrArg (a + ·) hm.symm)

section

variable {s : State} (hl : LegalLayout s.cfg) (done : Nat) (torn : Bool)

theorem generatedMono_storeLog (rest : List Byte) :
    (generatedMono (s.consume rest)).storeLog =
      counterCells s ++ cellsAt s.cfg.nvPwOfs (generatedMono (s.consume rest)).pw.toList :=
  generatedFrom_storeLog ..

include hl in
/-- The writes after those of the counter leave its bytes. -/
theorem read_take_generatedMono (h : Memory.wf s.nv = true) (rest : List Byte) {k : Nat} (hk : k < 4) :
    Memory.read (s.cfg.nvTimeOfs + 4 + k) (Memory.writeAll ((generatedMono (s.consume rest)).storeLog.take done) s.nv) =
      if k < done then (be32 (BitVec.ofNat 32 (storedCounter s.cfg s.nv + 1))).getD k 0
      else Memory.read (s.cfg.nvTimeOfs + 4 + k) s.nv := by
  have hapart := hl.timePw
  rw [generatedMono_storeLog, List.take_append, Memory.writeAll_append, Memory.read_writeAll_other _ fun c hc => ?_,
    counterCells, take_cellsAt, wordAt_succ, read_writeAll_cellsAt h, List.length_take, be32_length, Nat.add_sub_cancel_left]
  · by_cases hdone : k < done
    · rw [if_pos hdone, if_pos (by omega), List.getD_eq_getElem?_getD, List.getElem?_take_of_lt hdone,
        List.getD_eq_getElem?_getD]
    · rw [if_neg hdone, if_neg (by omega)]
  · have hcell := mem_cellsAt (List.mem_of_mem_take hc)
    rw [Vector.length_toList] at hcell
    omega

include hl in
/-- The byte being written when power is lost is the counter's byte number `done`, or one of the password. -/
theorem torn_generatedMono (rest : List Byte) {k : Nat} (hk : k < 4) (hne : k ≠ done) {c : Host.Cell}
    (hc : (generatedMono (s.consume rest)).storeLog[done]? = some c) : c.1 ≠ s.cfg.nvTimeOfs + 4 + k := by
  have hapart := hl.timePw
  rw [generatedMono_storeLog] at hc
  by_cases hdone : done < 4
  · rw [List.getElem?_append_left (by rwa [counterCells, cellsAt_length, be32_length])] at hc
    have haddr := address_of_getElem?_cellsAt hc
    omega
  · rw [List.getElem?_append_right (by rw [counterCells, cellsAt_length, be32_length]; omega)] at hc
    have hcell := mem_cellsAt (List.mem_of_getElem? hc)
    rw [Vector.length_toList] at hcell
    omega

include hl in
/-- The counter bytes written before the cut are those of the next counter, those after it the old ones. -/
theorem read_cutShort_generatedMono (h : Memory.wf s.nv = true) (rest : List Byte) {k : Nat} (hk : k < 4)
    (hne : torn = true → k ≠ done) :
    Memory.read (s.cfg.nvTimeOfs + 4 + k) (cutShort done torn s (generatedMono (s.consume rest))).nv =
      if k < done then (be32 (BitVec.ofNat 32 (storedCounter s.cfg s.nv + 1))).getD k 0
      else Memory.read (s.cfg.nvTimeOfs + 4 + k) s.nv :=
  (read_cutShort done torn _ fun htorn _ hc => torn_generatedMono hl done rest hk (hne htorn) hc).trans
    (read_take_generatedMono hl done h rest hk)

include hl in
/-- Once the four counter bytes are written the store holds the next counter. -/
theorem storedCounter_cutShort_generatedMono (h : Memory.wf s.nv = true) (hmax : storedCounter s.cfg s.nv ≠ 2 ^ 32 - 1)
    (rest : List Byte) (hdone : 4 ≤ done) :
    storedCounter s.cfg (cutShort done torn s (generatedMono (s.consume rest))).nv = storedCounter s.cfg s.nv + 1 := by
  rw [← nextCounter_toNat hmax, ← storedCounter_write s.cfg _ h]
  refine storedCounter_congr fun a hlo hhi => ?_
  obtain ⟨k, rfl⟩ := Nat.exists_eq_add_of_le hlo
  rw [read_cutShort_generatedMono hl done torn h rest (by omega) fun _ => by omega, if_pos (by omega), wordAt_succ,
    read_writeAll_cellsAt h, if_pos (by rw [be32_length]; omega), Nat.add_sub_cancel_left]

end

end Sys2Proof.Machine

namespace Sys2Proof

open Machine Safety

/-- Settles O55: the step is the frame cut short, and the frame's writes, reports and clock writes are added to what was there. -/
theorem powerLossKeepsAPrefix : Obligations.PowerLossKeepsAPrefix := by
  unfold Obligations.PowerLossKeepsAPrefix
  intro s t i rest done torn hcfg hwf hpower hi hstream h
  have hkeeps := exec_keeps h
  obtain ⟨cells, hlog, hnv⟩ := hkeeps.store
  obtain ⟨sent, hsent⟩ := exec_appends_reports (s := s.consume rest) (legalLayout hcfg) h
  obtain ⟨made, hmade⟩ := exec_appends_clockWrites (s := s.consume rest) (legalLayout hcfg) h
  refine ⟨hnv.trans (congrArg (Memory.writeAll · s.nv) hlog.symm), _, _, step_within hcfg hpower hi hstream h, rfl,
    (cutShort_cfg done torn s t).trans hkeeps.cfg, (cutShort_stream done torn s t).trans hkeeps.stream,
    fun a ha => read_cutShort done torn t ha, ⟨sent, hsent, ?_⟩, made, hmade, ?_⟩
  · rw [cutShort_reports, hsent, consume_reports, List.drop_left]
  · rw [cutShort_clockWrites, hmade, consume_clockWrites, List.drop_left]

/-- Settles O56: the counter bytes are the first four writes, and the counter is then what the frames after the reset find. -/
theorem powerLossInAMonoGeneration : Obligations.PowerLossInAMonoGeneration := by
  unfold Obligations.PowerLossInAMonoGeneration
  intro s b rest done torn hcfg hwf hrun hb ht hsrc hmax hpower hstream
  have hl := legalLayout hcfg
  have hexec : exec (.ctlPoll b) (s.consume rest) = .next (generatedMono (s.consume rest)) :=
    exec_ctlPoll_mono hrun (reservedBitsSet_of_lt hb) ht hl hsrc hmax
  have hucfg : (cutShort done torn s (generatedMono (s.consume rest))).cfg = s.cfg := cutShort_cfg ..
  refine ⟨_, step_within hcfg hpower rfl hstream hexec, ?_, fun hdone => ?_, fun k hk => ⟨fun hlt => ?_, fun hge => ?_⟩⟩
  · have hsame : (generatedMono (s.consume rest)).reports = s.reports := rfl
    rw [cutShort_reports, hsame, List.drop_length, List.take_nil, List.append_nil]
  · have hcounter := storedCounter_cutShort_generatedMono hl done torn hwf hmax rest hdone
    have huwf := cutShort_wf done torn (generatedMono (s.consume rest)) hwf
    generalize cutShort done torn s (generatedMono (s.consume rest)) = u at hucfg hcounter huwf ⊢
    have hul : LegalLayout u.cfg := hucfg ▸ hl
    have husrc : u.cfg.timeSrc = .mono := hucfg ▸ hsrc
    rw [hucfg]
    refine ⟨hcounter, fun is t i hi hruns hg => ?_⟩
    obtain ⟨htcfg, htl, htwf⟩ := runFrames_legal hul huwf hruns
    obtain ⟨w, hw, htcount, -⟩ := exec_generates_mono htl htwf (htcfg ▸ husrc) hg
    have hle := runFrames_storedCounter_le hul huwf hi hruns
    rw [hucfg, hcounter] at hle
    refine ⟨w, hw, Nat.lt_of_succ_le (hle.trans_eq htcount.symm), fun hi' => ?_⟩
    rw [htcount, runFrames_storedCounter hul huwf husrc hi hi' hruns, hucfg, hcounter]
  · rw [read_cutShort_generatedMono hl done torn hwf rest hk fun _ => by omega, if_pos hlt]
  · have hne : torn = true → k ≠ done := fun htorn heq => hge.elim (fun hlt => by omega) fun hwhole =>
      Bool.false_ne_true (hwhole.2.symm.trans htorn)
    rw [read_cutShort_generatedMono hl done torn hwf rest hk hne, if_neg (by omega)]

end Sys2Proof

end
